-- ==== Sys2Proof/Word.lean ====
section
/-! DEFINITION. The words that cross a port and the number format of the datapath
(spec 00_scope.md R5 NUMERICS, R7, R8; 30_encoding.md R90). -/

namespace Sys2Proof

/-- A word of the command port or of the control port: exactly 32 bits (R90). -/
abbrev Word := BitVec 32

/-- An 8-bit field of a word, and a byte of a transport that carries words as bytes (R67, R91). -/
abbrev Byte := BitVec 8

/-- The spec's `Num`, the type of every real-valued register: an IEEE 754 binary32 bit pattern (R8, D1).
Its arithmetic is in `Sys2Proof/Machine/Binary32.lean`. -/
abbrev Num32 := BitVec 32

end Sys2Proof
end

