-- ==== Sys2Proof/Config.lean ====
section
/-! DEFINITION. What is fixed for a machine: the constants of the spec (00_scope.md R5), the immutable
definition data a host supplies (instruments, ROM instances, the algorithm table, the note table), the
construction inputs, and the free values. -/

namespace Sys2Proof

/-! ## Definition data -/

/-- Four things, one per FM operator, operator 0 (A) to operator 3 (D) (R161, R170). -/
structure Quad (α : Type) where
  o0 : α
  o1 : α
  o2 : α
  o3 : α
  deriving DecidableEq, Repr, Inhabited

/-- `ActiveState` (R22). The names are the spec's own. Encoding 3 is never held, so it has no constructor. -/
inductive ActiveState
  | Off
  | On
  | Trigger
  deriving DecidableEq, Repr, Inhabited

/-- `EnvelopeDefinition` (R190): times in seconds, the sustain level in unit amplitude. -/
structure EnvelopeDefinition where
  attackTime   : Num32
  decayTime    : Num32
  sustainLevel : Num32
  releaseTime  : Num32
  deriving DecidableEq, Repr, Inhabited

/-- `WavetableDefinition` (R61). A sample is a natural number, not a byte: TABLE_CHECK (R226) is what
establishes that each is below 2^B, so data that fails it can be written down. -/
structure WavetableDefinition where
  data     : List Nat
  envelope : EnvelopeDefinition
  deriving DecidableEq, Repr, Inhabited

/-- One of the four operator definitions of an `FMDefinition` (R63). -/
structure FMOperatorDefinition where
  table           : List Nat
  envelope        : EnvelopeDefinition
  modulationDepth : Num32
  deriving DecidableEq, Repr, Inhabited

/-- `FMDefinition` (R63): `algorithm` is 0 to 255, legal only if at most 11. -/
structure FMDefinition where
  algorithm : Byte
  op        : Quad FMOperatorDefinition
  deriving DecidableEq, Repr, Inhabited

/-- An entry of a ROM instance that is not `None` (R64). -/
inductive Instrument
  | wt (d : WavetableDefinition)
  | fm (d : FMDefinition)
  deriving DecidableEq, Repr, Inhabited

/-- A ROM instance, `INSTR[0..NUM_INSTRUMENTS-1]` (R64). -/
abbrev RomInstance := List (Option Instrument)

/-- `ROMS`, the host's store of ROM instances by 24-bit slot id (R60); a slot that is not listed holds
`None`. Its one canonical form is `RomStore.wf` (`Sys2Proof/WellFormed.lean`). -/
abbrev RomStore := List (BitVec 24 × RomInstance)

/-- A modulator entry (R161) whose indices are below `n`. The bound is R162: the entry of operator `n`
names only operators strictly below `n`. An index may be repeated. -/
inductive ModulatedBy (n : Nat)
  | none
  | single (a : Fin n)
  | double (a b : Fin n)
  | triple (a b c : Fin n)
  deriving DecidableEq, Repr, Inhabited

/-- `AlgorithmDefinition` (R161, R162): `m1`, `m2`, `m3` are the spec's modulators[0], [1], [2], the
entries of operators 1, 2 and 3. Operator 0 has none. -/
structure AlgorithmDefinition where
  carriers : Quad Bool
  m1 : ModulatedBy 1
  m2 : ModulatedBy 2
  m3 : ModulatedBy 3
  deriving DecidableEq, Repr, Inhabited

/-- One row of NOTE_HZ (R5, D21): the frequency of `note` on an instrument entry, for one FM operator or
(`none`) for a wavetable instrument. -/
structure NoteRow where
  entry : Instrument
  op    : Option (Fin 4)
  note  : Byte
  hz    : Num32
  deriving DecidableEq, Repr, Inhabited

/-- NOTE_HZ, "a total function to finite Num32" (R5), as plain data: the first row that fits, else the
default. Every function on the finitely many entries of a ROM store has this form. DEDUCED, log 6, safe. -/
structure NoteTable where
  rows    : List NoteRow
  default : Num32
  deriving DecidableEq, Repr, Inhabited

/-- The parameters a machine is built with and never changes (R5, R310); FS and the bound ROM are in
SoundEngineData. -/
structure Params where
  numChannels    : Nat
  numInstruments : Nat
  algTable       : Vector AlgorithmDefinition 10
  noteHz         : NoteTable
  roms           : RomStore
  rom0           : BitVec 24
  deriving DecidableEq, Repr

namespace Config

/-! ## Constants of R5 -/

/-- `WAVE_BITS`, B. -/
def waveBits : Nat := 8
/-- `M`, the dequantization divisor 2^B - 1 (R142). -/
def dequant : Nat := 2 ^ waveBits - 1
/-- `L_MAX`. -/
def lMax : Nat := 2 ^ 24
/-- `OUTQ_CAP`. -/
def outqCap : Nat := 2
/-- `FRAME_RATE`. -/
def frameRate : Nat := 60
/-- `N_MAX`. -/
def nMax : Nat := 2 ^ 32 - 1
/-- The largest NUM_CHANNELS and NUM_INSTRUMENTS (D20). -/
def countMax : Nat := 256
/-- The operator byte of a ROM fault's info that names no operator (R281). -/
def noOperator : Nat := 0xFF

/-! ## Free values

Each is an opaque constant applied to the operands it depends on: nothing in the model can evaluate one. -/

/-- Sign and payload of a NaN result (R8 and 91 N2 give neither). DESIGN CHOICE free, log 7, safe. -/
opaque freeNaN : Num32 → Num32 → Num32

/-- clamp01 of a value that is not finite (R8 gives min and max for finite values only; R197 bounds the
result). DESIGN CHOICE free, log 8, safe. -/
opaque freeAmplitude : Num32 → Nat

/-- The tick count of a stage whose definition ENV_CHECK would not accept (R192 states none).
DESIGN CHOICE free, log 9, safe. -/
opaque freeStageTicks : Num32 → Num32 → Nat

/-- SPF where FS is not finite (R8 gives floor for finite values only). DESIGN CHOICE free, log 17, safe. -/
opaque freeFrameLength : Num32 → Nat

/-- ALG_TABLE of the machine `State.reset` (R165: no topology may be assumed). DESIGN CHOICE free, log 5, safe. -/
opaque algTable : Fin 10 → AlgorithmDefinition

/-! ## The construction inputs of `State.reset`

R310 leaves them to the device, the host and the implementation. DESIGN CHOICE, log 4, unsafe: a claim
about `State.reset` alone is about one machine. Every claim over all states is about every machine. -/

/-- FS: 120.0, the rate of program P2 (95_test_vectors.md), so SPF is 2. -/
def resetFs : Num32 := 0x42F00000#32

/-- Two channels, two instruments (the engine fixture of 95_test_vectors.md), one ROM slot whose instance
holds no instrument, no note row. -/
def params : Params where
  numChannels := 2
  numInstruments := 2
  algTable := Vector.ofFn algTable
  noteHz := { rows := [], default := 0 }
  roms := [(0, [none, none])]
  rom0 := 0

/-- ROMS[ROM0] of those inputs. -/
def resetRom : RomInstance := [none, none]

end Config
end Sys2Proof
end

