-- ==== Sys2Proof/Machine/Binary32.lean ====
section
/-! DEFINITION. Arithmetic on `Num32` (00_scope.md R8, D1): IEEE 754 binary32, each operation rounded once to
nearest, ties to even; nothing fused, nothing flushed to zero.

Every finite binary32 value is a whole number of units of 2^-149. So an operand is read as an integer
number of units, the operation is computed exactly on integers, and `roundMag` narrows the exact quotient
once. -/

namespace Sys2Proof.Machine.F32

/-- The sign bit. -/
def sign (x : Num32) : Bool := x.msb

/-- The 8-bit biased exponent field. -/
def expField (x : Num32) : Nat := x.toNat / 2 ^ 23 % 256

/-- The 23-bit fraction field. -/
def frac (x : Num32) : Nat := x.toNat % 2 ^ 23

/-- `isFinite(x)`: neither infinite nor NaN (R8). -/
def isFinite (x : Num32) : Bool := expField x != 255

def isNaN (x : Num32) : Bool := expField x == 255 && frac x != 0

def isZero (x : Num32) : Bool := expField x == 0 && frac x == 0

/-- The magnitude in units of 2^-149. An infinity reads as 2^277, above every finite magnitude. -/
def mag (x : Num32) : Nat :=
  if expField x = 0 then frac x else (2 ^ 23 + frac x) * 2 ^ (expField x - 1)

/-- The value in units of 2^-149. -/
def toInt (x : Num32) : Int := if sign x then -(mag x : Int) else (mag x : Int)

/-- The number with a sign and the 31 magnitude bits `m`. -/
def pack (neg : Bool) (m : Nat) : Num32 := BitVec.ofNat 32 (if neg then 2 ^ 31 + m else m)

/-- The magnitude bits of the binary32 nearest to `num / den` units of 2^-149, ties to even; 0x7F800000
(infinity) on overflow. `sh` is how far the unit in the last place lies above 2^-149; a rounding that
carries into the next binade is taken up by the sum. -/
def roundMag (num den : Nat) : Nat :=
  let sh := Nat.log2 (num / den) - 23
  let d := den * 2 ^ sh
  let t := num / d
  let r := num % d
  let t' := if 2 * r > d ∨ (2 * r = d ∧ t % 2 = 1) then t + 1 else t
  min (sh * 2 ^ 23 + t') 0x7F800000

def posZero : Num32 := 0x00000000#32
def negZero : Num32 := 0x80000000#32
def one : Num32 := 0x3F800000#32
def infinity (neg : Bool) : Num32 := pack neg 0x7F800000

/-- A quiet NaN whose sign and payload are free (log 7). -/
def nan (a b : Num32) : Num32 := Config.freeNaN a b ||| 0x7FC00000#32

def neg (x : Num32) : Num32 := x ^^^ 0x80000000#32

/-- `a + b` (R8). An exact zero sum is +0.0 unless both operands are -0.0. -/
def add (a b : Num32) : Num32 :=
  if isNaN a || isNaN b then nan a b
  else if isFinite a then
    if isFinite b then
      let n := toInt a + toInt b
      if n = 0 then (if sign a && sign b then negZero else posZero)
      else pack (decide (n < 0)) (roundMag n.natAbs 1)
    else b
  else if isFinite b || sign a == sign b then a
  else nan a b

/-- `a - b` (R8). -/
def sub (a b : Num32) : Num32 := if isNaN b then nan a b else add a (neg b)

/-- `a × b` (R8). -/
def mul (a b : Num32) : Num32 :=
  if isNaN a || isNaN b then nan a b
  else if isFinite a && isFinite b then pack (sign a ^^ sign b) (roundMag (mag a * mag b) (2 ^ 149))
  else if isZero a || isZero b then nan a b
  else infinity (sign a ^^ sign b)

/-- `a / b` (R8). -/
def div (a b : Num32) : Num32 :=
  if isNaN a || isNaN b then nan a b
  else if isFinite a then
    if isZero b then (if isZero a then nan a b else infinity (sign a ^^ sign b))
    else if isFinite b then pack (sign a ^^ sign b) (roundMag (mag a * 2 ^ 149) (mag b))
    else pack (sign a ^^ sign b) 0
  else if isFinite b then infinity (sign a ^^ sign b)
  else nan a b

/-- `num(n)`: the Num32 nearest to the integer n (R8). -/
def ofNat (n : Nat) : Num32 := pack false (roundMag (n * 2 ^ 149) 1)

/-- `floor(x)` for finite x: the largest integer at most x (R8). -/
def floor (x : Num32) : Int := toInt x / 2 ^ 149

/-- `fmod(x, y)`: the exact remainder toward zero, with the sign of x (R8). -/
def fmod (x y : Num32) : Num32 :=
  if isNaN x || isNaN y || !isFinite x || isZero y then nan x y
  else if isFinite y then pack (sign x) (roundMag (mag x % mag y) 1)
  else x

/-- IEEE comparison `a < b`: false when either is NaN; the two zeros are equal. -/
def lt (a b : Num32) : Bool := !isNaN a && !isNaN b && decide (toInt a < toInt b)

/-- IEEE comparison `a ≤ b`. -/
def le (a b : Num32) : Bool := !isNaN a && !isNaN b && decide (toInt a ≤ toInt b)

/-- IEEE comparison `a == b`. -/
def eq (a b : Num32) : Bool := !isNaN a && !isNaN b && decide (toInt a = toInt b)

/-- `min(a, b)` of finite values (R8). -/
def min (a b : Num32) : Num32 := if lt a b then a else b

/-- `max(a, b)` of finite values (R8). Of two zeros it gives the second: so `max(-0.0, 0.0)` is +0.0, which
is what R146 asks of an amplitude of 0 ("If amp = 0, y is +0.0"). DEDUCED, log 8, safe. -/
def max (a b : Num32) : Num32 := if lt b a then a else b

/-- `clamp01(x) = min(max(x, 0.0), 1.0)` (R8); of a value that is not finite, a free value that R197 keeps
in [0, 1] (log 8). -/
def clamp01 (x : Num32) : Num32 :=
  if isFinite x then min (max x posZero) one
  else BitVec.ofNat 32 (Config.freeAmplitude x % 0x3F800001)

/-- The value as a rational, of a finite number (R9). -/
def toRat (x : Num32) : ℚ := (toInt x : ℚ) / 2 ^ 149

end Sys2Proof.Machine.F32
end

