-- ==== Sys2Proof/Machine/Checks.lean ====
section
/-! DEFINITION. The checks a definition must pass before a voice may be built from it: TABLE_CHECK
(44_engine.md R226) and ENV_CHECK (43_envelope.md R191), as plain tests. Which fault a failed check raises
is ROM_VALIDATE's (`Sys2Proof/Machine/Ops.lean`). -/

namespace Sys2Proof.Machine

/-- TABLE_CHECK (R226): a length of 1 to L_MAX and every sample below 2^B. -/
def tableOk (t : List Nat) : Bool :=
  t.length != 0 && decide (t.length ≤ Config.lMax) && t.all (fun v => decide (v < 2 ^ Config.waveBits))

/-- The time of one stage (R191): finite, not negative (-0.0 counts as 0), and at most N_MAX ticks at `fs`. -/
def stageTimeOk (t fs : Num32) : Bool :=
  F32.isFinite t && !F32.lt t F32.posZero &&
    F32.isFinite (F32.mul t fs) && decide (F32.floor (F32.mul t fs) ≤ (Config.nMax : Int))

/-- A sustain level: finite and in [0, 1] (R190, R191). -/
def sustainOk (x : Num32) : Bool := F32.isFinite x && F32.le F32.posZero x && F32.le x F32.one

/-- ENV_CHECK (R191). -/
def envOk (d : EnvelopeDefinition) (fs : Num32) : Bool :=
  stageTimeOk d.attackTime fs && stageTimeOk d.decayTime fs && stageTimeOk d.releaseTime fs &&
    sustainOk d.sustainLevel

end Sys2Proof.Machine
end

