-- ==== Sys2Proof/Syntax.lean ====
section
/-! DEFINITION. The operations of the GSC, one constructor per row of spec/opcode_table.json
(30_encoding.md R93, R97), and the two lists of operations that have a word. -/

namespace Sys2Proof

/-- The agents that write a port (R6, R293). The rollback session's calls execute as Producer steps. -/
inductive Agent
  | producer
  | callback
  | editor
  deriving DecidableEq, Repr

/-- The oscillator or envelope a directly driven micro-operation works on: that of the wavetable voice on a
channel (`operator = none`), or of one operator of the FM voice there. DESIGN CHOICE, log 15, safe. -/
structure UnitRef where
  channel  : Byte
  operator : Option (Fin 4)
  deriving DecidableEq, Repr, Inhabited

/-- The commands of the command port: the range of `decode_cmd` (R94). -/
inductive Command
  | pressed (note instrument channel : Byte)
  | released (channel : Byte)
  | trigger (note instrument channel : Byte)
  | romChanged (slot : BitVec 24)
  deriving DecidableEq, Repr

/-- The operations of the control port: the range of `decode_ctl` (R95). -/
inductive Control
  | renderFrame (count : BitVec 24)
  | snapshot
  | restore
  | producerStep
  | callbackPull (count : BitVec 24)
  | stop
  deriving DecidableEq, Repr

/-- One constructor per row of the opcode table. Operand order is R98's for the words and the spec's own
for the micro-operations. An operand the spec calls an oscillator, an envelope or a voice in place is a
reference; every other operand is a value. -/
inductive Instr
  -- command words (R228, R231, R230, R232)
  | pianoKeyPressed (note instrument channel : Byte)
  | pianoKeyReleased (channel : Byte)
  | triggerNote (note instrument channel : Byte)
  | soundRomInstanceChanged (slot : BitVec 24)
  -- control words (R237, R244, R245, R261, R264, R247)
  | renderFrame (count : BitVec 24)
  | snapshot
  | restore
  | producerStep
  | callbackPull (count : BitVec 24)
  | stop
  -- the Editor's port write (R222)
  | enqueue (w : Word)
  -- micro-operations (R97)
  | setFrequency (osc : UnitRef) (hz : Num32)
  | wrap (x : Num32) (len : Nat)
  | oscTick (osc : UnitRef)
  | lerp (table : List Nat) (q : Num32)
  | voiceTick (channel : Byte)
  | fmTick (channel : Byte)
  | envBuild (defn : EnvelopeDefinition) (fs : Num32)
  | envTick (env : UnitRef) (active : ActiveState)
  | romValidate (rom : RomInstance) (slot : BitVec 24)
  | voiceNew (entry : Instrument) (note : Byte) (active : ActiveState)
  | drain
  | mixTick
  | nextSample
  deriving DecidableEq, Repr

/-- The operation a command is. -/
def Command.toInstr : Command → Instr
  | .pressed n i c => .pianoKeyPressed n i c
  | .released c => .pianoKeyReleased c
  | .trigger n i c => .triggerNote n i c
  | .romChanged s => .soundRomInstanceChanged s

/-- The operation a control word is. -/
def Control.toInstr : Control → Instr
  | .renderFrame n => .renderFrame n
  | .snapshot => .snapshot
  | .restore => .restore
  | .producerStep => .producerStep
  | .callbackPull n => .callbackPull n
  | .stop => .stop

/-- The one agent that may issue a control operation (R93, R95). -/
def Control.agent : Control → Agent
  | .callbackPull _ => .callback
  | .renderFrame _ => .producer
  | .snapshot => .producer
  | .restore => .producer
  | .producerStep => .producer
  | .stop => .producer

end Sys2Proof
end

