-- ==== Sys2Proof/WellFormed.lean ====
section
/-! DEFINITION. Which operations, and which construction inputs, the spec speaks of. A word's fields are
exactly their widths, so an operation that has a word is well formed whatever its operands (R92: a channel,
an instrument or a slot out of range is a fault, not an encoding error). A check is needed only for the
operands a micro-operation takes as values. -/

namespace Sys2Proof

/-- An instrument entry that ROM_VALIDATE accepts but for its envelopes' FS (R226, R229: VOICE_NEW's operand
is an entry of a validated ROM). -/
def Instrument.wf : Instrument → Bool
  | .wt d => Machine.tableOk d.data
  | .fm d => decide (d.algorithm.toNat ≤ 11) && Machine.tableOk d.op.o0.table &&
      Machine.tableOk d.op.o1.table && Machine.tableOk d.op.o2.table && Machine.tableOk d.op.o3.table

/-- Well-formedness of an operation. -/
def Instr.wf : Instr → Bool
  | .pianoKeyPressed _ _ _ => true
  | .pianoKeyReleased _ => true
  | .triggerNote _ _ _ => true
  | .soundRomInstanceChanged _ => true
  | .renderFrame _ => true
  | .snapshot => true
  | .restore => true
  | .producerStep => true
  | .callbackPull _ => true
  | .stop => true
  | .enqueue _ => true
  | .setFrequency _ _ => true
  -- R122: "L, an integer with 1 ≤ L ≤ 2^24"
  | .wrap _ len => decide (1 ≤ len) && decide (len ≤ Config.lMax)
  | .oscTick _ => true
  -- R141: T is wavetable data (R61)
  | .lerp table _ => Machine.tableOk table
  | .voiceTick _ => true
  | .fmTick _ => true
  -- R192: "a definition that ENV_CHECK accepted"
  | .envBuild d fs => Machine.envOk d fs
  | .envTick _ _ => true
  -- R64, D20: an instance has at most 256 entries
  | .romValidate rom _ => decide (rom.length ≤ Config.countMax)
  -- R229: "active, On or Trigger", and D validated
  | .voiceNew entry _ active => entry.wf && active != .Off
  | .drain => true
  | .mixTick => true
  | .nextSample => true

/-- The one canonical form of a ROM store: slot ids strictly rising, so that equal stores are equal data. -/
abbrev RomStore.wf (r : RomStore) : Prop := r.Pairwise (fun a b => a.1.toNat < b.1.toNat)

/-- The parameters' ranges (R5), instances of NUM_INSTRUMENTS entries (R64), finite note frequencies (R5). -/
abbrev Params.wf (p : Params) : Prop :=
  1 ≤ p.numChannels ∧ p.numChannels ≤ Config.countMax ∧
  1 ≤ p.numInstruments ∧ p.numInstruments ≤ Config.countMax ∧
  RomStore.wf p.roms ∧
  (∀ r ∈ p.roms, r.2.length = p.numInstruments) ∧
  (∀ r ∈ p.noteHz.rows, Machine.F32.isFinite r.hz = true) ∧
  Machine.F32.isFinite p.noteHz.default = true

end Sys2Proof
end

