-- ==== Sys2Proof/Decode.lean ====
section
/-! DEFINITION. The two decoders (30_encoding.md R94, R95), total on 32-bit words: `none` is BAD_COMMAND
(R96). After them the encoder, from the same rows of R93, and the transport of a word as four bytes (R67). -/

namespace Sys2Proof

/-! ## Fields (R91, R92) -/

/-- OPC, bits [31:24]. -/
def opc (w : Word) : Byte := w.extractLsb' 24 8
/-- CH, bits [23:16]. -/
def fieldCh (w : Word) : Byte := w.extractLsb' 16 8
/-- INST, bits [15:8]. -/
def fieldInst (w : Word) : Byte := w.extractLsb' 8 8
/-- NOTE, bits [7:0]. -/
def fieldNote (w : Word) : Byte := w.extractLsb' 0 8
/-- RSV of format C, bits [15:0]. -/
def fieldRsv (w : Word) : BitVec 16 := w.extractLsb' 0 16
/-- IMM of format I, bits [23:0]. -/
def fieldImm (w : Word) : BitVec 24 := w.extractLsb' 0 24

/-! ## Decoders -/

/-- `decode_cmd` (R94). `none`: the word raises BAD_COMMAND. -/
def decodeCmd (w : Word) : Option Command :=
  if opc w = 0x01#8 then some (.pressed (fieldNote w) (fieldInst w) (fieldCh w))
  else if opc w = 0x02#8 then (if fieldRsv w = 0#16 then some (.released (fieldCh w)) else none)
  else if opc w = 0x03#8 then some (.trigger (fieldNote w) (fieldInst w) (fieldCh w))
  else if opc w = 0x04#8 then some (.romChanged (fieldImm w))
  else none

/-- `decode_ctl` (R95) but for its agent check, which is `Control.agent`'s. `none`: the word raises BAD_COMMAND. -/
def decodeCtl (w : Word) : Option Control :=
  if opc w = 0x10#8 then some (.renderFrame (fieldImm w))
  else if opc w = 0x11#8 then (if fieldImm w = 0#24 then some .snapshot else none)
  else if opc w = 0x12#8 then (if fieldImm w = 0#24 then some .restore else none)
  else if opc w = 0x13#8 then (if fieldImm w = 0#24 then some .producerStep else none)
  else if opc w = 0x14#8 then some (.callbackPull (fieldImm w))
  else if opc w = 0x15#8 then (if fieldImm w = 0#24 then some .stop else none)
  else none

/-- The operation a word stands for on the port that has its opcode. The two ports share no opcode (R93). -/
def decodeWord (w : Word) : Option Instr :=
  match decodeCmd w with
  | some c => some c.toInstr
  | none => (decodeCtl w).map Control.toInstr

/-! ## Encoder (R91, R93, R98) -/

/-- A word of format N. -/
def wordN (op ch inst note : Byte) : Word := op ++ ch ++ inst ++ note
/-- A word of format C. -/
def wordC (op ch : Byte) : Word := op ++ ch ++ 0#16
/-- A word of format I. -/
def wordI (op : Byte) (imm : BitVec 24) : Word := op ++ imm

/-- The word of a command. -/
def encodeCmd : Command → Word
  | .pressed note inst ch => wordN 0x01#8 ch inst note
  | .released ch => wordC 0x02#8 ch
  | .trigger note inst ch => wordN 0x03#8 ch inst note
  | .romChanged slot => wordI 0x04#8 slot

/-- The word of a control operation. -/
def encodeCtl : Control → Word
  | .renderFrame count => wordI 0x10#8 count
  | .snapshot => wordI 0x11#8 0#24
  | .restore => wordI 0x12#8 0#24
  | .producerStep => wordI 0x13#8 0#24
  | .callbackPull count => wordI 0x14#8 count
  | .stop => wordI 0x15#8 0#24

/-- The word of an operation; `none` for ENQUEUE, whose port write is any word, and for the
micro-operations, which have no encoding (R97). -/
def encode : Instr → Option Word
  | .pianoKeyPressed note inst ch => some (encodeCmd (.pressed note inst ch))
  | .pianoKeyReleased ch => some (encodeCmd (.released ch))
  | .triggerNote note inst ch => some (encodeCmd (.trigger note inst ch))
  | .soundRomInstanceChanged slot => some (encodeCmd (.romChanged slot))
  | .renderFrame count => some (encodeCtl (.renderFrame count))
  | .snapshot => some (encodeCtl .snapshot)
  | .restore => some (encodeCtl .restore)
  | .producerStep => some (encodeCtl .producerStep)
  | .callbackPull count => some (encodeCtl (.callbackPull count))
  | .stop => some (encodeCtl .stop)
  | .enqueue _ => none
  | .setFrequency _ _ => none
  | .wrap _ _ => none
  | .oscTick _ => none
  | .lerp _ _ => none
  | .voiceTick _ => none
  | .fmTick _ => none
  | .envBuild _ _ => none
  | .envTick _ _ => none
  | .romValidate _ _ => none
  | .voiceNew _ _ _ => none
  | .drain => none
  | .mixTick => none
  | .nextSample => none

/-! ## Transport (R67) -/

/-- A word as four bytes, bits [7:0] first. -/
def bytesOfWord (w : Word) : List Byte :=
  [w.extractLsb' 0 8, w.extractLsb' 8 8, w.extractLsb' 16 8, w.extractLsb' 24 8]

/-- The word at the head of a transport, and the bytes after it; `none` when fewer than four are left. -/
def wordOfBytes : List Byte → Option (Word × List Byte)
  | b0 :: b1 :: b2 :: b3 :: rest => some (b3 ++ b2 ++ b1 ++ b0, rest)
  | _ => none

/-- The operation at the head of a transport, and the bytes after it. -/
def decodeBytes (bs : List Byte) : Option (Instr × List Byte) :=
  match wordOfBytes bs with
  | some (w, rest) => (decodeWord w).map (fun i => (i, rest))
  | none => none

/-- What the decoder reads from a table row's bits `w`, numbered as the table numbers them, laid out as the
transport carries them. A word has 32 bits and no other length (R90). -/
def decodeTableWord (nbits w : Nat) : Option Instr :=
  if nbits ≤ 32 then
    (decodeBytes (bytesOfWord (BitVec.ofNat 32 (w % 2 ^ nbits)))).map (fun p => p.1)
  else none

end Sys2Proof
end

