-- ==== Sys2Proof/Machine/State.lean ====
section
/-! DEFINITION. The state of the GSC (10_state.md), all of it, as plain data; why a step stops; the state
right after a reset (70_reset_and_hazards.md R311). -/

namespace Sys2Proof.Machine

/-! ## Voices -/

/-- `Stage` (R23). Encodings 5 to 7 are never held. -/
inductive Stage
  | idle
  | attack
  | decay
  | sustain
  | release
  deriving DecidableEq, Repr, Inhabited

/-- An oscillator (R24). -/
structure Osc where
  phase : Num32
  freq  : Num32
  inc   : Num32
  len   : Nat
  fs    : Num32
  deriving DecidableEq, Repr, Inhabited

/-- An envelope instance (R25). K and the stage lengths are u32. -/
structure Env where
  stage : Stage
  k     : BitVec 32
  level : Num32
  start : Num32
  na    : BitVec 32
  nd    : BitVec 32
  nr    : BitVec 32
  sus   : Num32
  deriving DecidableEq, Repr, Inhabited

/-- A wavetable voice (R26). DEF is shared and immutable in the hardware, so holding it by value cannot be
told apart (R77, R148; DEDUCED, log 16, safe). -/
structure WaveVoice where
  defn   : WavetableDefinition
  osc    : Osc
  env    : Env
  active : ActiveState
  deriving DecidableEq, Repr, Inhabited

/-- An FM operator (R28). -/
structure FMOperator where
  osc   : Osc
  env   : Env
  depth : Num32
  table : List Nat
  deriving DecidableEq, Repr, Inhabited

/-- An FM voice (R27). -/
structure FMVoice where
  defn   : FMDefinition
  alg    : Fin 12
  op     : Quad FMOperator
  active : ActiveState
  deriving DecidableEq, Repr, Inhabited

/-- A channel slot (R29). -/
inductive Channel
  | empty
  | wt (v : WaveVoice)
  | fm (v : FMVoice)
  deriving DecidableEq, Repr, Inhabited

/-- `SoundEngineData` (R36): what SNAPSHOT copies and RESTORE replaces. `ch` has NUM_CHANNELS slots. -/
structure SoundEngineData where
  ch    : List Channel
  romId : BitVec 24
  rom   : RomInstance
  fs    : Num32
  deriving DecidableEq, Repr, Inhabited

/-! ## Faults and events -/

/-- The fault causes (R281), in the order of their codes 0x01 to 0x08. -/
inductive Cause
  | badCommand
  | badChannel
  | badInstrument
  | badRomSlot
  | badAlgorithm
  | badEnvelope
  | badTable
  | badDepth
  deriving DecidableEq, Repr

/-- What a fault records (R281, D49): a command fault the 32-bit word, a ROM fault (slot, instrument,
operator or 0xFF). -/
inductive FaultInfo
  | word (w : Word)
  | rom (slot : BitVec 24) (instrument operator : Nat)
  deriving DecidableEq, Repr

/-- A fault as it is raised and logged (R282). -/
structure FaultRecord where
  cause : Cause
  info  : FaultInfo
  deriving DecidableEq, Repr

/-- The non-fatal status events (R286). -/
inductive StatusCode
  | starved
  | noNextFrame
  deriving DecidableEq, Repr

/-- An entry of LOG (R32, R282, R286). A status event's info is none. -/
inductive Event
  | fault (f : FaultRecord)
  | status (c : StatusCode)
  deriving DecidableEq, Repr

/-! ## Frame pipeline and ports -/

/-- A frame buffer: the samples rendered for one frame, in ascending index (R34, R66). -/
abbrev Frame := List Num32

/-- The current buffer (R35): BUF and RD, the index of the next sample to emit. -/
structure CurBuffer where
  buf : Frame
  rd  : Nat
  deriving DecidableEq, Repr, Inhabited

/-- What PRODUCER_STEP returns (R261). -/
inductive ProducerResult
  | stopped
  | deferred
  | produced
  deriving DecidableEq, Repr

/-- The value the last step returned on its port; `none` for a step that returns nothing (R90, R237, R244,
R261, R264, and the micro-operations' own results). No operation reads it. DESIGN CHOICE, log 13, safe. -/
inductive StepResult
  | none
  | num (x : Num32)
  | frame (b : Frame)
  | samples (o : List Num32)
  | data (d : SoundEngineData)
  | producer (r : ProducerResult)
  | env (e : Env)
  | slot (c : Channel)
  deriving DecidableEq, Repr

/-- One step an agent takes (R6, R70, R90). DESIGN CHOICE, log 1 and 2, safe. -/
inductive PortEvent
  /-- The Editor writes a word to the command port: the ENQUEUE step (R222). -/
  | command (w : Word)
  /-- An agent writes a word to the control port. With its RESTORE word the Producer may bring a value of its own to
  the state-save port (R90, R245); what stands beside any other word is not taken (`portValue`). -/
  | control (a : Agent) (w : Word) (save : Option SoundEngineData)
  /-- APPLY(w) of a drain (R234), for one word alone. -/
  | apply (w : Word)
  /-- A test drives one operation directly (R97). -/
  | drive (i : Instr)
  deriving DecidableEq, Repr

/-! ## The state -/

/-- The whole state of the machine. -/
structure State where
  /-- NUM_CHANNELS, NUM_INSTRUMENTS, ALG_TABLE, NOTE_HZ, ROMS, ROM0 (R5, R310): no step writes them. -/
  params   : Params
  /-- CH, ROM_ID, ROM and FS (R29, R31, R36). -/
  engine   : SoundEngineData
  /-- STOP (R31). -/
  stop     : Bool
  /-- FAULT (R32): bit n is the cause of code n + 1. -/
  fault    : BitVec 8
  /-- LOG (R32), oldest first. -/
  log      : List Event
  /-- REFUSED (R32, R290): model only; see `State.afterRefusal` (log 10). -/
  refused  : Bool
  /-- CMDQ (R33), head first. -/
  cmdq     : List Word
  /-- OUTQ (R34), head first. -/
  outq     : List Frame
  /-- CUR (R35). -/
  cur      : Option CurBuffer
  /-- The SoundEngineData value on the state-save port (R90): SNAPSHOT's, or one the Producer brought with a RESTORE. -/
  savePort : SoundEngineData
  /-- The value the last step returned. -/
  result   : StepResult
  /-- The last copy offered to the visualization tap (R300). -/
  tap      : Option Frame
  /-- The model's own: the steps the agents take next, in their total order (R70; log 1). -/
  inputs   : List PortEvent
  deriving DecidableEq, Repr

/-! ## Why a step stops -/

/-- What would stop the machine. The GSC has nothing of the kind: raising one of its faults records it and
goes on (R282), so a fault of the spec is a next state and this type has no constructor (log 18). -/
inductive Fault
  deriving DecidableEq, Repr

/-- A step to which the model gives no meaning (R290). Each is safe (the model has fewer runs), but for
`nonfiniteInput`, of which R290 says that a claim carries a finite-input premise. -/
inductive Refusal
  /-- An operation that is not modelled, by its mnemonic. No arm answers it. Safe. -/
  | notModelled (mnemonic : String)
  /-- NONFINITE_INPUT (R290): raised by SET_FREQUENCY, WRAP, OSC_TICK, FM_TICK. Unsafe only as R290 says. -/
  | nonfiniteInput
  /-- WRONG_CONTEXT (R95, R290): raised by the control-port decode. Safe. -/
  | wrongContext
  /-- RESTORE_MISMATCH (R245, R290): raised by RESTORE. Safe. -/
  | restoreMismatch
  /-- BAD_CONSTRUCTION (R290, R291): raised by `construct`, the reset. Safe. -/
  | badConstruction
  /-- INDEX_RANGE (R62, R141, R290): raised by LERP for an index outside [0, L). Safe. -/
  | indexRange
  /-- The model's own: VOICE_NEW driven directly with an algorithm above 11, which R166 says never builds a
  voice. Safe, log 14. -/
  | algorithmRange
  /-- The model's own: a micro-operation driven directly names a voice or an operator that is not there.
  Safe, log 15. -/
  | absentOperand
  deriving DecidableEq, Repr

/-! ## Reset -/

/-- The state right after a successful reset (R311) with the construction inputs `p`, FS `fs` and
ROMS[ROM0] `rom`. -/
def State.initial (p : Params) (fs : Num32) (rom : RomInstance) : State where
  params := p
  engine := { ch := List.replicate p.numChannels .empty, romId := p.rom0, rom := rom, fs := fs }
  stop := false
  fault := 0
  log := []
  refused := false
  cmdq := []
  outq := []
  cur := none
  savePort := { ch := List.replicate p.numChannels .empty, romId := p.rom0, rom := rom, fs := fs }
  result := .none
  tap := none
  inputs := []

/-- The machine right after reset (R311), for the construction inputs of `Config` (DESIGN CHOICE, log 4, unsafe). -/
def State.reset : State := State.initial Config.params Config.resetFs Config.resetRom

end Sys2Proof.Machine
end

