-- ==== Sys2Proof/Machine/Flags.lean ====
section
/-! DEFINITION. The numbers the spec gives to names: fault causes and their FAULT bits (R32, R281), status
events (R286), ActiveState (R22), Stage (R23); and the one flag a tick writes, ACTIVE (R147, R175). -/

namespace Sys2Proof.Machine

/-- The cause code (R281). -/
def causeCode : Cause → Nat
  | .badCommand => 0x01
  | .badChannel => 0x02
  | .badInstrument => 0x03
  | .badRomSlot => 0x04
  | .badAlgorithm => 0x05
  | .badEnvelope => 0x06
  | .badTable => 0x07
  | .badDepth => 0x08

/-- The FAULT register with only the bit of a cause set: bit n is code n + 1 (R32). -/
def causeBit (c : Cause) : BitVec 8 := 1#8 <<< (causeCode c - 1)

/-- The status event code (R286). -/
def statusCode : StatusCode → Nat
  | .starved => 0x80
  | .noNextFrame => 0x81

/-- The encoding of ActiveState (R22). -/
def activeCode : ActiveState → BitVec 2
  | .Off => 0
  | .On => 1
  | .Trigger => 2

/-- The encoding of Stage (R23). -/
def stageCode : Stage → BitVec 3
  | .idle => 0
  | .attack => 1
  | .decay => 2
  | .sustain => 3
  | .release => 4

/-- ACTIVE at the end of a tick (R147, R175): Trigger becomes Off, nothing else changes. -/
def activeAfterTick : ActiveState → ActiveState
  | .Off => .Off
  | .On => .On
  | .Trigger => .Off

end Sys2Proof.Machine
end

