-- ==== Sys2Proof/Machine/Operands.lean ====
section
/-! DEFINITION. How an operation reaches what it works on: the five index spaces (20_memory.md R60), the
parameters that are read by index (R5, R166), and the oscillators, envelopes and voices a micro-operation
names. -/

namespace Sys2Proof.Machine

/-! ## Index spaces -/

/-- `TableRead(T, i)` (R62). -/
def tableRead (t : List Nat) (i : Nat) : Except Refusal Nat :=
  match t[i]? with
  | some v => .ok v
  | none => .error .indexRange

/-- `ROMS[slot]` (R60). -/
def romAt (roms : RomStore) (slot : BitVec 24) : Option RomInstance :=
  (roms.find? (fun e => e.1 == slot)).map (fun e => e.2)

/-- `rom.INSTR[n]`; an entry an instance does not list holds None (log 19). -/
def romEntry (rom : RomInstance) (n : Nat) : Option Instrument := rom.getD n none

/-- The instrument a command names: `none` if the index is NUM_INSTRUMENTS or above, or the entry is None
(R92, R228). -/
def instrumentAt (s : State) (n : Nat) : Option Instrument :=
  if n < s.params.numInstruments then romEntry s.engine.rom n else none

/-- `CH[c]` (R60): `none` outside the array. -/
def channelAt (d : SoundEngineData) (c : Nat) : Option Channel := d.ch[c]?

/-- `CH[c] <- v`. -/
def setChannel (d : SoundEngineData) (c : Nat) (v : Channel) : SoundEngineData :=
  { d with ch := d.ch.set c v }

/-! ## Parameters -/

/-- `NOTE_HZ(entry, operator option, note)` (R5, R229). -/
def noteHz (t : NoteTable) (entry : Instrument) (op : Option (Fin 4)) (note : Byte) : Num32 :=
  match t.rows.find? (fun r => r.entry == entry && r.op == op && r.note == note) with
  | some r => r.hz
  | none => t.default

/-- Algorithm 0, "serial A→B→C→D" (R163). -/
def algSerial : AlgorithmDefinition where
  carriers := { o0 := false, o1 := false, o2 := false, o3 := true }
  m1 := .single 0
  m2 := .single 1
  m3 := .single 2

/-- Algorithm 11, "four independent carriers" (R164). -/
def algIndependent : AlgorithmDefinition where
  carriers := { o0 := true, o1 := true, o2 := true, o3 := true }
  m1 := .none
  m2 := .none
  m3 := .none

/-- `ALGDEF(n)` for 0 ≤ n ≤ 11 (R166); the vector is ALG_TABLE[1..10]. -/
def algDef (table : Vector AlgorithmDefinition 10) (n : Fin 12) : AlgorithmDefinition :=
  if _h0 : n.val = 0 then algSerial
  else if _h11 : n.val = 11 then algIndependent
  else table[n.val - 1]

/-! ## Four operators -/

/-- Component `i` of four. -/
def quadGet {α : Type} (q : Quad α) (i : Fin 4) : α :=
  match i with
  | 0 => q.o0
  | 1 => q.o1
  | 2 => q.o2
  | 3 => q.o3

/-- Four with component `i` replaced. -/
def quadSet {α : Type} (q : Quad α) (i : Fin 4) (v : α) : Quad α :=
  match i with
  | 0 => { q with o0 := v }
  | 1 => { q with o1 := v }
  | 2 => { q with o2 := v }
  | 3 => { q with o3 := v }

/-! ## What a directly driven micro-operation names (log 15) -/

/-- The oscillator a reference names, if it is there. -/
def oscOf (r : UnitRef) (d : SoundEngineData) : Option Osc :=
  match channelAt d r.channel.toNat, r.operator with
  | some (.wt v), none => some v.osc
  | some (.fm v), some i => some (quadGet v.op i).osc
  | _, _ => none

/-- The channel array with the named oscillator replaced; unchanged if it is not there. -/
def setOsc (r : UnitRef) (o : Osc) (d : SoundEngineData) : SoundEngineData :=
  match channelAt d r.channel.toNat, r.operator with
  | some (.wt v), none => setChannel d r.channel.toNat (.wt { v with osc := o })
  | some (.fm v), some i =>
    setChannel d r.channel.toNat (.fm { v with op := quadSet v.op i { quadGet v.op i with osc := o } })
  | _, _ => d

/-- The envelope a reference names, if it is there. -/
def envOf (r : UnitRef) (d : SoundEngineData) : Option Env :=
  match channelAt d r.channel.toNat, r.operator with
  | some (.wt v), none => some v.env
  | some (.fm v), some i => some (quadGet v.op i).env
  | _, _ => none

/-- The channel array with the named envelope replaced; unchanged if it is not there. -/
def setEnv (r : UnitRef) (e : Env) (d : SoundEngineData) : SoundEngineData :=
  match channelAt d r.channel.toNat, r.operator with
  | some (.wt v), none => setChannel d r.channel.toNat (.wt { v with env := e })
  | some (.fm v), some i =>
    setChannel d r.channel.toNat (.fm { v with op := quadSet v.op i { quadGet v.op i with env := e } })
  | _, _ => d

/-- The wavetable voice on a channel, if one is there. -/
def waveVoiceOf (c : Byte) (d : SoundEngineData) : Option WaveVoice :=
  match channelAt d c.toNat with
  | some (.wt v) => some v
  | _ => none

/-- The FM voice on a channel, if one is there. -/
def fmVoiceOf (c : Byte) (d : SoundEngineData) : Option FMVoice :=
  match channelAt d c.toNat with
  | some (.fm v) => some v
  | _ => none

end Sys2Proof.Machine
end

