-- ==== Sys2Proof/Machine/Ops.lean ====
section
/-! DEFINITION. The operations the meanings share, each written from its rule's pseudocode. An operation that
can refuse (60_exceptions.md R290) answers `Except Refusal`; a fault is no error there, since raising one is
a write to the state after which control continues (R282). -/

namespace Sys2Proof.Machine

/-! ## Faults, events, refusals (60_exceptions.md) -/

/-- `raise Fault(cause, info)` (R282): sets the sticky bit, appends the event, and does nothing else. The
operation that raises it makes no other write (R283). There is no vector, handler or saved state. -/
def raiseFault (f : FaultRecord) (s : State) : State :=
  { s with fault := s.fault ||| causeBit f.cause, log := s.log ++ [.fault f] }

/-- `log(code, none)` (R286): appends a status event; no FAULT bit, nothing rejected. -/
def logStatus (c : StatusCode) (s : State) : State :=
  { s with log := s.log ++ [.status c] }

/-- The mark a refused step leaves (R32, R290). A refused step has no successor; this is the record of it. -/
def markRefused (s : State) : State := { s with refused := true }

/-- The outcome of a meaning: the state `k` makes of what an operation answered, or its refusal. -/
def answer {α : Type} (r : Except Refusal α) (k : α → State) : Host.Outcome State Fault Refusal :=
  match r with
  | .ok a => .next (k a)
  | .error e => .refused e

/-- What a directly driven micro-operation works on, which must be there (log 15). -/
def operand {α : Type} (o : Option α) : Except Refusal α :=
  match o with
  | some a => .ok a
  | none => .error .absentOperand

/-- A word the control port or a drain does not decode: BAD_COMMAND, the word ignored, the step ended (R96, R282). -/
def rejectWord (f : FaultRecord) (s : State) : State := { raiseFault f s with result := .none }

/-! ## Oscillator (40_oscillator.md) -/

/-- SET_FREQUENCY (R121): writes FREQ and INC, never PHASE. -/
def setFrequency (o : Osc) (hz : Num32) : Except Refusal Osc :=
  if F32.isFinite hz then
    let inc := F32.div (F32.mul (F32.ofNat o.len) hz) o.fs
    if F32.isFinite inc then .ok { o with freq := hz, inc := inc } else .error .nonfiniteInput
  else .error .nonfiniteInput

/-- WRAP's correction of a negative remainder (R122), one rounding. -/
def wrapLift (r l : Num32) : Num32 := if F32.lt r F32.posZero then F32.add r l else r

/-- WRAP's correction of a remainder that the rounding brought up to L (R122). -/
def wrapCap (r l : Num32) : Num32 := if F32.eq r l then F32.posZero else r

/-- WRAP's last step (R122): a zero of either sign is +0.0. -/
def wrapZero (r : Num32) : Num32 := if F32.eq r F32.posZero then F32.posZero else r

/-- WRAP of a finite x (R122). -/
def wrapFinite (x : Num32) (len : Nat) : Num32 :=
  wrapZero (wrapCap (wrapLift (F32.fmod x (F32.ofNat len)) (F32.ofNat len)) (F32.ofNat len))

/-- WRAP (R122). -/
def wrap (x : Num32) (len : Nat) : Except Refusal Num32 :=
  if F32.isFinite x then .ok (wrapFinite x len) else .error .nonfiniteInput

/-- OSC_TICK (R124): the phase from before the advance, and the oscillator after it. -/
def oscTick (o : Osc) : Except Refusal (Num32 × Osc) :=
  match wrap (F32.add o.phase o.inc) o.len with
  | .ok p => .ok (o.phase, { o with phase := p })
  | .error r => .error r

/-! ## Wavetable read (41_voice.md) -/

/-- The interpolation and dequantization of R141 between two entries `a` and `b`, with weight `f`. -/
def lerpValue (a b : Nat) (f : Num32) : Num32 :=
  F32.div (F32.add (F32.ofNat a) (F32.mul (F32.sub (F32.ofNat b) (F32.ofNat a)) f))
    (F32.ofNat Config.dequant)

/-- LERP (R141): refuses INDEX_RANGE for q outside [0, L). -/
def lerp (t : List Nat) (q : Num32) : Except Refusal Num32 :=
  if F32.le F32.posZero q && F32.lt q (F32.ofNat t.length) then
    let i := (F32.floor q).toNat
    match tableRead t i, tableRead t ((i + 1) % t.length) with
    | .ok a, .ok b => .ok (lerpValue a b (F32.sub q (F32.ofNat i)))
    | .error r, _ => .error r
    | .ok _, .error r => .error r
  else .error .indexRange

/-! ## Envelope (43_envelope.md) -/

/-- The tick count of a stage (R192): max(1, floor(t × FS)); free where ENV_CHECK would have rejected the
product (log 9), within the legal range of R25. -/
def stageTicks (t fs : Num32) : BitVec 32 :=
  let p := F32.mul t fs
  if F32.isFinite p && decide (F32.floor p ≤ (Config.nMax : Int)) then
    BitVec.ofNat 32 (Nat.max 1 (F32.floor p).toNat)
  else BitVec.ofNat 32 (Config.freeStageTicks t fs % Config.nMax + 1)

/-- ENV_BUILD (R192). -/
def envBuild (d : EnvelopeDefinition) (fs : Num32) : Env where
  stage := .idle
  k := 0
  level := F32.posZero
  start := F32.posZero
  na := stageTicks d.attackTime fs
  nd := stageTicks d.decayTime fs
  nr := stageTicks d.releaseTime fs
  sus := d.sustainLevel

/-- The level RAMP writes at the k-th of n ticks, k below n (R194). -/
def rampLevel (start target : Num32) (k n : BitVec 32) : Num32 :=
  F32.add start (F32.div (F32.mul (F32.sub target start) (F32.ofNat k.toNat)) (F32.ofNat n.toNat))

/-- RAMP (R194). -/
def ramp (e : Env) (target : Num32) (n : BitVec 32) (next : Stage) (nextStart : Num32) : Env :=
  if e.k + 1 = n then { e with level := target, stage := next, k := 0, start := nextStart }
  else { e with k := e.k + 1, level := rampLevel e.start target (e.k + 1) n }

/-- Step 1 of ENV_TICK, entry (R195, R196). -/
def envEnter (e : Env) (active : ActiveState) : Env :=
  match active, e.stage with
  | .Trigger, _ => { e with stage := .attack, k := 0, start := F32.posZero }
  | .On, .idle => { e with stage := .attack, k := 0, start := F32.posZero }
  | .On, .release => { e with stage := .attack, k := 0, start := F32.posZero }
  | .On, .attack => e
  | .On, .decay => e
  | .On, .sustain => e
  | .Off, .attack => { e with stage := .release, k := 0, start := e.level }
  | .Off, .decay => { e with stage := .release, k := 0, start := e.level }
  | .Off, .sustain => { e with stage := .release, k := 0, start := e.level }
  | .Off, .idle => e
  | .Off, .release => e

/-- Step 2 of ENV_TICK, advance (R195, R198). -/
def envAdvance (e : Env) : Env :=
  match e.stage with
  | .idle => { e with level := F32.posZero }
  | .attack => ramp e F32.one e.na .decay F32.one
  | .decay => ramp e e.sus e.nd .sustain e.sus
  | .sustain => { e with level := e.sus }
  | .release => ramp e F32.posZero e.nr .idle F32.posZero

/-- ENV_TICK (R195): the amplitude of this tick, and the envelope after it. LEVEL itself is not clamped (R197). -/
def envTick (e : Env) (active : ActiveState) : Num32 × Env :=
  let e' := envAdvance (envEnter e active)
  (F32.clamp01 e'.level, e')

/-! ## Wavetable voice (41_voice.md) -/

/-- VOICE_TICK (R146, R147). -/
def voiceTick (v : WaveVoice) : Except Refusal (Num32 × WaveVoice) :=
  match oscTick v.osc with
  | .error r => .error r
  | .ok (p, osc) =>
    match lerp v.defn.data p with
    | .error r => .error r
    | .ok y =>
      let (amp, env) := envTick v.env v.active
      .ok (F32.mul y amp, { v with osc := osc, env := env, active := activeAfterTick v.active })

/-! ## FM voice (42_fm.md) -/

/-- The output an index below `n` names. -/
def outAt {n : Nat} (out : Quad Num32) (a : Fin n) : Num32 :=
  match a.val with
  | 0 => out.o0
  | 1 => out.o1
  | 2 => out.o2
  | _ => out.o3

/-- MODSUM (R167): left to right, a repeated index once per mention. -/
def modSum {n : Nat} (e : ModulatedBy n) (out : Quad Num32) : Num32 :=
  match e with
  | .none => F32.posZero
  | .single a => outAt out a
  | .double a b => F32.add (outAt out a) (outAt out b)
  | .triple a b c => F32.add (F32.add (outAt out a) (outAt out b)) (outAt out c)

/-- One pass of FM_TICK's loop (R170) for an operator with modulation input `m`: its output, and the
operator after it. The base phase is not offset, only the read index (R127). -/
def operatorTick (op : FMOperator) (m : Num32) (active : ActiveState) : Except Refusal (Num32 × FMOperator) :=
  match oscTick op.osc with
  | .error r => .error r
  | .ok (p, osc) =>
    match wrap (F32.add p (F32.mul op.depth m)) osc.len with
    | .error r => .error r
    | .ok q =>
      let (amp, env) := envTick op.env active
      match lerp op.table q with
      | .error r => .error r
      | .ok y => .ok (F32.mul y amp, { op with osc := osc, env := env })

/-- The carrier sum (R171): ascending from +0.0, neither averaged nor clamped. -/
def carrierSum (c : Quad Bool) (out : Quad Num32) : Num32 :=
  let y0 := if c.o0 then F32.add F32.posZero out.o0 else F32.posZero
  let y1 := if c.o1 then F32.add y0 out.o1 else y0
  let y2 := if c.o2 then F32.add y1 out.o2 else y1
  if c.o3 then F32.add y2 out.o3 else y2

/-- The operator outputs at the start of FM_TICK (R170). -/
def outZero : Quad Num32 := { o0 := F32.posZero, o1 := F32.posZero, o2 := F32.posZero, o3 := F32.posZero }

/-- The loop of FM_TICK (R170): the four outputs, and the four operators after the tick, each operator
evaluated with the outputs computed before it. -/
def operatorsTick (a : AlgorithmDefinition) (ops : Quad FMOperator) (active : ActiveState) :
    Except Refusal (Quad Num32 × Quad FMOperator) :=
  match operatorTick ops.o0 F32.posZero active with
  | .error r => .error r
  | .ok (y0, p0) =>
    match operatorTick ops.o1 (modSum a.m1 { outZero with o0 := y0 }) active with
    | .error r => .error r
    | .ok (y1, p1) =>
      match operatorTick ops.o2 (modSum a.m2 { outZero with o0 := y0, o1 := y1 }) active with
      | .error r => .error r
      | .ok (y2, p2) =>
        match operatorTick ops.o3 (modSum a.m3 { outZero with o0 := y0, o1 := y1, o2 := y2 }) active with
        | .error r => .error r
        | .ok (y3, p3) =>
          .ok ({ o0 := y0, o1 := y1, o2 := y2, o3 := y3 }, { o0 := p0, o1 := p1, o2 := p2, o3 := p3 })

/-- FM_TICK (R170, R171, R175). -/
def fmTick (table : Vector AlgorithmDefinition 10) (v : FMVoice) : Except Refusal (Num32 × FMVoice) :=
  let a := algDef table v.alg
  match operatorsTick a v.op v.active with
  | .error r => .error r
  | .ok (out, ops) => .ok (carrierSum a.carriers out, { v with op := ops, active := activeAfterTick v.active })

/-! ## ROM validation and voice construction (44_engine.md) -/

/-- A check of ROM_VALIDATE: the fault it raises, if it fails. -/
def checkFault (ok : Bool) (c : Cause) (info : FaultInfo) : Option FaultRecord :=
  if ok then none else some { cause := c, info := info }

/-- The checks of one FM operator, in the order of R226. -/
def operatorFault (fs : Num32) (slot : BitVec 24) (n i : Nat) (d : FMOperatorDefinition) : Option FaultRecord :=
  (checkFault (tableOk d.table) .badTable (.rom slot n i)).or
    ((checkFault (envOk d.envelope fs) .badEnvelope (.rom slot n i)).or
      (checkFault (F32.isFinite d.modulationDepth) .badDepth (.rom slot n i)))

/-- The checks of one instrument, in the order of R226. -/
def instrumentFault (fs : Num32) (slot : BitVec 24) (n : Nat) : Option Instrument → Option FaultRecord
  | none => none
  | some (.wt d) =>
    (checkFault (tableOk d.data) .badTable (.rom slot n Config.noOperator)).or
      (checkFault (envOk d.envelope fs) .badEnvelope (.rom slot n Config.noOperator))
  | some (.fm d) =>
    (checkFault (decide (d.algorithm.toNat ≤ 11)) .badAlgorithm (.rom slot n Config.noOperator)).or
      ((operatorFault fs slot n 0 d.op.o0).or
        ((operatorFault fs slot n 1 d.op.o1).or
          ((operatorFault fs slot n 2 d.op.o2).or (operatorFault fs slot n 3 d.op.o3))))

/-- ROM_VALIDATE (R226): the first fault found, instruments in ascending index; `none` if the instance is valid. -/
def romFault (numInstruments : Nat) (fs : Num32) (rom : RomInstance) (slot : BitVec 24) : Option FaultRecord :=
  (List.range numInstruments).findSome? (fun n => instrumentFault fs slot n (romEntry rom n))

/-- A new oscillator over a table of length `len` (R229, D7), tuned to `hz`. -/
def oscNew (len : Nat) (fs hz : Num32) : Except Refusal Osc :=
  setFrequency { phase := F32.posZero, freq := F32.posZero, inc := F32.posZero, len := len, fs := fs } hz

/-- The operator VOICE_NEW builds for one operator definition (R229). -/
def operatorNew (p : Params) (fs : Num32) (entry : Instrument) (note : Byte) (i : Fin 4)
    (d : FMOperatorDefinition) : Except Refusal FMOperator :=
  match oscNew d.table.length fs (noteHz p.noteHz entry (some i) note) with
  | .error r => .error r
  | .ok osc => .ok { osc := osc, env := envBuild d.envelope fs, depth := d.modulationDepth, table := d.table }

/-- VOICE_NEW (R229). An algorithm above 11 builds no voice (R166, log 14). -/
def voiceNew (p : Params) (fs : Num32) (entry : Instrument) (note : Byte) (active : ActiveState) :
    Except Refusal Channel :=
  match entry with
  | .wt d =>
    match oscNew d.data.length fs (noteHz p.noteHz entry none note) with
    | .error r => .error r
    | .ok osc => .ok (.wt { defn := d, osc := osc, env := envBuild d.envelope fs, active := active })
  | .fm d =>
    if h : d.algorithm.toNat < 12 then
      match operatorNew p fs entry note 0 d.op.o0 with
      | .error r => .error r
      | .ok p0 =>
        match operatorNew p fs entry note 1 d.op.o1 with
        | .error r => .error r
        | .ok p1 =>
          match operatorNew p fs entry note 2 d.op.o2 with
          | .error r => .error r
          | .ok p2 =>
            match operatorNew p fs entry note 3 d.op.o3 with
            | .error r => .error r
            | .ok p3 =>
              .ok (.fm { defn := d, alg := ⟨d.algorithm.toNat, h⟩,
                         op := { o0 := p0, o1 := p1, o2 := p2, o3 := p3 }, active := active })
    else .error .algorithmRange

/-! ## Commands (44_engine.md). `w` is the word a fault records. -/

/-- PIANO_KEY_PRESSED and TRIGGER_NOTE (R228, R230, R233): channel check, instrument check, then the one write (R283). -/
def startNote (w : Word) (note inst ch : Byte) (active : ActiveState) (s : State) : Except Refusal State :=
  if s.params.numChannels ≤ ch.toNat then .ok (raiseFault { cause := .badChannel, info := .word w } s)
  else
    match instrumentAt s inst.toNat with
    | none => .ok (raiseFault { cause := .badInstrument, info := .word w } s)
    | some entry =>
      match voiceNew s.params s.engine.fs entry note active with
      | .error r => .error r
      | .ok c => .ok { s with engine := setChannel s.engine ch.toNat c }

/-- A channel slot released (R231). -/
def releaseChannel : Channel → Channel
  | .empty => .empty
  | .wt v => .wt { v with active := .Off }
  | .fm v => .fm { v with active := .Off }

/-- PIANO_KEY_RELEASED (R231). -/
def releaseKey (w : Word) (ch : Byte) (s : State) : State :=
  if s.params.numChannels ≤ ch.toNat then raiseFault { cause := .badChannel, info := .word w } s
  else
    match channelAt s.engine ch.toNat with
    | none => s
    | some c => { s with engine := setChannel s.engine ch.toNat (releaseChannel c) }

/-- SOUND_ROM_INSTANCE_CHANGED (R232): slot check, ROM_VALIDATE, then the one atomic write. -/
def changeRom (w : Word) (slot : BitVec 24) (s : State) : State :=
  match romAt s.params.roms slot with
  | none => raiseFault { cause := .badRomSlot, info := .word w } s
  | some rom =>
    match romFault s.params.numInstruments s.engine.fs rom slot with
    | some f => raiseFault f s
    | none => { s with engine := { s.engine with romId := slot, rom := rom } }

/-- One decoded command (R234's "execute cmd"). -/
def applyCommand (w : Word) (c : Command) (s : State) : Except Refusal State :=
  match c with
  | .pressed note inst ch => startNote w note inst ch .On s
  | .released ch => .ok (releaseKey w ch s)
  | .trigger note inst ch => startNote w note inst ch .Trigger s
  | .romChanged slot => .ok (changeRom w slot s)

/-- APPLY(w) (R234): decode at drain time (R94), then execute; a fault rejects this word only (R235). -/
def applyWord (w : Word) (s : State) : Except Refusal State :=
  match decodeCmd w with
  | none => .ok (raiseFault { cause := .badCommand, info := .word w } s)
  | some c => applyCommand w c s

/-- The words of a list applied in order. -/
def applyWords : List Word → State → Except Refusal State
  | [], s => .ok s
  | w :: ws, s =>
    match applyWord w s with
    | .error r => .error r
    | .ok s' => applyWords ws s'

/-- Pass 1 of a drain takes the ROM changes (R234). -/
def isRomChange (w : Word) : Bool := opc w == 0x04#8

/-- DRAIN (R234): the queue is emptied first; ROM changes in queue order, then everything else in queue order. -/
def drain (s : State) : Except Refusal State :=
  match applyWords (s.cmdq.filter isRomChange) { s with cmdq := [] } with
  | .error r => .error r
  | .ok s' => applyWords (s.cmdq.filter (fun w => !isRomChange w)) s'

/-! ## The sample tick and the frame (44_engine.md) -/

/-- One channel's part of MIX_TICK (R236): the running sum and the channel after the tick. -/
def channelTick (table : Vector AlgorithmDefinition 10) (y : Num32) (c : Channel) : Except Refusal (Num32 × Channel) :=
  match c with
  | .empty => .ok (y, .empty)
  | .wt v =>
    match voiceTick v with
    | .error r => .error r
    | .ok (x, v') => .ok (F32.add y x, .wt v')
  | .fm v =>
    match fmTick table v with
    | .error r => .error r
    | .ok (x, v') => .ok (F32.add y x, .fm v')

/-- The loop of MIX_TICK over the channels that are left (R236). -/
def mixChannels (table : Vector AlgorithmDefinition 10) : List Channel → Num32 → Except Refusal (Num32 × List Channel)
  | [], y => .ok (y, [])
  | c :: cs, y =>
    match channelTick table y c with
    | .error r => .error r
    | .ok (y', c') =>
      match mixChannels table cs y' with
      | .error r => .error r
      | .ok (y'', cs') => .ok (y'', c' :: cs')

/-- MIX_TICK (R236, R238): the plain sum in ascending channel order from +0.0. -/
def mixTick (table : Vector AlgorithmDefinition 10) (chs : List Channel) : Except Refusal (Num32 × List Channel) :=
  mixChannels table chs F32.posZero

/-- The sample loop of RENDER_FRAME (R237): the samples in ascending index, each written once (R66), and
the channels after the last tick. -/
def renderSamples (table : Vector AlgorithmDefinition 10) : Nat → List Channel → Except Refusal (Frame × List Channel)
  | 0, chs => .ok ([], chs)
  | n + 1, chs =>
    match mixTick table chs with
    | .error r => .error r
    | .ok (y, chs') =>
      match renderSamples table n chs' with
      | .error r => .error r
      | .ok (ys, chs'') => .ok (y :: ys, chs'')

/-- RENDER_FRAME (R237): drain, then `count` ticks. From a control word `count` is below 2^24; from PRODUCER_STEP it is
SPF, which the model does not bound (log 23). -/
def renderFrame (count : Nat) (s : State) : Except Refusal (Frame × State) :=
  match drain s with
  | .error r => .error r
  | .ok s' =>
    match renderSamples s'.params.algTable count s'.engine.ch with
    | .error r => .error r
    | .ok (b, chs) => .ok (b, { s' with engine := { s'.engine with ch := chs } })

/-! ## State-save port (44_engine.md) -/

/-- Whether RESTORE takes a value (R245): the same FS, the same ROM binding, and NUM_CHANNELS slots (R36; log 12). -/
def restoreOk (d : SoundEngineData) (s : State) : Bool :=
  F32.eq d.fs s.engine.fs && d.romId == s.engine.romId && decide (d.rom = s.engine.rom) &&
    d.ch.length == s.params.numChannels

/-- RESTORE (R245): CH and the ROM binding in one write; FS is the same value already. -/
def restore (d : SoundEngineData) (s : State) : Except Refusal State :=
  if restoreOk d s then .ok { s with engine := { s.engine with ch := d.ch, romId := d.romId, rom := d.rom } }
  else .error .restoreMismatch

/-! ## Frame pipeline (45_pipeline.md) -/

/-- SPF = floor(FS / 60) (R5, R261), the floor of the exact quotient: 60 frames never hold more than FS samples
(R323, D35; DEDUCED, log 17, safe). `toInt` counts units of 2^-149. Where FS is 60 × 2^24 or more, SPF is above
every count R237 admits and every sample count R11 expects; the frame then holds all SPF samples (DESIGN CHOICE,
log 23, unsafe for claims about such an FS). -/
def samplesPerFrame (fs : Num32) : Nat :=
  if F32.isFinite fs then (F32.toInt fs / ((Config.frameRate : Int) * 2 ^ 149)).toNat
  else Config.freeFrameLength fs

/-- PRODUCER_STEP (R261, R262, R300). -/
def producerStep (s : State) : Except Refusal (State × ProducerResult) :=
  if s.stop then .ok (s, .stopped)
  else if Config.outqCap ≤ s.outq.length then .ok (s, .deferred)
  else
    match renderFrame (samplesPerFrame s.engine.fs) s with
    | .error r => .error r
    | .ok (b, s') => .ok ({ s' with outq := s'.outq ++ [b], tap := some b }, .produced)

/-- The refill loop of NEXT_SAMPLE (R265): the sample it finds, if any, with OUTQ and CUR after it. An
empty frame is popped and skipped (D24). -/
def refill : List Frame → Option CurBuffer → Option Num32 × List Frame × Option CurBuffer
  | [], cur => (none, [], cur)
  | [] :: q, _ => refill q (some { buf := [], rd := 0 })
  | (x :: b) :: q, _ => (some x, q, some { buf := x :: b, rd := 1 })

/-- The event an empty slot logs (R265, R286): by whether a buffer has been loaded since reset. -/
def underrunStatus : Option CurBuffer → StatusCode
  | none => .starved
  | some _ => .noNextFrame

/-- The sample CUR holds next, if it is not exhausted. -/
def curSample : Option CurBuffer → Option Num32
  | none => none
  | some c => c.buf[c.rd]?

/-- CUR.RD <- RD + 1. -/
def curAdvance : Option CurBuffer → Option CurBuffer
  | none => none
  | some c => some { c with rd := c.rd + 1 }

/-- NEXT_SAMPLE (R265). -/
def nextSample (s : State) : Num32 × State :=
  match curSample s.cur with
  | some x => (x, { s with cur := curAdvance s.cur })
  | none =>
    match refill s.outq s.cur with
    | (some x, q, cur) => (x, { s with outq := q, cur := cur })
    | (none, q, cur) => (F32.posZero, logStatus (underrunStatus cur) { s with outq := q, cur := cur })

/-- CALLBACK_PULL's slots (R264), in ascending order. -/
def pullSamples : Nat → State → List Num32 × State
  | 0, s => ([], s)
  | n + 1, s =>
    let (x, s') := nextSample s
    let (xs, s'') := pullSamples n s'
    (x :: xs, s'')

end Sys2Proof.Machine
end

