-- ==== Sys2Proof/Machine/Ports.lean ====
section
/-! DEFINITION. The ports (30_encoding.md R90, R94, R95): which operation an agent's step is, what is taken
from the ports with it, and where a word is placed so that it runs next. -/

namespace Sys2Proof.Machine

/-- What an agent's step turns out to be. -/
inductive Resolved
  /-- It is this operation. -/
  | run (i : Instr)
  /-- Its word is illegal: BAD_COMMAND is recorded and the step ends (R96, R282). -/
  | reject (f : FaultRecord)
  /-- The model gives it no meaning (R290). -/
  | refuse (r : Refusal)
  deriving DecidableEq, Repr

/-- The decoders with their agent check (R94, R95): the opcode and the reserved bits first, the agent after them. -/
def resolve : PortEvent → Resolved
  | .command w => .run (.enqueue w)
  | .control a w _ =>
    match decodeCtl w with
    | none => .reject { cause := .badCommand, info := .word w }
    | some c => if c.agent = a then .run c.toInstr else .refuse .wrongContext
  | .apply w =>
    match decodeCmd w with
    | none => .reject { cause := .badCommand, info := .word w }
    | some c => .run c.toInstr
  | .drive i => .run i

/-- The value on the state-save port once an agent's step has begun (R90; log 11): the Producer's RESTORE word brings
its operand there (R245). No other word and no other agent reaches the port: it belongs to the Producer (R296), and an
illegal word has no other effect than its fault (R96). -/
def portValue (ev : PortEvent) (s : State) : SoundEngineData :=
  match ev with
  | .control _ _ none => s.savePort
  | .control .producer w (some d) => if decodeCtl w = some .restore then d else s.savePort
  | .control .callback _ (some _) => s.savePort
  | .control .editor _ (some _) => s.savePort
  | .command _ => s.savePort
  | .apply _ => s.savePort
  | .drive _ => s.savePort

/-- The state in which an agent's step runs: the step is taken off the order of steps, and the operand a RESTORE word
brings is on the state-save port. -/
def takeInput (ev : PortEvent) (rest : List PortEvent) (s : State) : State :=
  { s with inputs := rest, savePort := portValue ev s }

/-- The step in which a word runs (log 1): a control word is written by the agent it belongs to, any other
word is applied as a drain applies it. -/
def fetchEvent (w : Word) : PortEvent :=
  match decodeCtl w with
  | some c => .control c.agent w none
  | none => .apply w

/-- `w` as the step taken next. -/
def placeWord (w : Word) (s : State) : State := { s with inputs := fetchEvent w :: s.inputs }

end Sys2Proof.Machine
end

