-- ==== Sys2Proof/Machine/Assembler.lean ====
section
/-! DEFINITION. The textual form of a word (30_encoding.md R98) and the lines of a program listing
(95_test_vectors.md), from a line's characters. R98 fixes the order of the parts; that blanks are spaces or
tabs, and that hexadecimal digits may be of either case, is the model's reading (log 20). -/

namespace Sys2Proof.Machine

/-! ## Characters -/

def isBlank (c : Char) : Bool := c == ' ' || c == '\t'

/-- Blanks taken off both ends. -/
def trimBlanks (cs : List Char) : List Char :=
  ((cs.dropWhile isBlank).reverse.dropWhile isBlank).reverse

/-- The value of a digit in a base of at most 16. -/
def digitValue (base : Nat) (c : Char) : Option Nat :=
  let v := if '0' ≤ c ∧ c ≤ '9' then some (c.toNat - '0'.toNat)
    else if 'a' ≤ c ∧ c ≤ 'f' then some (c.toNat - 'a'.toNat + 10)
    else if 'A' ≤ c ∧ c ≤ 'F' then some (c.toNat - 'A'.toNat + 10)
    else none
  match v with
  | some d => if d < base then some d else none
  | none => none

/-- The number whose digits follow `acc`. -/
def digitsValue (base : Nat) : List Char → Nat → Option Nat
  | [], acc => some acc
  | c :: cs, acc =>
    match digitValue base c with
    | some d => digitsValue base cs (acc * base + d)
    | none => none

/-- A decimal or `0x` hexadecimal integer (R98). -/
def parseNumber : List Char → Option Nat
  | [] => none
  | '0' :: 'x' :: c :: cs => digitsValue 16 (c :: cs) 0
  | c :: cs => digitsValue 10 (c :: cs) 0

/-- The parts of a list of operands, which commas separate (R98). -/
def splitCommas : List Char → List (List Char)
  | [] => [[]]
  | c :: cs =>
    if c == ',' then [] :: splitCommas cs
    else
      match splitCommas cs with
      | [] => [[c]]
      | p :: ps => (c :: p) :: ps

/-- The numbers of a list of parts, if each is one. -/
def parseNumbers : List (List Char) → Option (List Nat)
  | [] => some []
  | p :: ps =>
    match parseNumber (trimBlanks p), parseNumbers ps with
    | some n, some ns => some (n :: ns)
    | _, _ => none

/-- The operands after a mnemonic. -/
def parseOperands (cs : List Char) : Option (List Nat) :=
  match trimBlanks cs with
  | [] => some []
  | c :: rest => parseNumbers (splitCommas (c :: rest))

/-! ## Words -/

/-- The word of a mnemonic with its operands, in the order {note, instrument, channel} (R98). `none` is an
assembly error: another mnemonic, another number of operands, or an operand that does not fit its field. -/
def assemble (mnemonic : List Char) (operands : List Nat) : Option Word :=
  match operands with
  | [] =>
    if mnemonic = "SNAPSHOT".toList then some (encodeCtl .snapshot)
    else if mnemonic = "RESTORE".toList then some (encodeCtl .restore)
    else if mnemonic = "PRODUCER_STEP".toList then some (encodeCtl .producerStep)
    else if mnemonic = "STOP".toList then some (encodeCtl .stop)
    else none
  | [n] =>
    if mnemonic = "PIANO_KEY_RELEASED".toList then
      (if n < 2 ^ 8 then some (encodeCmd (.released (BitVec.ofNat 8 n))) else none)
    else if mnemonic = "SOUND_ROM_INSTANCE_CHANGED".toList then
      (if n < 2 ^ 24 then some (encodeCmd (.romChanged (BitVec.ofNat 24 n))) else none)
    else if mnemonic = "RENDER_FRAME".toList then
      (if n < 2 ^ 24 then some (encodeCtl (.renderFrame (BitVec.ofNat 24 n))) else none)
    else if mnemonic = "CALLBACK_PULL".toList then
      (if n < 2 ^ 24 then some (encodeCtl (.callbackPull (BitVec.ofNat 24 n))) else none)
    else none
  | [note, inst, ch] =>
    if note < 2 ^ 8 ∧ inst < 2 ^ 8 ∧ ch < 2 ^ 8 then
      (if mnemonic = "PIANO_KEY_PRESSED".toList then
        some (encodeCmd (.pressed (BitVec.ofNat 8 note) (BitVec.ofNat 8 inst) (BitVec.ofNat 8 ch)))
      else if mnemonic = "TRIGGER_NOTE".toList then
        some (encodeCmd (.trigger (BitVec.ofNat 8 note) (BitVec.ofNat 8 inst) (BitVec.ofNat 8 ch)))
      else none)
    else none
  | _ => none

/-- The word of one line of text; a `;` starts a comment that runs to the end of the line (R98). -/
def assembleLine (cs : List Char) : Option Word :=
  let line := trimBlanks (cs.takeWhile (fun c => c != ';'))
  match parseOperands (line.dropWhile (fun c => !isBlank c)) with
  | some ns => assemble (line.takeWhile (fun c => !isBlank c)) ns
  | none => none

/-- The step of one line of a listing, whose prefix names the issuing agent (R98): `E:` Editor, `P:` Producer,
`C:` Callback. -/
def assembleStep (cs : List Char) : Option PortEvent :=
  match cs.dropWhile isBlank with
  | 'E' :: ':' :: rest => (assembleLine rest).map PortEvent.command
  | 'P' :: ':' :: rest => (assembleLine rest).map (fun w => PortEvent.control .producer w none)
  | 'C' :: ':' :: rest => (assembleLine rest).map (fun w => PortEvent.control .callback w none)
  | _ => none

end Sys2Proof.Machine
end

