-- ==== Sys2Proof/Machine/Engine.lean ====
section
/-! DEFINITION. The meanings of the engine's operations (44_engine.md): the Editor's port write, the four
commands as a drain applies them, the control words that render, save, restore and stop, and the engine's
micro-operations. A step's returned value replaces the one before it (R90, log 13). -/

namespace Sys2Proof.Machine

/-- ENQUEUE (R222): the word is appended undecoded. -/
def execEnqueue (w : Word) (s : State) : Host.Outcome State Fault Refusal :=
  .next { s with cmdq := s.cmdq ++ [w], result := .none }

/-- PIANO_KEY_PRESSED (R228). -/
def execPianoKeyPressed (note inst ch : Byte) (s : State) : Host.Outcome State Fault Refusal :=
  answer (startNote (encodeCmd (.pressed note inst ch)) note inst ch .On s) (fun t => { t with result := .none })

/-- PIANO_KEY_RELEASED (R231). -/
def execPianoKeyReleased (ch : Byte) (s : State) : Host.Outcome State Fault Refusal :=
  .next { releaseKey (encodeCmd (.released ch)) ch s with result := .none }

/-- TRIGGER_NOTE (R230). -/
def execTriggerNote (note inst ch : Byte) (s : State) : Host.Outcome State Fault Refusal :=
  answer (startNote (encodeCmd (.trigger note inst ch)) note inst ch .Trigger s) (fun t => { t with result := .none })

/-- SOUND_ROM_INSTANCE_CHANGED (R232). -/
def execSoundRomInstanceChanged (slot : BitVec 24) (s : State) : Host.Outcome State Fault Refusal :=
  .next { changeRom (encodeCmd (.romChanged slot)) slot s with result := .none }

/-- RENDER_FRAME (R237): returns the frame. -/
def execRenderFrame (count : BitVec 24) (s : State) : Host.Outcome State Fault Refusal :=
  answer (renderFrame count.toNat s) (fun bt => { bt.2 with result := .frame bt.1 })

/-- SNAPSHOT (R244): the engine is unchanged; the copy is on the state-save port. -/
def execSnapshot (s : State) : Host.Outcome State Fault Refusal :=
  .next { s with savePort := s.engine, result := .data s.engine }

/-- RESTORE (R245) of the value on the state-save port. -/
def execRestore (s : State) : Host.Outcome State Fault Refusal :=
  answer (restore s.savePort s) (fun t => { t with result := .none })

/-- STOP (R247). -/
def execStop (s : State) : Host.Outcome State Fault Refusal :=
  .next { s with stop := true, result := .none }

/-- ROM_VALIDATE (R226): raises the first fault found, or does nothing. -/
def execRomValidate (rom : RomInstance) (slot : BitVec 24) (s : State) : Host.Outcome State Fault Refusal :=
  match romFault s.params.numInstruments s.engine.fs rom slot with
  | some f => .next { raiseFault f s with result := .none }
  | none => .next { s with result := .none }

/-- VOICE_NEW (R229): returns the channel contents and writes no register. -/
def execVoiceNew (entry : Instrument) (note : Byte) (active : ActiveState) (s : State) :
    Host.Outcome State Fault Refusal :=
  answer (voiceNew s.params s.engine.fs entry note active) (fun c => { s with result := .slot c })

/-- DRAIN (R234). -/
def execDrain (s : State) : Host.Outcome State Fault Refusal :=
  answer (drain s) (fun t => { t with result := .none })

/-- MIX_TICK (R236): returns the sample. -/
def execMixTick (s : State) : Host.Outcome State Fault Refusal :=
  answer (mixTick s.params.algTable s.engine.ch)
    (fun yc => { s with engine := { s.engine with ch := yc.2 }, result := .num yc.1 })

end Sys2Proof.Machine
end

