-- ==== Sys2Proof/Machine/Envelope.lean ====
section
/-! DEFINITION. The meanings of the envelope's micro-operations (43_envelope.md R192, R195). -/

namespace Sys2Proof.Machine

/-- ENV_BUILD (R192): returns the envelope instance and writes no register. -/
def execEnvBuild (d : EnvelopeDefinition) (fs : Num32) (s : State) : Host.Outcome State Fault Refusal :=
  .next { s with result := .env (envBuild d fs) }

/-- ENV_TICK (R195) on the envelope `r` names: returns the amplitude. -/
def execEnvTick (r : UnitRef) (active : ActiveState) (s : State) : Host.Outcome State Fault Refusal :=
  answer (operand (envOf r s.engine))
    (fun e => { s with engine := setEnv r (envTick e active).2 s.engine, result := .num (envTick e active).1 })

end Sys2Proof.Machine
end

