-- ==== Sys2Proof/Machine/Fm.lean ====
section
/-! DEFINITION. The meaning of the FM voice's micro-operation (42_fm.md R170). -/

namespace Sys2Proof.Machine

/-- FM_TICK (R170) on the FM voice of channel `c`: returns its sample. -/
def execFmTick (c : Byte) (s : State) : Host.Outcome State Fault Refusal :=
  answer ((operand (fmVoiceOf c s.engine)).bind (fmTick s.params.algTable))
    (fun yv => { s with engine := setChannel s.engine c.toNat (.fm yv.2), result := .num yv.1 })

end Sys2Proof.Machine
end

