-- ==== Sys2Proof/Machine/Oscillator.lean ====
section
/-! DEFINITION. The meanings of the oscillator's micro-operations (40_oscillator.md R121, R122, R124). -/

namespace Sys2Proof.Machine

/-- SET_FREQUENCY (R121) on the oscillator `r` names. It returns nothing. -/
def execSetFrequency (r : UnitRef) (hz : Num32) (s : State) : Host.Outcome State Fault Refusal :=
  answer ((operand (oscOf r s.engine)).bind (fun o => setFrequency o hz))
    (fun o => { s with engine := setOsc r o s.engine, result := .none })

/-- WRAP (R122): returns the wrapped phase and writes no register. -/
def execWrap (x : Num32) (len : Nat) (s : State) : Host.Outcome State Fault Refusal :=
  answer (wrap x len) (fun y => { s with result := .num y })

/-- OSC_TICK (R124) on the oscillator `r` names: returns the phase from before the advance. -/
def execOscTick (r : UnitRef) (s : State) : Host.Outcome State Fault Refusal :=
  answer ((operand (oscOf r s.engine)).bind oscTick)
    (fun po => { s with engine := setOsc r po.2 s.engine, result := .num po.1 })

end Sys2Proof.Machine
end

