-- ==== Sys2Proof/Machine/Pipeline.lean ====
section
/-! DEFINITION. The meanings of the frame pipeline's operations (45_pipeline.md R261, R264, R265). -/

namespace Sys2Proof.Machine

/-- PRODUCER_STEP (R261): returns Stopped, Deferred or Produced. -/
def execProducerStep (s : State) : Host.Outcome State Fault Refusal :=
  answer (producerStep s) (fun tr => { tr.1 with result := .producer tr.2 })

/-- CALLBACK_PULL (R264): returns `count` samples. -/
def execCallbackPull (count : BitVec 24) (s : State) : Host.Outcome State Fault Refusal :=
  .next { (pullSamples count.toNat s).2 with result := .samples (pullSamples count.toNat s).1 }

/-- NEXT_SAMPLE (R265): returns one sample. -/
def execNextSample (s : State) : Host.Outcome State Fault Refusal :=
  .next { (nextSample s).2 with result := .num (nextSample s).1 }

end Sys2Proof.Machine
end

