-- ==== Sys2Proof/Machine/Voice.lean ====
section
/-! DEFINITION. The meanings of the wavetable voice's micro-operations (41_voice.md R141, R146). -/

namespace Sys2Proof.Machine

/-- LERP (R141): returns the sample and writes no register. -/
def execLerp (t : List Nat) (q : Num32) (s : State) : Host.Outcome State Fault Refusal :=
  answer (lerp t q) (fun y => { s with result := .num y })

/-- VOICE_TICK (R146) on the wavetable voice of channel `c`: returns its sample. -/
def execVoiceTick (c : Byte) (s : State) : Host.Outcome State Fault Refusal :=
  answer ((operand (waveVoiceOf c s.engine)).bind voiceTick)
    (fun yv => { s with engine := setChannel s.engine c.toNat (.wt yv.2), result := .num yv.1 })

end Sys2Proof.Machine
end

