-- ==== Sys2Proof/Machine/Dispatch.lean ====
section
/-! DEFINITION. One arm per operation of the opcode table. -/

namespace Sys2Proof.Machine

def exec (i : Instr) (s : State) : Host.Outcome State Fault Refusal :=
  match i with
  -- command words
  | .pianoKeyPressed note inst ch => Sys2Proof.Machine.execPianoKeyPressed note inst ch s
  | .pianoKeyReleased ch => Sys2Proof.Machine.execPianoKeyReleased ch s
  | .triggerNote note inst ch => Sys2Proof.Machine.execTriggerNote note inst ch s
  | .soundRomInstanceChanged slot => Sys2Proof.Machine.execSoundRomInstanceChanged slot s
  -- control words
  | .renderFrame count => Sys2Proof.Machine.execRenderFrame count s
  | .snapshot => Sys2Proof.Machine.execSnapshot s
  | .restore => Sys2Proof.Machine.execRestore s
  | .producerStep => Sys2Proof.Machine.execProducerStep s
  | .callbackPull count => Sys2Proof.Machine.execCallbackPull count s
  | .stop => Sys2Proof.Machine.execStop s
  -- the Editor's port write
  | .enqueue w => Sys2Proof.Machine.execEnqueue w s
  -- micro-operations
  | .setFrequency r hz => Sys2Proof.Machine.execSetFrequency r hz s
  | .wrap x len => Sys2Proof.Machine.execWrap x len s
  | .oscTick r => Sys2Proof.Machine.execOscTick r s
  | .lerp table q => Sys2Proof.Machine.execLerp table q s
  | .voiceTick ch => Sys2Proof.Machine.execVoiceTick ch s
  | .fmTick ch => Sys2Proof.Machine.execFmTick ch s
  | .envBuild defn fs => Sys2Proof.Machine.execEnvBuild defn fs s
  | .envTick r active => Sys2Proof.Machine.execEnvTick r active s
  | .romValidate rom slot => Sys2Proof.Machine.execRomValidate rom slot s
  | .voiceNew entry note active => Sys2Proof.Machine.execVoiceNew entry note active s
  | .drain => Sys2Proof.Machine.execDrain s
  | .mixTick => Sys2Proof.Machine.execMixTick s
  | .nextSample => Sys2Proof.Machine.execNextSample s

end Sys2Proof.Machine
end

