-- ==== Sys2Proof/Machine/Exact.lean ====
section
/-! DEFINITION. The oscillator in the exact-rational instance of Num32 (00_scope.md R9), which the spec uses to
state what an operation means before rounding (40_oscillator.md R122, R125). The machine does not run it. -/

namespace Sys2Proof.Machine

/-- An oscillator over ℚ (R24). -/
structure ExactOsc where
  phase : ℚ
  freq  : ℚ
  inc   : ℚ
  len   : Nat
  fs    : ℚ

/-- SET_FREQUENCY over ℚ (R121). -/
def exactSetFrequency (o : ExactOsc) (hz : ℚ) : ExactOsc :=
  { o with freq := hz, inc := o.len * hz / o.fs }

/-- WRAP over ℚ: "x − L × floor(x / L)" (R122). -/
def exactWrap (x : ℚ) (len : Nat) : ℚ := x - len * (⌊x / len⌋ : ℤ)

/-- OSC_TICK over ℚ (R124). -/
def exactOscTick (o : ExactOsc) : ℚ × ExactOsc :=
  (o.phase, { o with phase := exactWrap (o.phase + o.inc) o.len })

/-- `k` OSC_TICKs over ℚ (R125). -/
def exactOscTicks : Nat → ExactOsc → ExactOsc
  | 0, o => o
  | k + 1, o => exactOscTicks k (exactOscTick o).2

end Sys2Proof.Machine
end

