-- ==== Sys2Proof/Machine/Reset.lean ====
section
/-! DEFINITION. RESET (70_reset_and_hazards.md R310): the construction of the machine with its checks. It is
no row of the opcode table: no agent issues it, and no state exists before it. -/

namespace Sys2Proof.Machine

/-- RESET(FS_in, ROMS, ROM0) (R310, R291), ROMS and ROM0 being parameters. An invalid input leaves no state. -/
def construct (p : Params) (fsIn : Num32) : Host.Outcome State Fault Refusal :=
  if !F32.isFinite fsIn || F32.le fsIn F32.posZero then .refused .badConstruction
  else
    match romAt p.roms p.rom0 with
    | none => .refused .badConstruction
    | some rom =>
      match romFault p.numInstruments fsIn rom p.rom0 with
      | some _ => .refused .badConstruction
      | none => .next (State.initial p fsIn rom)

end Sys2Proof.Machine
end

