-- ==== Sys2Proof/Machine/Step.lean ====
section
/-! DEFINITION. One step of the machine: the next agent's step in the total order (20_memory.md R70), whole
and atomic. -/

namespace Sys2Proof.Machine

/-- One step. With no agent's step pending the block holds its state: it does nothing of its own accord
(R6, R21; DESIGN CHOICE, log 3, safe). -/
def step (s : State) : Host.Outcome State Fault Refusal :=
  match s.inputs with
  | [] => .next s
  | ev :: rest =>
    match resolve ev with
    | .run i => exec i (takeInput ev rest s)
    | .reject f => .next (rejectWord f (takeInput ev rest s))
    | .refuse r => .refused r

/-- `s` with a table word as the step taken next. -/
def State.withFetchWord (s : State) (nbits w : Nat) : State :=
  placeWord (BitVec.ofNat 32 (w % 2 ^ nbits)) s

/-- The state an observer is left with after trying a step (R290): its successor, or, since a refused step
has none, the state it was tried in with the REFUSED mark (log 10). -/
def observe (s : State) : State :=
  match step s with
  | .next t => t
  | .refused _ => markRefused s

end Sys2Proof.Machine
end

