-- ==== Sys2Proof/Safety.lean ====
section
/-! DEFINITION. The terms claims use: which values the spec calls legal (10_state.md), the invariants it states
of the whole machine, and the bounds under which no operation is refused for overflow (60_exceptions.md R290
asks a claim for "a finite-input premise"). -/

namespace Sys2Proof.Machine

/-! ## Legal values of one register or voice -/

/-- A value in [0, 1] (R143, R150, R197). -/
abbrev InUnit (x : Num32) : Prop :=
  F32.isFinite x = true ∧ F32.le F32.posZero x = true ∧ F32.le x F32.one = true

/-- A phase (R24, R123): finite, 0 ≤ phase < num(L), and not -0.0. -/
abbrev PhaseLegal (x : Num32) (len : Nat) : Prop :=
  F32.isFinite x = true ∧ F32.le F32.posZero x = true ∧ F32.lt x (F32.ofNat len) = true ∧ x ≠ F32.negZero

/-- A sample rate (R31): finite and above 0. -/
abbrev RateLegal (fs : Num32) : Prop := F32.isFinite fs = true ∧ F32.lt F32.posZero fs = true

/-- An oscillator (R24). -/
abbrev OscLegal (o : Osc) : Prop :=
  1 ≤ o.len ∧ o.len ≤ Config.lMax ∧ PhaseLegal o.phase o.len ∧
    F32.isFinite o.freq = true ∧ F32.isFinite o.inc = true ∧ RateLegal o.fs

/-- The length of the current stage, which bounds K (R25); the two stages without one hold K at 0. -/
def stageLength (e : Env) : Nat :=
  match e.stage with
  | .idle => 1
  | .attack => e.na.toNat
  | .decay => e.nd.toNat
  | .sustain => 1
  | .release => e.nr.toNat

/-- The counters of an envelope (R25): stage lengths of at least one tick, and K below the current one. -/
abbrev EnvLegal (e : Env) : Prop :=
  1 ≤ e.na.toNat ∧ 1 ≤ e.nd.toNat ∧ 1 ≤ e.nr.toNat ∧ e.k.toNat < stageLength e

/-- The levels of an envelope (R25, R198): each in [0, 1]; Attack starts from 0 and Decay from 1. -/
abbrev LevelLegal (e : Env) : Prop :=
  InUnit e.level ∧ InUnit e.start ∧ InUnit e.sus ∧
    (e.stage = .attack → e.start = F32.posZero) ∧ (e.stage = .decay → e.start = F32.one)

/-- An FM operator (R28): its oscillator reads its own table. -/
abbrev OperatorLegal (p : FMOperator) : Prop :=
  OscLegal p.osc ∧ p.osc.len = p.table.length ∧ tableOk p.table = true ∧ EnvLegal p.env ∧ F32.isFinite p.depth = true

/-- A wavetable voice (R26): its oscillator reads its definition's table. -/
abbrev WaveVoiceLegal (v : WaveVoice) : Prop :=
  OscLegal v.osc ∧ v.osc.len = v.defn.data.length ∧ tableOk v.defn.data = true ∧ EnvLegal v.env

/-- An FM voice (R27). -/
abbrev FMVoiceLegal (v : FMVoice) : Prop :=
  OperatorLegal v.op.o0 ∧ OperatorLegal v.op.o1 ∧ OperatorLegal v.op.o2 ∧ OperatorLegal v.op.o3

/-- A channel slot (R29). -/
def ChannelLegal : Channel → Prop
  | .empty => True
  | .wt v => WaveVoiceLegal v
  | .fm v => FMVoiceLegal v

/-- Every voice of a SoundEngineData value, and its FS (R36). -/
def EngineLegal (d : SoundEngineData) : Prop := RateLegal d.fs ∧ ∀ c ∈ d.ch, ChannelLegal c

/-! ## Invariants of the machine -/

/-- The frame pipeline (R34, R35, R261): at most OUTQ_CAP frames queued, RD at most the length of BUF, and
every frame SPF samples long. -/
def PipelineInv (s : State) : Prop :=
  s.outq.length ≤ Config.outqCap ∧ (∀ b ∈ s.outq, b.length = samplesPerFrame s.engine.fs) ∧
    ∀ c, s.cur = some c → c.rd ≤ c.buf.length ∧ c.buf.length = samplesPerFrame s.engine.fs

/-- The FAULT bits that a log accounts for (R282). -/
def faultBitsOf : List Event → BitVec 8
  | [] => 0
  | .fault f :: es => causeBit f.cause ||| faultBitsOf es
  | .status _ :: es => faultBitsOf es

/-- FAULT holds exactly the bits of the faults in LOG (R32, R282, R288). -/
def FaultLogInv (s : State) : Prop := s.fault = faultBitsOf s.log

/-- CH has NUM_CHANNELS slots (R29), and no refused step has been marked (R32). -/
def ShapeInv (s : State) : Prop := s.engine.ch.length = s.params.numChannels ∧ s.refused = false

/-- The bound ROM is the instance its slot id names, and it is valid under the machine's FS (R31, R64). -/
def RomInv (s : State) : Prop :=
  romAt s.params.roms s.engine.romId = some s.engine.rom ∧
    romFault s.params.numInstruments s.engine.fs s.engine.rom s.engine.romId = none

/-- Every value that is or may still be put on the state-save port is one whose voices are legal: the premise
R123 makes of RESTORE, "a value some earlier state held". -/
def PortInv (s : State) : Prop :=
  EngineLegal s.savePort ∧
    ∀ w d, PortEvent.control .producer w (some d) ∈ s.inputs → EngineLegal d

/-- Every voice is legal, the bound ROM builds only legal voices, and RESTORE brings none that is not (R123, R25). -/
def VoiceInv (s : State) : Prop := EngineLegal s.engine ∧ RomInv s ∧ PortInv s

/-! ## When a note can be built -/

/-- SET_FREQUENCY accepts a frequency (R121): it is finite, and so is the increment it gives. -/
abbrev OscFits (len : Nat) (fs hz : Num32) : Prop :=
  F32.isFinite hz = true ∧ F32.isFinite (F32.div (F32.mul (F32.ofNat len) hz) fs) = true

/-- Every SET_FREQUENCY of VOICE_NEW accepts its frequency (R229). -/
def VoiceFits (p : Params) (fs : Num32) (entry : Instrument) (note : Byte) : Prop :=
  match entry with
  | .wt d => OscFits d.data.length fs (noteHz p.noteHz entry none note)
  | .fm d => d.algorithm.toNat ≤ 11 ∧
      OscFits d.op.o0.table.length fs (noteHz p.noteHz entry (some 0) note) ∧
      OscFits d.op.o1.table.length fs (noteHz p.noteHz entry (some 1) note) ∧
      OscFits d.op.o2.table.length fs (noteHz p.noteHz entry (some 2) note) ∧
      OscFits d.op.o3.table.length fs (noteHz p.noteHz entry (some 3) note)

/-! ## Many ticks, and the past of a state -/

/-- The envelope after one ENV_TICK for each activity of the list, in order (R195). -/
def envTicks : List ActiveState → Env → Env
  | [], e => e
  | a :: as, e => envTicks as (envTick e a).2

/-- The same state with other faults and events recorded before its own (R32). -/
def withPast (f : BitVec 8) (l : List Event) (s : State) : State :=
  { s with fault := f ||| s.fault, log := l ++ s.log }

/-- An outcome with its next state changed. -/
def mapNext (k : State → State) : Host.Outcome State Fault Refusal → Host.Outcome State Fault Refusal
  | .next t => .next (k t)
  | .fault r => .fault r
  | .refused r => .refused r

/-! ## Bounds that exclude overflow -/

/-- A magnitude of at most 2^96. -/
abbrev Tame (x : Num32) : Prop := F32.isFinite x = true ∧ F32.mag x ≤ 2 ^ 245

/-- Every modulation depth of a channel's voice is tame, so that no modulated index overflows. -/
def ChannelTame : Channel → Prop
  | .empty => True
  | .wt _ => True
  | .fm v => Tame v.op.o0.depth ∧ Tame v.op.o1.depth ∧ Tame v.op.o2.depth ∧ Tame v.op.o3.depth

/-- Every note frequency is tame and FS is at least 1, so that no increment overflows. -/
def NotesTame (s : State) : Prop :=
  (∀ r ∈ s.params.noteHz.rows, Tame r.hz) ∧ Tame s.params.noteHz.default ∧ F32.le F32.one s.engine.fs = true

/-- Every modulation depth of an instrument is tame. -/
def InstrumentTame : Instrument → Prop
  | .wt _ => True
  | .fm d => Tame d.op.o0.modulationDepth ∧ Tame d.op.o1.modulationDepth ∧
      Tame d.op.o2.modulationDepth ∧ Tame d.op.o3.modulationDepth

/-- Every instrument of a ROM instance is tame. -/
def RomTame (r : RomInstance) : Prop := ∀ i, some i ∈ r → InstrumentTame i

/-- Nothing a drain or a tick of this state can meet overflows: the notes, the bound ROM, every ROM of the
host, and the voices that are there. -/
def TameInv (s : State) : Prop :=
  NotesTame s ∧ RomTame s.engine.rom ∧ (∀ e ∈ s.params.roms, RomTame e.2) ∧ ∀ c ∈ s.engine.ch, ChannelTame c

/-- The samples that are rendered and not yet emitted, in the order the Callback will emit them (R268). -/
def pendingSamples (s : State) : List Num32 :=
  (match s.cur with
   | none => []
   | some c => c.buf.drop c.rd) ++ s.outq.flatten

end Sys2Proof.Machine
end

