-- ==== Sys2Proof/Certificates/Slice0/Obligations.lean ====
section
/-! DEFINITION. The statements for the provers, in the order of OBLIGATIONS.json.

`result` is the value the operation returns (R90 and the pseudocode's `return`), and `result := .none` says that it
returns none; that one field carries it, and that nothing is left there from the step before, is log 13. -/

open Sys2Proof Sys2Proof.Machine

/-! ## Words (30_encoding.md) -/

/-- R91 to R96. Encoding and decoding agree: an encoded operation decodes to itself, on its own port and off it, with
every operand at every value its field admits; a word that decodes is the encoding of what it decodes to; and no word
is legal on both ports. -/
def Obligations.DecodeEncodeAgree : Prop :=
  (∀ c, decodeCmd (encodeCmd c) = some c) ∧ (∀ c, decodeCtl (encodeCtl c) = some c) ∧
    (∀ (i : Instr) (w : Word), encode i = some w → decodeWord w = some i) ∧
    ∀ w : Word, (∀ c, decodeCmd w = some c → encodeCmd c = w) ∧ (∀ c, decodeCtl w = some c → encodeCtl c = w) ∧
      (decodeCmd w = none ∨ decodeCtl w = none)

/-- R94. What a command word decodes to, for every word, by its four bytes; and what a drain does with a word that
does not decode: the fault BAD_COMMAND with the word, and nothing else. -/
def Obligations.CommandWordDecoding : Prop :=
  (∀ op ch inst note : Byte,
    (op = 0x01#8 → decodeCmd (op ++ ch ++ inst ++ note) = some (.pressed note inst ch)) ∧
    (op = 0x02#8 → decodeCmd (op ++ ch ++ inst ++ note) = if inst = 0#8 ∧ note = 0#8 then some (.released ch) else none) ∧
    (op = 0x03#8 → decodeCmd (op ++ ch ++ inst ++ note) = some (.trigger note inst ch)) ∧
    (op = 0x04#8 → decodeCmd (op ++ ch ++ inst ++ note) = some (.romChanged (ch ++ inst ++ note))) ∧
    (op ≠ 0x01#8 → op ≠ 0x02#8 → op ≠ 0x03#8 → op ≠ 0x04#8 → decodeCmd (op ++ ch ++ inst ++ note) = none)) ∧
  ∀ (w : Word) (s : State), decodeCmd w = none → applyWord w s = .ok { s with
    fault := s.fault ||| 0x01#8, log := s.log ++ [.fault { cause := .badCommand, info := .word w }] }

/-- R95, R96. What the step of a control-port word does, for every word and every agent: the operation, a refusal
for the wrong agent, or BAD_COMMAND with no other effect. (That the operand a RESTORE word brings is put on the
state-save port, and that BAD_COMMAND returns nothing, is the model's convention, log 11 and 13.) -/
def Obligations.ControlWordStep : Prop :=
  ∀ (s t : State) (a : Agent) (op : Byte) (imm : BitVec 24) (save : Option SoundEngineData) (rest : List PortEvent),
    s.inputs = .control a (op ++ imm) save :: rest →
    t = { s with
      inputs := rest
      savePort := if a = .producer ∧ op = 0x12#8 ∧ imm = 0#24 then save.getD s.savePort else s.savePort } →
    let bad : Host.Outcome State Fault Refusal := .next { t with
      fault := s.fault ||| 0x01#8
      log := s.log ++ [.fault { cause := .badCommand, info := .word (op ++ imm) }]
      result := .none }
    let by' := fun (b : Agent) (i : Instr) => if a = b then exec i t else .refused .wrongContext
    (op = 0x10#8 → step s = by' .producer (.renderFrame imm)) ∧
    (op = 0x11#8 → step s = if imm = 0#24 then by' .producer .snapshot else bad) ∧
    (op = 0x12#8 → step s = if imm = 0#24 then by' .producer .restore else bad) ∧
    (op = 0x13#8 → step s = if imm = 0#24 then by' .producer .producerStep else bad) ∧
    (op = 0x14#8 → step s = by' .callback (.callbackPull imm)) ∧
    (op = 0x15#8 → step s = if imm = 0#24 then by' .producer .stop else bad) ∧
    (op.toNat < 0x10 ∨ 0x15 < op.toNat → step s = bad)

/-- R100. The ten words of the spec's table: each decodes to its operation, and its text assembles to it. -/
def Obligations.EncodingExamples : Prop :=
  decodeWord 0x0102053C#32 = some (.pianoKeyPressed 60 5 2) ∧
  assembleLine "PIANO_KEY_PRESSED 60, 5, 2".toList = some 0x0102053C#32 ∧
  decodeWord 0x02020000#32 = some (.pianoKeyReleased 2) ∧
  assembleLine "PIANO_KEY_RELEASED 2".toList = some 0x02020000#32 ∧
  decodeWord 0x03010045#32 = some (.triggerNote 69 0 1) ∧
  assembleLine "TRIGGER_NOTE 69, 0, 1".toList = some 0x03010045#32 ∧
  decodeWord 0x04000001#32 = some (.soundRomInstanceChanged 1) ∧
  assembleLine "SOUND_ROM_INSTANCE_CHANGED 1".toList = some 0x04000001#32 ∧
  decodeWord 0x10000320#32 = some (.renderFrame 800) ∧
  assembleLine "RENDER_FRAME 800".toList = some 0x10000320#32 ∧
  decodeWord 0x11000000#32 = some .snapshot ∧ assembleLine "SNAPSHOT".toList = some 0x11000000#32 ∧
  decodeWord 0x12000000#32 = some .restore ∧ assembleLine "RESTORE".toList = some 0x12000000#32 ∧
  decodeWord 0x13000000#32 = some .producerStep ∧ assembleLine "PRODUCER_STEP".toList = some 0x13000000#32 ∧
  decodeWord 0x14000100#32 = some (.callbackPull 256) ∧
  assembleLine "CALLBACK_PULL 256".toList = some 0x14000100#32 ∧
  decodeWord 0x15000000#32 = some .stop ∧ assembleLine "STOP".toList = some 0x15000000#32

/-- R67. A transport carries a word as four bytes, bits [7:0] first, and gives it back with the bytes after it. -/
def Obligations.WordTransport : Prop :=
  ∀ (w : Word) (rest : List Byte),
    bytesOfWord w = [w.extractLsb' 0 8, w.extractLsb' 8 8, w.extractLsb' 16 8, w.extractLsb' 24 8] ∧
    wordOfBytes (bytesOfWord w ++ rest) = some (w, rest) ∧
    decodeBytes (bytesOfWord w ++ rest) = (decodeWord w).map (fun i => (i, rest))

/-- R98. An operand that does not fit its field is an assembly error; one that fits is the field, in the source's
order of fields. -/
def Obligations.AssemblerFits : Prop :=
  ∀ note inst ch n : Nat,
    assemble "PIANO_KEY_PRESSED".toList [note, inst, ch] =
      (if note < 256 ∧ inst < 256 ∧ ch < 256 then
        some (0x01#8 ++ BitVec.ofNat 8 ch ++ BitVec.ofNat 8 inst ++ BitVec.ofNat 8 note) else none) ∧
    assemble "TRIGGER_NOTE".toList [note, inst, ch] =
      (if note < 256 ∧ inst < 256 ∧ ch < 256 then
        some (0x03#8 ++ BitVec.ofNat 8 ch ++ BitVec.ofNat 8 inst ++ BitVec.ofNat 8 note) else none) ∧
    assemble "PIANO_KEY_RELEASED".toList [n] =
      (if n < 256 then some (0x02#8 ++ BitVec.ofNat 8 n ++ 0#16) else none) ∧
    assemble "SOUND_ROM_INSTANCE_CHANGED".toList [n] =
      (if n < 2 ^ 24 then some (0x04#8 ++ BitVec.ofNat 24 n) else none) ∧
    assemble "RENDER_FRAME".toList [n] = (if n < 2 ^ 24 then some (0x10#8 ++ BitVec.ofNat 24 n) else none) ∧
    assemble "CALLBACK_PULL".toList [n] = (if n < 2 ^ 24 then some (0x14#8 ++ BitVec.ofNat 24 n) else none)

/-! ## The step -/

/-- R70, R90, R97. A step runs the operation at the head of the order of steps, in the state with that step taken
off: a control word that decodes, written by its agent, a RESTORE word with the operand it brings on the state-save
port; a word applied alone; a word written to the command port; an operation driven directly. With no step pending
the block holds its state. (The model's own: the order as plain data, log 1 to 3; that the port keeps the value last
put there where a RESTORE word brings none, log 11.) -/
def Obligations.StepRunsDecoded : Prop :=
  ∀ (s : State) (rest : List PortEvent) (w : Word),
    (∀ c save, decodeCtl w = some c → s.inputs = .control c.agent w save :: rest →
      step s = exec c.toInstr { s with
        inputs := rest, savePort := if c = .restore then save.getD s.savePort else s.savePort }) ∧
    (∀ c, decodeCmd w = some c → s.inputs = .apply w :: rest → step s = exec c.toInstr { s with inputs := rest }) ∧
    (s.inputs = .command w :: rest → step s = exec (.enqueue w) { s with inputs := rest }) ∧
    (∀ i, s.inputs = .drive i :: rest → step s = exec i { s with inputs := rest }) ∧
    (s.inputs = [] → step s = .next s)

/-- R90. A table word placed where the step takes its next one is the operation the step runs (log 1). -/
def Obligations.FetchedWordRuns : Prop :=
  ∀ (s : State) (nbits w : Nat) (i : Instr), decodeTableWord nbits w = some i → step (s.withFetchWord nbits w) = exec i s

/-! ## Faults (60_exceptions.md) -/

/-- R281, R282, R286. Raising a fault sets the one bit of its code, appends the one event, and does nothing else;
the codes are the spec's. -/
def Obligations.RaiseFaultExact : Prop :=
  (∀ (f : FaultRecord) (s : State),
    (∀ n < 8, (raiseFault f s).fault.getLsbD n = (s.fault.getLsbD n || causeCode f.cause == n + 1)) ∧
    (raiseFault f s).log = s.log ++ [.fault f] ∧
    raiseFault f s = { s with fault := (raiseFault f s).fault, log := (raiseFault f s).log }) ∧
  causeCode .badCommand = 0x01 ∧ causeCode .badChannel = 0x02 ∧ causeCode .badInstrument = 0x03 ∧
  causeCode .badRomSlot = 0x04 ∧ causeCode .badAlgorithm = 0x05 ∧ causeCode .badEnvelope = 0x06 ∧
  causeCode .badTable = 0x07 ∧ causeCode .badDepth = 0x08 ∧
  statusCode .starved = 0x80 ∧ statusCode .noNextFrame = 0x81

/-- R32, R282. FAULT is exactly the bits of the faults in LOG; every step keeps that. -/
def Obligations.FaultLogKept : Prop := ∀ s t : State, FaultLogInv s → step s = .next t → FaultLogInv t

/-- R288. No step clears a FAULT bit or truncates LOG. -/
def Obligations.FaultSticky : Prop :=
  ∀ s t : State, step s = .next t →
    (∀ n, s.fault.getLsbD n = true → t.fault.getLsbD n = true) ∧ ∃ es, t.log = s.log ++ es

/-- R287. No operation reads FAULT or LOG: with any other past recorded before it, a step has the same outcome, and a
next state differs in that past alone. -/
def Obligations.PastNotRead : Prop :=
  ∀ (f : BitVec 8) (l : List Event) (s : State), step (withPast f l s) = mapNext (withPast f l) (step s)

/-! ## Reset (70_reset_and_hazards.md) -/

/-- R311. The state right after a successful reset. R310's checks decide success; R291 refuses every other input. -/
def Obligations.ConstructionState : Prop :=
  ∀ (p : Params) (fs : Num32),
    (∀ rom, RateLegal fs → romAt p.roms p.rom0 = some rom → romFault p.numInstruments fs rom p.rom0 = none →
      ∃ t, construct p fs = .next t ∧ t.params = p ∧ t.engine.ch = List.replicate p.numChannels .empty ∧
        t.engine.fs = fs ∧ t.engine.romId = p.rom0 ∧ t.engine.rom = rom ∧ t.stop = false ∧ t.fault = 0 ∧ t.log = [] ∧
        t.refused = false ∧ t.cmdq = [] ∧ t.outq = [] ∧ t.cur = none) ∧
    ((¬ RateLegal fs ∨ romAt p.roms p.rom0 = none ∨
        ∃ rom, romAt p.roms p.rom0 = some rom ∧ romFault p.numInstruments fs rom p.rom0 ≠ none) →
      construct p fs = .refused .badConstruction)

/-- The reset state is the construction of the model's own inputs (log 4), and meets every invariant stated here. -/
def Obligations.ResetState : Prop :=
  construct Config.params Config.resetFs = .next State.reset ∧ Config.params.wf ∧ FaultLogInv State.reset ∧
    PipelineInv State.reset ∧ ShapeInv State.reset ∧ RomInv State.reset ∧ VoiceInv State.reset ∧ TameInv State.reset

/-! ## Commands (44_engine.md) -/

/-- R228, R233. PIANO_KEY_PRESSED in all its forms: BAD_CHANNEL, then BAD_INSTRUMENT, each with the word and no other
effect; else the channel holds the new On voice, whatever it held, and nothing else changes. (A note whose frequency or
increment SET_FREQUENCY does not accept is refused, R121, R290.) -/
def Obligations.KeyPressed : Prop :=
  ∀ (note inst ch : Byte) (s : State),
    (s.params.numChannels ≤ ch.toNat →
      exec (.pianoKeyPressed note inst ch) s = .next { s with
        fault := s.fault ||| 0x02#8
        log := s.log ++ [.fault { cause := .badChannel, info := .word (0x01#8 ++ ch ++ inst ++ note) }]
        result := .none }) ∧
    (ch.toNat < s.params.numChannels →
      s.params.numInstruments ≤ inst.toNat ∨ romEntry s.engine.rom inst.toNat = none →
      exec (.pianoKeyPressed note inst ch) s = .next { s with
        fault := s.fault ||| 0x04#8
        log := s.log ++ [.fault { cause := .badInstrument, info := .word (0x01#8 ++ ch ++ inst ++ note) }]
        result := .none }) ∧
    (∀ entry, ch.toNat < s.params.numChannels → inst.toNat < s.params.numInstruments →
      romEntry s.engine.rom inst.toNat = some entry → VoiceFits s.params s.engine.fs entry note →
      ∃ c, exec (.voiceNew entry note .On) s = .next { s with result := .slot c } ∧
        exec (.pianoKeyPressed note inst ch) s = .next { s with
          engine := { s.engine with ch := s.engine.ch.set ch.toNat c }, result := .none }) ∧
    (∀ entry, ch.toNat < s.params.numChannels → inst.toNat < s.params.numInstruments →
      romEntry s.engine.rom inst.toNat = some entry → (∀ d, entry = .fm d → d.algorithm.toNat ≤ 11) →
      ¬ VoiceFits s.params s.engine.fs entry note → exec (.pianoKeyPressed note inst ch) s = .refused .nonfiniteInput)

/-- R230, R233. TRIGGER_NOTE in all its forms, as R228 with a Trigger voice and its own opcode. (A note whose frequency
or increment SET_FREQUENCY does not accept is refused, R121, R290.) -/
def Obligations.NoteTriggered : Prop :=
  ∀ (note inst ch : Byte) (s : State),
    (s.params.numChannels ≤ ch.toNat →
      exec (.triggerNote note inst ch) s = .next { s with
        fault := s.fault ||| 0x02#8
        log := s.log ++ [.fault { cause := .badChannel, info := .word (0x03#8 ++ ch ++ inst ++ note) }]
        result := .none }) ∧
    (ch.toNat < s.params.numChannels →
      s.params.numInstruments ≤ inst.toNat ∨ romEntry s.engine.rom inst.toNat = none →
      exec (.triggerNote note inst ch) s = .next { s with
        fault := s.fault ||| 0x04#8
        log := s.log ++ [.fault { cause := .badInstrument, info := .word (0x03#8 ++ ch ++ inst ++ note) }]
        result := .none }) ∧
    (∀ entry, ch.toNat < s.params.numChannels → inst.toNat < s.params.numInstruments →
      romEntry s.engine.rom inst.toNat = some entry → VoiceFits s.params s.engine.fs entry note →
      ∃ c, exec (.voiceNew entry note .Trigger) s = .next { s with result := .slot c } ∧
        exec (.triggerNote note inst ch) s = .next { s with
          engine := { s.engine with ch := s.engine.ch.set ch.toNat c }, result := .none }) ∧
    (∀ entry, ch.toNat < s.params.numChannels → inst.toNat < s.params.numInstruments →
      romEntry s.engine.rom inst.toNat = some entry → (∀ d, entry = .fm d → d.algorithm.toNat ≤ 11) →
      ¬ VoiceFits s.params s.engine.fs entry note → exec (.triggerNote note inst ch) s = .refused .nonfiniteInput)

/-- R231. PIANO_KEY_RELEASED in all its forms: BAD_CHANNEL; no effect on an Empty channel; else ACTIVE of that
channel's voice becomes Off and nothing else changes. A word of it with a reserved bit set is BAD_COMMAND. -/
def Obligations.KeyReleased : Prop :=
  ∀ (ch : Byte) (s : State),
    (s.params.numChannels ≤ ch.toNat →
      exec (.pianoKeyReleased ch) s = .next { s with
        fault := s.fault ||| 0x02#8
        log := s.log ++ [.fault { cause := .badChannel, info := .word (0x02#8 ++ ch ++ 0#16) }]
        result := .none }) ∧
    (ch.toNat < s.params.numChannels → s.engine.ch[ch.toNat]? = some .empty →
      exec (.pianoKeyReleased ch) s = .next { s with result := .none }) ∧
    (∀ v, ch.toNat < s.params.numChannels → s.engine.ch[ch.toNat]? = some (.wt v) →
      exec (.pianoKeyReleased ch) s = .next { s with
        engine := { s.engine with ch := s.engine.ch.set ch.toNat (.wt { v with active := .Off }) }, result := .none }) ∧
    (∀ v, ch.toNat < s.params.numChannels → s.engine.ch[ch.toNat]? = some (.fm v) →
      exec (.pianoKeyReleased ch) s = .next { s with
        engine := { s.engine with ch := s.engine.ch.set ch.toNat (.fm { v with active := .Off }) }, result := .none }) ∧
    (∀ rsv : BitVec 16, rsv ≠ 0#16 → applyWord (0x02#8 ++ ch ++ rsv) s = .ok { s with
      fault := s.fault ||| 0x01#8
      log := s.log ++ [.fault { cause := .badCommand, info := .word (0x02#8 ++ ch ++ rsv) }] })

/-- R232. SOUND_ROM_INSTANCE_CHANGED in all its forms: BAD_ROM_SLOT, or the fault ROM_VALIDATE finds, with the binding
unchanged; else the pair (ROM_ID, ROM) is replaced and nothing else, so voices keep their definitions. -/
def Obligations.RomChanged : Prop :=
  ∀ (slot : BitVec 24) (s : State),
    (romAt s.params.roms slot = none →
      exec (.soundRomInstanceChanged slot) s = .next { s with
        fault := s.fault ||| 0x08#8
        log := s.log ++ [.fault { cause := .badRomSlot, info := .word (0x04#8 ++ slot) }]
        result := .none }) ∧
    (∀ rom f, romAt s.params.roms slot = some rom →
      romFault s.params.numInstruments s.engine.fs rom slot = some f →
      exec (.soundRomInstanceChanged slot) s = .next { s with
        fault := s.fault ||| causeBit f.cause, log := s.log ++ [.fault f], result := .none }) ∧
    (∀ rom, romAt s.params.roms slot = some rom →
      romFault s.params.numInstruments s.engine.fs rom slot = none →
      exec (.soundRomInstanceChanged slot) s = .next { s with
        engine := { s.engine with romId := slot, rom := rom }, result := .none })

/-- R229. What VOICE_NEW builds from either kind of instrument, where every SET_FREQUENCY accepts its frequency; where
one does not, it is refused, and an algorithm above 11 builds no voice (R166; that VOICE_NEW itself then stops is the
model's, log 14). Nothing but the returned value is written. -/
def Obligations.VoiceNewBuilds : Prop :=
  ∀ (note : Byte) (active : ActiveState) (s : State),
    let osc := fun (entry : Instrument) (op : Option (Fin 4)) (len : Nat) =>
      ({ phase := F32.posZero
         freq := noteHz s.params.noteHz entry op note
         inc := F32.div (F32.mul (F32.ofNat len) (noteHz s.params.noteHz entry op note)) s.engine.fs
         len := len
         fs := s.engine.fs } : Osc)
    (∀ d : WavetableDefinition, VoiceFits s.params s.engine.fs (.wt d) note →
      exec (.voiceNew (.wt d) note active) s = .next { s with
        result := .slot (.wt { defn := d, osc := osc (.wt d) none d.data.length,
                               env := envBuild d.envelope s.engine.fs, active := active }) }) ∧
    (∀ d : FMDefinition, VoiceFits s.params s.engine.fs (.fm d) note →
      ∃ v : FMVoice, exec (.voiceNew (.fm d) note active) s = .next { s with result := .slot (.fm v) } ∧
        v.defn = d ∧ v.alg.val = d.algorithm.toNat ∧ v.active = active ∧
        ∀ i : Fin 4, quadGet v.op i =
          { osc := osc (.fm d) (some i) (quadGet d.op i).table.length
            env := envBuild (quadGet d.op i).envelope s.engine.fs
            depth := (quadGet d.op i).modulationDepth
            table := (quadGet d.op i).table }) ∧
    (∀ entry, (∀ d, entry = .fm d → d.algorithm.toNat ≤ 11) → ¬ VoiceFits s.params s.engine.fs entry note →
      exec (.voiceNew entry note active) s = .refused .nonfiniteInput) ∧
    (∀ d : FMDefinition, 11 < d.algorithm.toNat → exec (.voiceNew (.fm d) note active) s = .refused .algorithmRange)

/-- R5, R121, R228. Where the note frequencies are at most 2^96 and FS is at least 1, every instrument of a valid ROM
can be played at every note: no increment overflows. -/
def Obligations.TameNotesFit : Prop :=
  ∀ (s : State) (n : Nat) (entry : Instrument) (note : Byte), NotesTame s → RateLegal s.engine.fs → RomInv s →
    n < s.params.numInstruments → romEntry s.engine.rom n = some entry → VoiceFits s.params s.engine.fs entry note

/-- R191, R226, R190, R61, R63. A ROM instance is valid exactly when every entry is: tables of 1 to 2^24 samples below
256; stage times finite, not negative and of at most 2^32 - 1 ticks; sustain levels in [0, 1]; algorithms of at most
11; finite depths. -/
def Obligations.RomValidity : Prop :=
  ∀ (n : Nat) (fs : Num32) (rom : RomInstance) (slot : BitVec 24),
    let table := fun (t : List Nat) => 1 ≤ t.length ∧ t.length ≤ 2 ^ 24 ∧ ∀ v ∈ t, v < 256
    let time := fun (t : Num32) => F32.isFinite t = true ∧ 0 ≤ F32.toRat t ∧ F32.isFinite (F32.mul t fs) = true ∧
      ⌊F32.toRat (F32.mul t fs)⌋ ≤ 2 ^ 32 - 1
    let env := fun (d : EnvelopeDefinition) => time d.attackTime ∧ time d.decayTime ∧ time d.releaseTime ∧
      F32.isFinite d.sustainLevel = true ∧ 0 ≤ F32.toRat d.sustainLevel ∧ F32.toRat d.sustainLevel ≤ 1
    romFault n fs rom slot = none ↔ ∀ k < n,
      (∀ d, romEntry rom k = some (.wt d) → table d.data ∧ env d.envelope) ∧
      (∀ d, romEntry rom k = some (.fm d) → d.algorithm.toNat ≤ 11 ∧ ∀ i : Fin 4,
        table (quadGet d.op i).table ∧ env (quadGet d.op i).envelope ∧
          F32.isFinite (quadGet d.op i).modulationDepth = true)

/-- R226, R284. ROM_VALIDATE raises the first fault it finds and nothing else, or does nothing: instruments in
ascending index; within an FM instrument BAD_ALGORITHM, then operators in ascending index; within a table and
envelope BAD_TABLE, then BAD_ENVELOPE, then BAD_DEPTH. -/
def Obligations.RomValidateFirst : Prop :=
  ∀ (rom : RomInstance) (slot : BitVec 24) (s : State),
    let fault := fun (c : Cause) (k op : Nat) =>
      (some { cause := c, info := .rom slot k op } : Option FaultRecord)
    let ofEntry := fun (k : Nat) => instrumentFault s.engine.fs slot k (romEntry rom k)
    ((∀ k < s.params.numInstruments, ofEntry k = none) →
      exec (.romValidate rom slot) s = .next { s with result := .none }) ∧
    (∀ k f, k < s.params.numInstruments → (∀ j < k, ofEntry j = none) → ofEntry k = some f →
      exec (.romValidate rom slot) s = .next { s with
        fault := s.fault ||| causeBit f.cause, log := s.log ++ [.fault f], result := .none }) ∧
    (∀ k, romEntry rom k = none → ofEntry k = none) ∧
    (∀ k d, romEntry rom k = some (.wt d) → ofEntry k =
      if tableOk d.data = false then fault .badTable k 0xFF
      else if envOk d.envelope s.engine.fs = false then fault .badEnvelope k 0xFF else none) ∧
    (∀ k d, romEntry rom k = some (.fm d) → 11 < d.algorithm.toNat → ofEntry k = fault .badAlgorithm k 0xFF) ∧
    (∀ k d, romEntry rom k = some (.fm d) → d.algorithm.toNat ≤ 11 →
      let ofOp := fun (i : Fin 4) =>
        if tableOk (quadGet d.op i).table = false then fault .badTable k i
        else if envOk (quadGet d.op i).envelope s.engine.fs = false then fault .badEnvelope k i
        else if F32.isFinite (quadGet d.op i).modulationDepth = false then fault .badDepth k i else none
      (∀ i f, (∀ j < i, ofOp j = none) → ofOp i = some f → ofEntry k = some f) ∧
      ((∀ i, ofOp i = none) → ofEntry k = none))

/-! ## The queue and the drain (44_engine.md) -/

/-- R222. ENQUEUE appends any word, undecoded, and nothing else changes. -/
def Obligations.EnqueueAppends : Prop :=
  ∀ (w : Word) (s : State), exec (.enqueue w) s = .next { s with cmdq := s.cmdq ++ [w], result := .none }

/-- R234, R317. DRAIN empties the queue and applies its words: those with opcode 0x04 in queue order, then the others
in queue order. To apply words is to apply each to the state the one before it left. -/
def Obligations.DrainTwoPass : Prop :=
  (∀ s : State, applyWords [] s = .ok s) ∧
  (∀ (w : Word) (ws : List Word) (s : State),
    (∀ t, applyWord w s = .ok t → applyWords (w :: ws) s = applyWords ws t) ∧
    (∀ r, applyWord w s = .error r → applyWords (w :: ws) s = .error r)) ∧
  ∀ (s : State) (rom rest : List Word),
    rom = s.cmdq.filter (fun w => decide (w.extractLsb' 24 8 = 0x04#8)) →
    rest = s.cmdq.filter (fun w => decide (w.extractLsb' 24 8 ≠ 0x04#8)) →
    (∀ t, applyWords (rom ++ rest) { s with cmdq := [] } = .ok t → exec .drain s = .next { t with result := .none }) ∧
    (∀ r, applyWords (rom ++ rest) { s with cmdq := [] } = .error r → exec .drain s = .refused r)

/-- R234. To apply a word is to execute the command it decodes to: the meanings of the four commands are what a drain
does. -/
def Obligations.AppliedWordIsCommand : Prop :=
  ∀ (w : Word) (s : State) (c : Command), decodeCmd w = some c →
    exec c.toInstr s = answer (applyWord w s) (fun t => { t with result := .none })

/-- R235. A command that faults is rejected: it has no effect except its FAULT bit and its LOG entry. After every
word that applies, faulting or not, the drain goes on with the next one, in the state that word left. -/
def Obligations.FaultConfined : Prop :=
  ∀ (w : Word) (ws : List Word) (s t : State), applyWord w s = .ok t →
    applyWords (w :: ws) s = applyWords ws t ∧
      (t.fault = s.fault ∧ t.log = s.log ∨
        ∃ f, t = { s with fault := s.fault ||| causeBit f.cause, log := s.log ++ [.fault f] })

/-- R234. Where nothing overflows, a drain of any queue completes; the queue is empty, and nothing outside CH, the ROM
binding, FAULT, LOG and CMDQ has changed (the returned value apart, log 13). -/
def Obligations.DrainCompletes : Prop :=
  ∀ s : State, EngineLegal s.engine → RomInv s → TameInv s →
    ∃ t, exec .drain s = .next t ∧ t.cmdq = [] ∧ t.engine.fs = s.engine.fs ∧
      t.engine.ch.length = s.engine.ch.length ∧
      t = { s with engine := t.engine, fault := t.fault, log := t.log, cmdq := [], result := .none }

/-! ## Ticks and frames (44_engine.md) -/

/-- R236, R238. MIX_TICK: every channel ticks once, an Empty one contributes nothing, and the sample is the plain sum
of the others in ascending channel order from +0.0; nothing else changes. A channel whose tick is refused (R290) makes
the step refused. -/
def Obligations.MixTickSums : Prop :=
  (∀ s : State, EngineLegal s.engine → (∀ c ∈ s.engine.ch, ChannelTame c) →
    ∃ outs : List (Option Num32 × Channel),
      List.Forall₂ (fun (c : Channel) (o : Option Num32 × Channel) =>
        match c with
        | .empty => o = (none, .empty)
        | .wt v => ∃ y v', voiceTick v = .ok (y, v') ∧ o = (some y, .wt v')
        | .fm v => ∃ y v', fmTick s.params.algTable v = .ok (y, v') ∧ o = (some y, .fm v')) s.engine.ch outs ∧
      exec .mixTick s = .next { s with
        engine := { s.engine with ch := outs.map (fun o => o.2) }
        result := .num ((outs.filterMap (fun o => o.1)).foldl F32.add F32.posZero) }) ∧
  ∀ (s : State) (pre post : List Channel) (c : Channel) (r : Refusal), s.engine.ch = pre ++ c :: post →
    (∀ d ∈ pre, ChannelLegal d ∧ ChannelTame d) →
    (∃ v, c = .wt v ∧ voiceTick v = .error r) ∨ (∃ v, c = .fm v ∧ fmTick s.params.algTable v = .error r) →
    exec .mixTick s = .refused r

/-- R239. The sum is finite and lies in [0, 4 × NUM_CHANNELS]. -/
def Obligations.MixRange : Prop :=
  ∀ (s t : State) (y : Num32), EngineLegal s.engine → (∀ c ∈ s.engine.ch, ChannelTame c) → ShapeInv s → s.params.wf →
    exec .mixTick s = .next t → t.result = .num y →
    F32.isFinite y = true ∧ F32.le F32.posZero y = true ∧ F32.le y (F32.ofNat (4 * s.params.numChannels)) = true

/-- R237, R66. RENDER_FRAME is a drain, then `count` MIX_TICKs whose samples are the frame in ascending index. If the
drain or one of the ticks is refused (R290), it is. -/
def Obligations.RenderFrameRuns : Prop :=
  (∀ (s : State) (count : BitVec 24), EngineLegal s.engine → RomInv s → TameInv s →
    ∃ (b : Frame) (st : Nat → State), b.length = count.toNat ∧ exec .drain s = .next (st 0) ∧
      (∀ i < count.toNat, ∃ x, b[i]? = some x ∧ exec .mixTick (st i) = .next (st (i + 1)) ∧ (st (i + 1)).result = .num x) ∧
      exec (.renderFrame count) s = .next { st count.toNat with result := .frame b }) ∧
  ∀ (s : State) (count : BitVec 24) (r : Refusal),
    (exec .drain s = .refused r → exec (.renderFrame count) s = .refused r) ∧
    ∀ (k : Nat) (st : Nat → State), k < count.toNat → exec .drain s = .next (st 0) →
      (∀ i < k, exec .mixTick (st i) = .next (st (i + 1))) → exec .mixTick (st k) = .refused r →
      exec (.renderFrame count) s = .refused r

/-- R241. RENDER_FRAME is a function of the parameters, SoundEngineData and the queued words: states that agree on
those, whatever else they hold, give the same refusal, or the same frame and SoundEngineData. -/
def Obligations.FrameDeterminism : Prop :=
  ∀ (s t : State) (count : BitVec 24), s.params = t.params → s.engine = t.engine → s.cmdq = t.cmdq →
    (∃ r, exec (.renderFrame count) s = .refused r ∧ exec (.renderFrame count) t = .refused r) ∨
    (∃ b s' t', exec (.renderFrame count) s = .next s' ∧ exec (.renderFrame count) t = .next t' ∧
      s'.result = .frame b ∧ t'.result = .frame b ∧ s'.engine = t'.engine)

/-! ## State-save port (44_engine.md) -/

/-- R244, R36. SNAPSHOT returns a copy of SoundEngineData on the state-save port; the engine and everything else are
unchanged. -/
def Obligations.SnapshotCopies : Prop :=
  ∀ s : State, exec .snapshot s = .next { s with savePort := s.engine, result := .data s.engine }

/-- R245. RESTORE of a value with the same FS, the same ROM binding and a slot for each channel replaces every channel
and nothing else; any other value is refused. (The count of slots is part of the value's shape, R36, log 12.) -/
def Obligations.RestoreReplaces : Prop :=
  ∀ s : State,
    (F32.eq s.savePort.fs s.engine.fs = true → s.savePort.romId = s.engine.romId → s.savePort.rom = s.engine.rom →
      s.savePort.ch.length = s.params.numChannels →
      exec .restore s = .next { s with engine := { s.engine with ch := s.savePort.ch }, result := .none }) ∧
    (F32.eq s.savePort.fs s.engine.fs = false ∨ s.savePort.romId ≠ s.engine.romId ∨ s.savePort.rom ≠ s.engine.rom ∨
      s.savePort.ch.length ≠ s.params.numChannels → exec .restore s = .refused .restoreMismatch)

/-- R246. The round-trip law. RESTORE right after SNAPSHOT leaves SoundEngineData as it was. And whatever happened
since, a RESTORE of the snapshot, where it is not refused, followed by any number of frames gives exactly the samples
and the SoundEngineData of as many frames rendered from the snapshot on, if CMDQ holds the same words at each drain;
between two frames anything may happen that leaves the parameters and SoundEngineData alone. (That the port still
holds the snapshot is a premise: what the port keeps is the model's, log 11.) -/
def Obligations.SnapshotRoundTrip : Prop :=
  (∀ s : State, ShapeInv s → RateLegal s.engine.fs →
    ∃ s' t, exec .snapshot s = .next s' ∧ exec .restore s' = .next t ∧ t.engine = s.engine) ∧
  (∀ (s s' u v : State) (n : Nat) (count : Nat → BitVec 24) (a a' b : Nat → State),
    exec .snapshot s = .next s' → u.savePort = s'.savePort → u.params = s.params → u.engine.fs = s.engine.fs →
    exec .restore u = .next v →
    (a 0).params = s'.params → (a 0).engine = s'.engine → (b 0).params = v.params → (b 0).engine = v.engine →
    (∀ i < n, (b i).cmdq = (a i).cmdq) →
    (∀ i < n, exec (.renderFrame (count i)) (a i) = .next (a' i) ∧
      (a (i + 1)).params = (a' i).params ∧ (a (i + 1)).engine = (a' i).engine) →
    (∀ i < n, ∀ g, exec (.renderFrame (count i)) (b i) = .next g →
      (b (i + 1)).params = g.params ∧ (b (i + 1)).engine = g.engine) →
    ∀ i < n, ∃ g, exec (.renderFrame (count i)) (b i) = .next g ∧ g.result = (a' i).result ∧ g.engine = (a' i).engine)

/-- R247. STOP sets STOP and nothing else; twice is once; PRODUCER_STEP then does nothing. -/
def Obligations.StopCooperative : Prop :=
  ∀ s : State, exec .stop s = .next { s with stop := true, result := .none } ∧
    exec .stop { s with stop := true, result := .none } = .next { s with stop := true, result := .none } ∧
    exec .producerStep { s with stop := true } = .next { s with stop := true, result := .producer .stopped }

/-! ## Frame pipeline (45_pipeline.md) -/

/-- R261, R262. PRODUCER_STEP in all its forms. Stopped and Deferred change nothing, so commands wait in CMDQ; else
one frame of SPF samples is rendered, pushed at the tail of OUTQ and offered to the tap, and the rest is what
RENDER_FRAME leaves; a frame that is refused makes the step refused. R323: SPF is the floor of the exact FS / 60, so 60
frames hold FS samples where FS is a multiple of 60, and fewer otherwise. (That a frame holds all SPF samples also where
SPF is 2^24 or more is the model's, log 23.) -/
def Obligations.ProducerSteps : Prop :=
  (∀ s : State,
    (s.stop = true → exec .producerStep s = .next { s with result := .producer .stopped }) ∧
    (s.stop = false → 2 ≤ s.outq.length → exec .producerStep s = .next { s with result := .producer .deferred }) ∧
    (s.stop = false → s.outq.length < 2 → EngineLegal s.engine → RomInv s → TameInv s →
      ∃ b t, renderFrame (samplesPerFrame s.engine.fs) s = .ok (b, t) ∧ b.length = samplesPerFrame s.engine.fs ∧
        exec .producerStep s = .next { t with
          outq := s.outq ++ [b], tap := some b, result := .producer .produced }) ∧
    (∀ r, s.stop = false → s.outq.length < 2 → renderFrame (samplesPerFrame s.engine.fs) s = .error r →
      exec .producerStep s = .refused r)) ∧
  (∀ fs : Num32, RateLegal fs → (samplesPerFrame fs : Int) = ⌊F32.toRat fs / 60⌋ ∧
    ((∃ k : Nat, F32.toRat fs = 60 * k) → (60 * samplesPerFrame fs : ℚ) = F32.toRat fs) ∧
    ((¬ ∃ k : Nat, F32.toRat fs = 60 * k) → (60 * samplesPerFrame fs : ℚ) < F32.toRat fs)) ∧
  samplesPerFrame (F32.ofNat 48000) = 800 ∧ samplesPerFrame (F32.ofNat 44100) = 735 ∧
  samplesPerFrame (F32.ofNat 50) = 0 ∧ samplesPerFrame (F32.ofNat 120) = 2

/-- R264. CALLBACK_PULL is `count` NEXT_SAMPLEs in ascending order, whatever the state. -/
def Obligations.CallbackPulls : Prop :=
  ∀ (s : State) (count : BitVec 24),
    ∃ (o : List Num32) (st : Nat → State), o.length = count.toNat ∧ st 0 = s ∧
      (∀ i < count.toNat, ∃ x, o[i]? = some x ∧ exec .nextSample (st i) = .next (st (i + 1)) ∧
        (st (i + 1)).result = .num x) ∧
      exec (.callbackPull count) s = .next { st count.toNat with result := .samples o }

/-- R265, R286. NEXT_SAMPLE in all its forms: the next sample of CUR; else the first sample of the first queued frame
that is not empty; else silence and one event, STARVED if no buffer has been loaded since reset. -/
def Obligations.NextSampleForms : Prop :=
  ∀ s : State,
    (∀ (buf : Frame) (rd : Nat) (x : Num32), s.cur = some { buf := buf, rd := rd } → buf[rd]? = some x →
      exec .nextSample s = .next { s with cur := some { buf := buf, rd := rd + 1 }, result := .num x }) ∧
    (∀ (k : Nat) (x : Num32) (b : Frame) (q : List Frame), (∀ c, s.cur = some c → c.buf.length ≤ c.rd) →
      s.outq = List.replicate k [] ++ (x :: b) :: q →
      exec .nextSample s = .next { s with outq := q, cur := some { buf := x :: b, rd := 1 }, result := .num x }) ∧
    (s.cur = none → s.outq = [] →
      exec .nextSample s = .next { s with log := s.log ++ [.status .starved], result := .num F32.posZero }) ∧
    (∀ c, s.cur = some c → c.buf.length ≤ c.rd → s.outq = [] →
      exec .nextSample s = .next { s with log := s.log ++ [.status .noNextFrame], result := .num F32.posZero }) ∧
    (∀ k, (∀ c, s.cur = some c → c.buf.length ≤ c.rd) → s.outq = List.replicate (k + 1) [] →
      exec .nextSample s = .next { s with
        outq := [], cur := some { buf := [], rd := 0 }
        log := s.log ++ [.status .noNextFrame], result := .num F32.posZero })

/-- R267, R268, R285. A pull emits the samples rendered and not yet emitted, in order, each once, then silence; what
is left is exactly the rest, and each silent slot logs exactly one event. Only CUR, OUTQ and LOG change. -/
def Obligations.PullInOrder : Prop :=
  ∀ (s : State) (count : BitVec 24), ∃ (t : State) (es : List StatusCode),
    exec (.callbackPull count) s = .next t ∧
    t.result = .samples ((pendingSamples s).take count.toNat ++
      List.replicate (count.toNat - (pendingSamples s).length) F32.posZero) ∧
    pendingSamples t = (pendingSamples s).drop count.toNat ∧
    t.log = s.log ++ es.map Event.status ∧ es.length = count.toNat - (pendingSamples s).length ∧
    t = { s with cur := t.cur, outq := t.outq, log := t.log, result := t.result }

/-- R263, R268, R300. What PRODUCER_STEP renders it delivers: the frame is the one RENDER_FRAME renders of SPF samples,
the engine and CMDQ are as that leaves them, the frame is appended to the samples not yet emitted, and its copy is
offered to the tap. -/
def Obligations.ProducerDelivers : Prop :=
  ∀ s t : State, exec .producerStep s = .next t → t.result = .producer .produced →
    ∃ b u, renderFrame (samplesPerFrame s.engine.fs) s = .ok (b, u) ∧ t.engine = u.engine ∧ t.cmdq = u.cmdq ∧
      t.fault = u.fault ∧ t.log = u.log ∧ b.length = samplesPerFrame s.engine.fs ∧ pendingSamples t = pendingSamples s ++ b ∧ t.tap = some b ∧
      t.outq = s.outq ++ [b] ∧ t.cur = s.cur

/-- R34, R35, R269. Every step keeps the pipeline within its capacity and RD within BUF, so that at most 3 × SPF samples
are ever rendered and not yet emitted. -/
def Obligations.PipelineKept : Prop :=
  (∀ s t : State, PipelineInv s → step s = .next t → PipelineInv t) ∧
    ∀ s : State, PipelineInv s → (pendingSamples s).length ≤ 3 * samplesPerFrame s.engine.fs

/-! ## Whole-machine rules -/

/-- R31 to R35, R65, R71, R290, R296, R300, R310. Which operation may write which register: an operation that completes
changes no register but those it is listed for here. No operation that completes writes REFUSED; a step that is
refused leaves the state it was tried in with that mark. R296: a control word of the Callback or the Editor writes
nothing but CUR and OUTQ, what it logs and what it returns, and the Editor's command word nothing but CMDQ, so those
are all they share with the Producer. (The model's own are the clauses on what it holds for itself:
the state-save port as a register, log 11; the tap's copy, log 13; the pending steps, log 1; where the mark of a
refused step is seen, log 10.) -/
def Obligations.WhoWrites : Prop :=
  (∀ (s t : State) (a : Agent) (w : Word) (save : Option SoundEngineData) (rest : List PortEvent),
    s.inputs = .control a w save :: rest → a ≠ .producer → step s = .next t →
    t = { s with
      inputs := rest, cur := t.cur, outq := t.outq, log := t.log, fault := t.fault, result := t.result }) ∧
  (∀ (s t : State) (w : Word) (rest : List PortEvent), s.inputs = .command w :: rest → step s = .next t →
    t = { s with inputs := rest, cmdq := s.cmdq ++ [w], result := .none }) ∧
  (∀ (s : State) (r : Refusal), step s = .refused r → observe s = { s with refused := true }) ∧
  (∀ s t : State, step s = .next t → observe s = t ∧ t.refused = s.refused) ∧
  ∀ (i : Instr) (s t : State), exec i s = .next t →
    t.params = s.params ∧ t.engine.fs = s.engine.fs ∧ t.refused = s.refused ∧ t.inputs = s.inputs ∧
    (i ≠ .stop → t.stop = s.stop) ∧ (s.stop = true → t.stop = true) ∧
    (i ≠ .snapshot → t.savePort = s.savePort) ∧
    (i ≠ .producerStep → t.tap = s.tap) ∧
    ((∀ w, i ≠ .enqueue w) → i ≠ .drain → (∀ n, i ≠ .renderFrame n) → i ≠ .producerStep → t.cmdq = s.cmdq) ∧
    ((∀ n, i ≠ .callbackPull n) → i ≠ .nextSample → t.cur = s.cur) ∧ (s.cur ≠ none → t.cur ≠ none) ∧
    ((∀ n, i ≠ .callbackPull n) → i ≠ .nextSample → i ≠ .producerStep → t.outq = s.outq) ∧
    ((∀ w, i ≠ .soundRomInstanceChanged w) → i ≠ .drain → (∀ n, i ≠ .renderFrame n) → i ≠ .producerStep →
      t.engine.romId = s.engine.romId ∧ t.engine.rom = s.engine.rom) ∧
    (i = .snapshot ∨ i = .stop ∨ (∃ w, i = .enqueue w) ∨ (∃ n, i = .callbackPull n) ∨ i = .nextSample ∨
      (∃ x l, i = .wrap x l) ∨ (∃ x q, i = .lerp x q) ∨ (∃ d f, i = .envBuild d f) ∨ (∃ r k, i = .romValidate r k) ∨
      (∃ e n a, i = .voiceNew e n a) ∨ (∃ k, i = .soundRomInstanceChanged k) → t.engine.ch = s.engine.ch)

/-- R29, R31, R64. Every step keeps one slot per channel, and the bound ROM the valid instance its slot id names. -/
def Obligations.BindingKept : Prop :=
  ∀ s t : State, ShapeInv s ∧ RomInv s → step s = .next t → ShapeInv t ∧ RomInv t

/-- R123, R24, R25. Every step keeps every voice legal: every PHASE finite, in [0, L) and not -0.0, every increment
finite, every envelope counter within its stage. As R123 does, it takes it that RESTORE brings only such values. -/
def Obligations.VoicesKept : Prop :=
  ∀ s t : State, VoiceInv s → step s = .next t → VoiceInv t

/-- The model's own (log 15): a micro-operation driven directly on an oscillator, an envelope or a voice that is not
there is refused by name. -/
def Obligations.AbsentOperandRefused : Prop :=
  ∀ (s : State) (r : UnitRef) (ch : Byte),
    (oscOf r s.engine = none → (∀ hz, exec (.setFrequency r hz) s = .refused .absentOperand) ∧
      exec (.oscTick r) s = .refused .absentOperand) ∧
    (envOf r s.engine = none → ∀ a, exec (.envTick r a) s = .refused .absentOperand) ∧
    ((∀ v, s.engine.ch[ch.toNat]? ≠ some (.wt v)) → exec (.voiceTick ch) s = .refused .absentOperand) ∧
    ((∀ v, s.engine.ch[ch.toNat]? ≠ some (.fm v)) → exec (.fmTick ch) s = .refused .absentOperand)

/-! ## Oscillator (40_oscillator.md) -/

/-- R121. SET_FREQUENCY writes FREQ and INC of the oscillator it names, PHASE never, and nothing else; a frequency or
an increment that is not finite is refused. -/
def Obligations.SetFrequencyWrites : Prop :=
  ∀ (r : UnitRef) (hz : Num32) (s : State) (o : Osc), oscOf r s.engine = some o →
    let inc := F32.div (F32.mul (F32.ofNat o.len) hz) o.fs
    (F32.isFinite hz = true → F32.isFinite inc = true →
      ∃ d, exec (.setFrequency r hz) s = .next { s with engine := d, result := .none } ∧
        oscOf r d = some { o with freq := hz, inc := inc } ∧ d.romId = s.engine.romId ∧ d.rom = s.engine.rom ∧
        d.fs = s.engine.fs ∧
        (∀ v, s.engine.ch[r.channel.toNat]? = some (.wt v) → d.ch = s.engine.ch.set r.channel.toNat
          (.wt { v with osc := { o with freq := hz, inc := inc } })) ∧
        (∀ v i, s.engine.ch[r.channel.toNat]? = some (.fm v) → r.operator = some i →
          d.ch = s.engine.ch.set r.channel.toNat (.fm { v with
            op := quadSet v.op i { quadGet v.op i with osc := { o with freq := hz, inc := inc } } }))) ∧
    (F32.isFinite hz = false ∨ F32.isFinite inc = false → exec (.setFrequency r hz) s = .refused .nonfiniteInput)

/-- R122, R123. WRAP of a finite x completes and writes no register. Its value is legal, and is the exact floored
remainder x − L × floor(x / L) rounded once, with a result of L taken to 0; a phase in [0, L) is not changed. Any other
x is refused. -/
def Obligations.WrapReduces : Prop :=
  ∀ (x : Num32) (len : Nat) (s : State),
    (F32.isFinite x = true → 1 ≤ len → len ≤ 2 ^ 24 →
      ∃ y, exec (.wrap x len) s = .next { s with result := .num y } ∧ PhaseLegal y len ∧
        F32.toInt y = F32.toInt (F32.pack false (F32.roundMag (F32.toInt x % (len * 2 ^ 149)).toNat 1)) % (len * 2 ^ 149) ∧
        (0 ≤ F32.toRat x → F32.toRat y = exactWrap (F32.toRat x) len) ∧ (PhaseLegal x len → y = x)) ∧
    (F32.isFinite x = false → exec (.wrap x len) s = .refused .nonfiniteInput)

/-- R124. OSC_TICK returns the phase from before the advance and leaves WRAP(PHASE + INC, L), touching nothing else;
on a legal oscillator it always completes. -/
def Obligations.OscTickAdvances : Prop :=
  ∀ (r : UnitRef) (s : State) (o : Osc), oscOf r s.engine = some o →
    (OscLegal o → F32.isFinite (F32.add o.phase o.inc) = true) ∧
    (F32.isFinite (F32.add o.phase o.inc) = true →
      ∃ d q, exec (.wrap (F32.add o.phase o.inc) o.len) s = .next { s with result := .num q } ∧
        exec (.oscTick r) s = .next { s with engine := d, result := .num o.phase } ∧
        oscOf r d = some { o with phase := q } ∧ d.romId = s.engine.romId ∧ d.rom = s.engine.rom ∧
        d.fs = s.engine.fs ∧
        (∀ v, s.engine.ch[r.channel.toNat]? = some (.wt v) → d.ch = s.engine.ch.set r.channel.toNat
          (.wt { v with osc := { o with phase := q } })) ∧
        (∀ v i, s.engine.ch[r.channel.toNat]? = some (.fm v) → r.operator = some i →
          d.ch = s.engine.ch.set r.channel.toNat (.fm { v with
            op := quadSet v.op i { quadGet v.op i with osc := { o with phase := q } } }))) ∧
    (F32.isFinite (F32.add o.phase o.inc) = false → exec (.oscTick r) s = .refused .nonfiniteInput)

/-- R125. In the exact instance, k ticks advance the phase by k × INC modulo L, with INC = L × hz / FS. -/
def Obligations.ExactTicks : Prop :=
  ∀ (o : ExactOsc) (hz : ℚ) (k : Nat), 1 ≤ o.len → 0 ≤ o.phase → o.phase < o.len →
    (exactOscTicks k (exactSetFrequency o hz)).phase = exactWrap (o.phase + k * (o.len * hz / o.fs)) o.len ∧
      0 ≤ (exactOscTicks k (exactSetFrequency o hz)).phase ∧ (exactOscTicks k (exactSetFrequency o hz)).phase < o.len

/-! ## Wavetable voice (41_voice.md) -/

/-- R141 to R143, R62. LERP of an index in [0, L) of a checked table completes, writes no register and gives a value
in [0, 1]; on a whole index it is that entry over 255, whatever the next; any other index is refused. -/
def Obligations.LerpReads : Prop :=
  ∀ (t : List Nat) (q : Num32) (s : State),
    (tableOk t = true → F32.isFinite q = true → F32.le F32.posZero q = true → F32.lt q (F32.ofNat t.length) = true →
      ∃ (i a b : Nat) (y : Num32), F32.floor q = (i : Int) ∧ t[i]? = some a ∧ t[(i + 1) % t.length]? = some b ∧
        y = F32.div (F32.add (F32.ofNat a) (F32.mul (F32.sub (F32.ofNat b) (F32.ofNat a)) (F32.sub q (F32.ofNat i))))
          (F32.ofNat 255) ∧
        exec (.lerp t q) s = .next { s with result := .num y } ∧ InUnit y ∧
        (F32.toInt q = F32.toInt (F32.ofNat i) → y = F32.div (F32.ofNat a) (F32.ofNat 255))) ∧
    (F32.le F32.posZero q = false ∨ F32.lt q (F32.ofNat t.length) = false →
      exec (.lerp t q) s = .refused .indexRange)

/-- R146, R147, R150. VOICE_TICK of a legal voice: the sample is LERP at the phase before the advance times the
envelope's amplitude, in [0, 1]; the oscillator advances by OSC_TICK, the envelope by ENV_TICK, Trigger becomes Off;
no other channel and no other register changes. -/
def Obligations.VoiceTicks : Prop :=
  ∀ (ch : Byte) (s : State) (v : WaveVoice), s.engine.ch[ch.toNat]? = some (.wt v) → WaveVoiceLegal v →
    ∃ y q, lerp v.defn.data v.osc.phase = .ok y ∧ wrap (F32.add v.osc.phase v.osc.inc) v.osc.len = .ok q ∧
      InUnit (F32.mul y (envTick v.env v.active).1) ∧
      exec (.voiceTick ch) s = .next { s with
        engine := { s.engine with ch := s.engine.ch.set ch.toNat (.wt { v with
          osc := { v.osc with phase := q }
          env := (envTick v.env v.active).2
          active := if v.active = .Trigger then .Off else v.active }) }
        result := .num (F32.mul y (envTick v.env v.active).1) }

/-! ## FM voice (42_fm.md) -/

/-- R163, R164, R166. The two algorithms the spec gives; the other ten are the parameter. -/
def Obligations.AlgorithmTable : Prop :=
  ∀ table : Vector AlgorithmDefinition 10,
    algDef table 0 = { carriers := { o0 := false, o1 := false, o2 := false, o3 := true },
                       m1 := .single 0, m2 := .single 1, m3 := .single 2 } ∧
    algDef table 11 = { carriers := { o0 := true, o1 := true, o2 := true, o3 := true },
                        m1 := .none, m2 := .none, m3 := .none } ∧
    ∀ n : Fin 10, algDef table (Fin.ofNat 12 (n.val + 1)) = table[n]

/-- R167, R168, R162. MODSUM is the left-to-right sum of the outputs it names, for the entry of every operator, and
reads no output from its own operator's index on. -/
def Obligations.ModulationSums : Prop :=
  (∀ (n : Nat) (out : Quad Num32), n ≤ 3 → modSum (.none : ModulatedBy n) out = F32.posZero ∧
    ∀ a b c : Fin n,
      let o := fun (i : Fin n) => quadGet out (Fin.ofNat 4 i.val)
      modSum (.single a) out = o a ∧ modSum (.double a b) out = F32.add (o a) (o b) ∧
        modSum (.triple a b c) out = F32.add (F32.add (o a) (o b)) (o c)) ∧
  (∀ (n : Nat) (e : ModulatedBy n) (out out' : Quad Num32), n ≤ 3 →
    (∀ i : Fin 4, i.val < n → quadGet out i = quadGet out' i) → modSum e out = modSum e out')

/-- R127, R168, R170 to R173, R175. FM_TICK of a legal voice whose offsets stay finite: each operator reads at its
phase offset by DEPTH times the sum of the modulators' outputs of this same tick; its own phase and envelope advance
as OSC_TICK and ENV_TICK alone; the sample is the plain sum of the carriers, in [0, number of carriers]; Trigger
becomes Off; nothing else changes. An operator whose offset phase is not finite makes the step refused (R290). -/
def Obligations.FmTicks : Prop :=
  ∀ (ch : Byte) (s : State) (v : FMVoice), s.engine.ch[ch.toNat]? = some (.fm v) → FMVoiceLegal v →
    let alg := algDef s.params.algTable v.alg
    let index := fun (out : Quad Num32) (i : Fin 4) =>
      let m := match i with
        | 0 => F32.posZero
        | 1 => modSum alg.m1 out
        | 2 => modSum alg.m2 out
        | 3 => modSum alg.m3 out
      F32.add (quadGet v.op i).osc.phase (F32.mul (quadGet v.op i).depth m)
    let reads := fun (out : Quad Num32) (i : Fin 4) => ∃ q l,
      wrap (index out i) (quadGet v.op i).osc.len = .ok q ∧ lerp (quadGet v.op i).table q = .ok l ∧
        quadGet out i = F32.mul l (envTick (quadGet v.op i).env v.active).1
    let carriers := ([0, 1, 2, 3] : List (Fin 4)).filter (fun i => quadGet alg.carriers i)
    (ChannelTame (.fm v) → ∃ (out : Quad Num32) (v' : FMVoice) (y : Num32),
      (∀ i : Fin 4, reads out i ∧
        let p := quadGet v.op i
        ∃ w, wrap (F32.add p.osc.phase p.osc.inc) p.osc.len = .ok w ∧
          quadGet v'.op i = { p with osc := { p.osc with phase := w }, env := (envTick p.env v.active).2 }) ∧
      v'.defn = v.defn ∧ v'.alg = v.alg ∧ v'.active = (if v.active = .Trigger then .Off else v.active) ∧
      y = carriers.foldl (fun acc i => F32.add acc (quadGet out i)) F32.posZero ∧
      F32.isFinite y = true ∧ F32.le F32.posZero y = true ∧ F32.le y (F32.ofNat carriers.length) = true ∧
      exec (.fmTick ch) s = .next { s with
        engine := { s.engine with ch := s.engine.ch.set ch.toNat (.fm v') }, result := .num y }) ∧
    (∀ (out : Quad Num32) (i : Fin 4), (∀ j < i, reads out j) → F32.isFinite (index out i) = false →
      exec (.fmTick ch) s = .refused .nonfiniteInput)

/-! ## Envelope (43_envelope.md) -/

/-- R192. ENV_BUILD of a definition ENV_CHECK accepts: Idle at level 0, with stage lengths max(1, floor(t × FS)); no
register is written. Of any other definition it completes too, and its counters are legal (the model's, log 9). -/
def Obligations.EnvBuilds : Prop :=
  (∀ (d : EnvelopeDefinition) (fs : Num32) (s : State), envOk d fs = true →
    ∃ e : Env, exec (.envBuild d fs) s = .next { s with result := .env e } ∧
      e.stage = .idle ∧ e.k = 0 ∧ e.level = F32.posZero ∧ e.start = F32.posZero ∧ e.sus = d.sustainLevel ∧
      (e.na.toNat : Int) = max 1 ⌊F32.toRat (F32.mul d.attackTime fs)⌋ ∧
      (e.nd.toNat : Int) = max 1 ⌊F32.toRat (F32.mul d.decayTime fs)⌋ ∧
      (e.nr.toNat : Int) = max 1 ⌊F32.toRat (F32.mul d.releaseTime fs)⌋) ∧
  ∀ (d : EnvelopeDefinition) (fs : Num32) (s : State), ∃ e : Env,
    exec (.envBuild d fs) s = .next { s with result := .env e } ∧ EnvLegal e ∧
      e.stage = .idle ∧ e.k = 0 ∧ e.level = F32.posZero ∧ e.start = F32.posZero ∧ e.sus = d.sustainLevel

/-- R194, R195, R196. One ENV_TICK: entry by the table of R196, then one step of the stage entered. It completes on
every envelope, returns the clamped level and writes only that envelope. -/
def Obligations.EnvTicks : Prop :=
  ∀ (r : UnitRef) (a : ActiveState) (s : State) (e : Env), envOf r s.engine = some e →
    ∃ (d : SoundEngineData) (e' : Env), exec (.envTick r a) s = .next { s with
        engine := d, result := .num (F32.clamp01 e'.level) } ∧
      envOf r d = some e' ∧ d.romId = s.engine.romId ∧ d.rom = s.engine.rom ∧ d.fs = s.engine.fs ∧
      (∀ v, s.engine.ch[r.channel.toNat]? = some (.wt v) →
        d.ch = s.engine.ch.set r.channel.toNat (.wt { v with env := e' })) ∧
      (∀ v i, s.engine.ch[r.channel.toNat]? = some (.fm v) → r.operator = some i →
        d.ch = s.engine.ch.set r.channel.toNat (.fm { v with
          op := quadSet v.op i { quadGet v.op i with env := e' } })) ∧
      let attack : Env := { e with stage := .attack, k := 0, start := F32.posZero }
      let release : Env := { e with stage := .release, k := 0, start := e.level }
      let ramp' := fun (f : Env) (target : Num32) (n : BitVec 32) (next : Stage) (ns : Num32) =>
        if f.k + 1 = n then { f with level := target, stage := next, k := 0, start := ns }
        else { f with k := f.k + 1, level := F32.add f.start (F32.div (F32.mul (F32.sub target f.start)
          (F32.ofNat (f.k + 1).toNat)) (F32.ofNat n.toNat)) }
      let up := fun f => ramp' f F32.one f.na .decay F32.one
      let down := fun f => ramp' f F32.posZero f.nr .idle F32.posZero
      (a = .Trigger → e' = up attack) ∧
      (a = .On → e.stage = .idle ∨ e.stage = .release → e' = up attack) ∧
      (a = .On → e.stage = .attack → e' = up e) ∧
      (a = .On → e.stage = .decay → e' = ramp' e e.sus e.nd .sustain e.sus) ∧
      (a = .On → e.stage = .sustain → e' = { e with level := e.sus }) ∧
      (a = .Off → e.stage = .attack ∨ e.stage = .decay ∨ e.stage = .sustain → e' = down release) ∧
      (a = .Off → e.stage = .release → e' = down e) ∧
      (a = .Off → e.stage = .idle → e' = { e with level := F32.posZero })

/-- R197. The amplitude ENV_TICK returns is LEVEL clamped: it lies in [0, 1] whatever the envelope holds, is LEVEL where
that lies in [0, 1] (+0.0 for -0.0, log 8), 0 below and 1 above. Where a release lasts at most 2^24
ticks, LEVEL itself does too, from every envelope that meets R25; that bound is the model's (a longer counter rounds,
R11), so the second clause is derived. -/
def Obligations.LevelRange : Prop :=
  (∀ (e : Env) (a : ActiveState), InUnit (envTick e a).1 ∧
    (InUnit (envTick e a).2.level → F32.eq (envTick e a).1 (envTick e a).2.level = true ∧
      ((envTick e a).2.level ≠ F32.negZero → (envTick e a).1 = (envTick e a).2.level)) ∧
    (F32.isFinite (envTick e a).2.level = true → F32.lt (envTick e a).2.level F32.posZero = true →
      (envTick e a).1 = F32.posZero) ∧
    (F32.isFinite (envTick e a).2.level = true → F32.lt F32.one (envTick e a).2.level = true →
      (envTick e a).1 = F32.one)) ∧
    ∀ (e : Env) (a : ActiveState), EnvLegal e → LevelLegal e → e.nr.toNat ≤ 2 ^ 24 →
      EnvLegal (envTick e a).2 ∧ LevelLegal (envTick e a).2

/-- R194, R198, R199, R201. The On path, from any envelope at rest: Attack for NA ticks, Decay for ND, then Sustain for
as long as it is held; and after a release from any stage, Release for NR ticks from the level held, then Idle. -/
def Obligations.AdsrPath : Prop :=
  ∀ e : Env, 1 ≤ e.na.toNat → 1 ≤ e.nd.toNat → 1 ≤ e.nr.toNat →
    let line := fun (start target : Num32) (k n : Nat) =>
      F32.add start (F32.div (F32.mul (F32.sub target start) (F32.ofNat k)) (F32.ofNat n))
    let on := fun (k : Nat) => envTicks (List.replicate k .On) e
    let off := fun (k : Nat) => envTicks (List.replicate k .Off) e
    (e.stage = .idle ∨ e.stage = .release →
      (∀ k, 1 ≤ k → k < e.na.toNat → on k = { e with
        stage := .attack, k := BitVec.ofNat 32 k, start := F32.posZero, level := line F32.posZero F32.one k e.na.toNat }) ∧
      on e.na.toNat = { e with stage := .decay, k := 0, start := F32.one, level := F32.one } ∧
      (∀ k, 1 ≤ k → k < e.nd.toNat → on (e.na.toNat + k) = { e with
        stage := .decay, k := BitVec.ofNat 32 k, start := F32.one, level := line F32.one e.sus k e.nd.toNat }) ∧
      (∀ k, on (e.na.toNat + e.nd.toNat + k) = { e with stage := .sustain, k := 0, start := e.sus, level := e.sus })) ∧
    (e.stage = .attack ∨ e.stage = .decay ∨ e.stage = .sustain →
      (∀ k, 1 ≤ k → k < e.nr.toNat → off k = { e with
        stage := .release, k := BitVec.ofNat 32 k, start := e.level, level := line e.level F32.posZero k e.nr.toNat }) ∧
      (∀ k, off (e.nr.toNat + k) = { e with stage := .idle, k := 0, start := F32.posZero, level := F32.posZero }))

/-- R200, R202. The Trigger path, from any envelope: one tick of Attack from 0, then, ACTIVE being Off, Release for NR
ticks from the level reached, then Idle. With NA = 1 the first tick is at 1.0. -/
def Obligations.TriggerPath : Prop :=
  ∀ e : Env, 1 ≤ e.na.toNat → 1 ≤ e.nr.toNat →
    let line := fun (start target : Num32) (k n : Nat) =>
      F32.add start (F32.div (F32.mul (F32.sub target start) (F32.ofNat k)) (F32.ofNat n))
    let peak := if e.na.toNat = 1 then F32.one else line F32.posZero F32.one 1 e.na.toNat
    let run := fun (k : Nat) => envTicks (.Trigger :: List.replicate k .Off) e
    (run 0).level = peak ∧
    (∀ k, 1 ≤ k → k < e.nr.toNat → run k = { e with
      stage := .release, k := BitVec.ofNat 32 k, start := peak, level := line peak F32.posZero k e.nr.toNat }) ∧
    (∀ k, run (e.nr.toNat + k) = { e with stage := .idle, k := 0, start := F32.posZero, level := F32.posZero })

/-! ## Arithmetic (00_scope.md) -/

/-- R8. The four operations on finite operands are the IEEE 754 binary32 ones: no finite number is nearer to the exact
result, an even one is taken of two that are as near, and the result is finite exactly when the exact one lies below
the overflow threshold. num(n) is exact up to 2^24; floor, the comparisons, min, max and clamp01 are those of the
values; fmod is the exact remainder toward zero, with the sign of its first operand. -/
def Obligations.ArithmeticRounds : Prop :=
  (∀ a b : Num32, F32.isFinite a = true → F32.isFinite b = true →
    let rounds := fun (x : Num32) (e : ℚ) =>
      (F32.isFinite x = true ↔ |e| < 2 ^ 128 - 2 ^ 103) ∧
      (F32.isFinite x = true → ∀ c, F32.isFinite c = true →
        |F32.toRat x - e| < |F32.toRat c - e| ∨
          (|F32.toRat x - e| = |F32.toRat c - e| ∧ (F32.toRat x = F32.toRat c ∨ x.getLsbD 0 = false)))
    rounds (F32.add a b) (F32.toRat a + F32.toRat b) ∧ rounds (F32.sub a b) (F32.toRat a - F32.toRat b) ∧
    rounds (F32.mul a b) (F32.toRat a * F32.toRat b) ∧
    (F32.toRat b ≠ 0 → rounds (F32.div a b) (F32.toRat a / F32.toRat b)) ∧
    F32.floor a = ⌊F32.toRat a⌋ ∧ (F32.lt a b = true ↔ F32.toRat a < F32.toRat b) ∧
    (F32.le a b = true ↔ F32.toRat a ≤ F32.toRat b) ∧ (F32.eq a b = true ↔ F32.toRat a = F32.toRat b) ∧
    (F32.min a b = a ∨ F32.min a b = b) ∧ F32.toRat (F32.min a b) = min (F32.toRat a) (F32.toRat b) ∧
    (F32.max a b = a ∨ F32.max a b = b) ∧ F32.toRat (F32.max a b) = max (F32.toRat a) (F32.toRat b) ∧
    F32.isFinite (F32.clamp01 a) = true ∧ F32.toRat (F32.clamp01 a) = min (max (F32.toRat a) 0) 1 ∧
    (F32.toRat b ≠ 0 → let r := F32.fmod a b
      F32.isFinite r = true ∧ F32.sign r = F32.sign a ∧ |F32.toRat r| < |F32.toRat b| ∧
        ∃ k : Int, F32.toRat a - F32.toRat r = k * F32.toRat b)) ∧
  ∀ n : Nat, n ≤ 2 ^ 24 → F32.isFinite (F32.ofNat n) = true ∧ F32.toRat (F32.ofNat n) = n
end

