-- ==== Sys2Proof/Laws/Binary32.lean ====
section
/-! SUPPORT. Laws of the binary32 arithmetic: what the magnitude bits of a number stand for (`magVal`), that
`roundMag` is the greatest lower and least upper neighbour at once (`le_roundMag`, `roundMag_le`), and from
these that each operation is monotone and exact where its result is representable. -/

namespace Sys2Proof.Machine.F32

/-! ## Magnitude bits -/

/-- The 31 magnitude bits of a number. -/
def bits (x : Num32) : Nat := x.toNat % 2 ^ 31

/-- The magnitude, in units of 2^-149, that magnitude bits stand for. -/
def magVal (m : Nat) : Nat :=
  if m / 2 ^ 23 = 0 then m % 2 ^ 23 else (2 ^ 23 + m % 2 ^ 23) * 2 ^ (m / 2 ^ 23 - 1)

theorem bits_lt (x : Num32) : bits x < 2 ^ 31 := Nat.mod_lt _ (by decide)

theorem sign_eq (x : Num32) : sign x = decide (2 ^ 31 ≤ x.toNat) := by
  simp [sign, BitVec.msb_eq_decide]

theorem toNat_eq (x : Num32) : x.toNat = (if sign x then 2 ^ 31 else 0) + bits x := by
  have h := x.isLt
  rw [sign_eq, bits]
  by_cases h1 : 2 ^ 31 ≤ x.toNat
  · simp only [h1, decide_true, if_true]; omega
  · simp only [h1, decide_false]; simp; omega

theorem expField_eq (x : Num32) : expField x = bits x / 2 ^ 23 := by
  have h := x.isLt
  simp only [expField, bits]; omega

theorem frac_eq (x : Num32) : frac x = bits x % 2 ^ 23 := by
  simp only [frac, bits]; omega

theorem mag_eq (x : Num32) : mag x = magVal (bits x) := by
  simp [mag, magVal, expField_eq, frac_eq]

theorem toNat_pack {m : Nat} (neg : Bool) (h : m < 2 ^ 31) :
    (pack neg m).toNat = (if neg then 2 ^ 31 else 0) + m := by
  unfold pack
  cases neg <;> simp <;> omega

@[simp] theorem bits_pack {m : Nat} (neg : Bool) (h : m < 2 ^ 31) : bits (pack neg m) = m := by
  unfold bits
  rw [toNat_pack neg h]
  cases neg <;> simp <;> omega

@[simp] theorem sign_pack {m : Nat} (neg : Bool) (h : m < 2 ^ 31) : sign (pack neg m) = neg := by
  rw [sign_eq, toNat_pack neg h]
  cases neg <;> simp <;> omega

theorem pack_sign_bits (x : Num32) : pack (sign x) (bits x) = x := by
  apply BitVec.eq_of_toNat_eq
  rw [toNat_pack _ (bits_lt x), ← toNat_eq]

theorem isFinite_eq (x : Num32) : isFinite x = decide (bits x < 0x7F800000) := by
  have h := bits_lt x
  simp only [isFinite, expField_eq, bne, beq_eq_decide, ← decide_not, decide_eq_decide]
  omega

theorem isNaN_eq (x : Num32) : isNaN x = decide (0x7F800000 < bits x) := by
  have h := bits_lt x
  simp only [isNaN, expField_eq, frac_eq, bne, beq_eq_decide]
  rw [← decide_not, ← Bool.decide_and, decide_eq_decide]
  omega

theorem isZero_eq (x : Num32) : isZero x = decide (bits x = 0) := by
  have h := bits_lt x
  simp only [isZero, expField_eq, frac_eq, beq_eq_decide]
  rw [← Bool.decide_and, decide_eq_decide]
  omega

theorem not_isNaN_of_isFinite {x : Num32} (h : isFinite x = true) : isNaN x = false := by
  rw [isFinite_eq] at h; rw [isNaN_eq]; simp at *; omega

/-! ## `magVal` is strictly increasing -/

theorem magVal_succ (m : Nat) : magVal m + 2 ^ (m / 2 ^ 23 - 1) = magVal (m + 1) := by
  unfold magVal
  by_cases h0 : m / 2 ^ 23 = 0
  · have hm : m < 2 ^ 23 := by omega
    simp only [h0, if_true]
    by_cases h1 : m + 1 = 2 ^ 23
    · have : m = 2 ^ 23 - 1 := by omega
      subst this; decide
    · have : (m + 1) / 2 ^ 23 = 0 := by omega
      simp only [this, if_true]
      simp; omega
  · simp only [h0, if_false]
    by_cases h1 : (m + 1) % 2 ^ 23 = 0
    · obtain ⟨e, he⟩ : ∃ e, m / 2 ^ 23 = e + 1 := ⟨m / 2 ^ 23 - 1, by omega⟩
      have h2 : (m + 1) / 2 ^ 23 = e + 2 := by omega
      have h3 : m % 2 ^ 23 = 2 ^ 23 - 1 := by omega
      rw [h1, h2, he, h3]
      simp only [Nat.add_sub_cancel, Nat.reduceSubDiff]
      rw [if_neg (by omega), pow_succ]
      ring_nf
    · have h2 : (m + 1) / 2 ^ 23 = m / 2 ^ 23 := by omega
      have h3 : (m + 1) % 2 ^ 23 = m % 2 ^ 23 + 1 := by omega
      rw [h2, h3, if_neg h0]
      ring

theorem magVal_strictMono : StrictMono magVal := by
  refine strictMono_nat_of_lt_succ (fun m => ?_)
  rw [← magVal_succ m]
  exact Nat.lt_add_of_pos_right (by positivity)

@[simp] theorem magVal_le_iff {a b : Nat} : magVal a ≤ magVal b ↔ a ≤ b := magVal_strictMono.le_iff_le
@[simp] theorem magVal_lt_iff {a b : Nat} : magVal a < magVal b ↔ a < b := magVal_strictMono.lt_iff_lt
@[simp] theorem magVal_zero : magVal 0 = 0 := by decide

/-- The magnitude bits that `t` units in the last place of the binade `sh` stand for. -/
theorem magVal_binade {sh t : Nat} (h : sh = 0 ∨ 2 ^ 23 ≤ t) (ht : t ≤ 2 ^ 24) :
    magVal (sh * 2 ^ 23 + t) = t * 2 ^ sh := by
  unfold magVal
  by_cases h0 : t < 2 ^ 23
  · have : sh = 0 := by omega
    subst this
    have : (0 * 2 ^ 23 + t) / 2 ^ 23 = 0 := by omega
    simp only [this, if_true]
    simp; omega
  · by_cases h1 : t = 2 ^ 24
    · subst h1
      have h2 : (sh * 2 ^ 23 + 2 ^ 24) / 2 ^ 23 = sh + 2 := by omega
      have h3 : (sh * 2 ^ 23 + 2 ^ 24) % 2 ^ 23 = 0 := by omega
      rw [h2, h3, if_neg (by omega)]
      have : sh + 2 - 1 = sh + 1 := rfl
      rw [this, pow_succ]; ring
    · have h2 : (sh * 2 ^ 23 + t) / 2 ^ 23 = sh + 1 := by omega
      have h3 : (sh * 2 ^ 23 + t) % 2 ^ 23 = t - 2 ^ 23 := by omega
      rw [h2, h3, if_neg (by omega)]
      have : 2 ^ 23 + (t - 2 ^ 23) = t := by omega
      rw [this]; rfl

/-! ## Rounding -/

/-- What `roundMag` finds: the bits `a` whose magnitude is the last one at or below `n / d`, and the choice
between `a` and `a + 1` by which is nearer, the even one on a tie. -/
theorem roundMag_spec (n d : Nat) (hd : 0 < d) :
    ∃ a r w, 0 < w ∧ r < w ∧ n = magVal a * d + r ∧ magVal (a + 1) * d = magVal a * d + w ∧
      roundMag n d = Min.min (if 2 * r > w ∨ (2 * r = w ∧ a % 2 = 1) then a + 1 else a) 0x7F800000 := by
  set sh := Nat.log2 (n / d) - 23 with hsh
  have hp : 0 < 2 ^ sh := by positivity
  have hD : 0 < d * 2 ^ sh := Nat.mul_pos hd hp
  set t := n / (d * 2 ^ sh) with ht
  have htq : t = n / d / 2 ^ sh := by rw [ht, Nat.div_div_eq_div_mul]
  have hlt : t < 2 ^ 24 := by
    rw [htq, Nat.div_lt_iff_lt_mul hp]
    by_cases hq : n / d = 0
    · rw [hq]; positivity
    · calc n / d < 2 ^ (Nat.log2 (n / d) + 1) := Nat.lt_log2_self
        _ ≤ 2 ^ (24 + sh) := Nat.pow_le_pow_right (by decide) (by omega)
        _ = 2 ^ 24 * 2 ^ sh := by rw [pow_add]
  have hge : sh = 0 ∨ 2 ^ 23 ≤ t := by
    by_cases h0 : sh = 0
    · exact .inl h0
    · right
      have hq : n / d ≠ 0 := by
        intro h; rw [h] at hsh; simp at hsh; omega
      rw [htq, Nat.le_div_iff_mul_le hp]
      calc 2 ^ 23 * 2 ^ sh = 2 ^ (23 + sh) := by rw [pow_add]
        _ ≤ 2 ^ (Nat.log2 (n / d)) := Nat.pow_le_pow_right (by decide) (by omega)
        _ ≤ n / d := Nat.log2_self_le hq
  have hv : magVal (sh * 2 ^ 23 + t) = t * 2 ^ sh := magVal_binade hge (by omega)
  have hv1 : magVal (sh * 2 ^ 23 + t + 1) = (t + 1) * 2 ^ sh := by
    rw [Nat.add_assoc]; exact magVal_binade (by omega) (by omega)
  refine ⟨sh * 2 ^ 23 + t, n % (d * 2 ^ sh), d * 2 ^ sh, hD, Nat.mod_lt _ hD, ?_, ?_, ?_⟩
  · rw [hv]
    calc n = d * 2 ^ sh * t + n % (d * 2 ^ sh) := (Nat.div_add_mod n (d * 2 ^ sh)).symm
      _ = t * 2 ^ sh * d + n % (d * 2 ^ sh) := by ring
  · rw [hv, hv1]; ring
  · have hpar : (sh * 2 ^ 23 + t) % 2 = t % 2 := by omega
    unfold roundMag
    simp only [← hsh, ← ht, hpar]
    split <;> simp [Nat.add_assoc]

/-- Rounding does not go below a representable lower bound. -/
theorem le_roundMag {n d c : Nat} (hd : 0 < d) (hc : c ≤ 0x7F800000) (h : magVal c * d ≤ n) :
    c ≤ roundMag n d := by
  obtain ⟨a, r, w, hw, hr, hn, h1, hres⟩ := roundMag_spec n d hd
  have hca : c ≤ a := by
    by_contra hlt
    have : magVal (a + 1) ≤ magVal c := magVal_le_iff.mpr (by omega)
    have := Nat.mul_le_mul_right d this
    omega
  rw [hres]
  apply le_min
  · split <;> omega
  · exact hc

/-- Rounding does not go above a representable upper bound. -/
theorem roundMag_le {n d c : Nat} (hd : 0 < d) (h : n ≤ magVal c * d) : roundMag n d ≤ c := by
  obtain ⟨a, r, w, hw, hr, hn, h1, hres⟩ := roundMag_spec n d hd
  have hac : a ≤ c := by
    by_contra hlt
    have : magVal c < magVal a := magVal_lt_iff.mpr (by omega)
    have := Nat.mul_lt_mul_of_pos_right this hd
    omega
  rw [hres]
  apply (min_le_left _ _).trans
  split
  · rename_i hup
    by_contra hlt
    have hca : c = a := by omega
    subst hca
    have : r = 0 := by omega
    omega
  · exact hac

/-- A representable quotient is not rounded. -/
theorem roundMag_exact {d c : Nat} (hd : 0 < d) (hc : c ≤ 0x7F800000) : roundMag (magVal c * d) d = c :=
  Nat.le_antisymm (roundMag_le hd le_rfl) (le_roundMag hd hc le_rfl)

theorem roundMag_le_inf (n d : Nat) : roundMag n d ≤ 0x7F800000 := by
  unfold roundMag; exact min_le_right _ _

theorem roundMag_lt (n d : Nat) : roundMag n d < 2 ^ 31 :=
  lt_of_le_of_lt (roundMag_le_inf n d) (by decide)

@[simp] theorem roundMag_zero (d : Nat) : roundMag 0 d = 0 := by
  unfold roundMag; simp

/-- Of all magnitudes, finite or not yet rounded off as overflow, the one `roundMag` answers is nearest to
`n / d`. -/
theorem roundMag_nearest {n d : Nat} (hd : 0 < d) (hfin : roundMag n d < 0x7F800000) (c : Nat) :
    |((n : ℤ) - magVal (roundMag n d) * d)| ≤ |((n : ℤ) - magVal c * d)| := by
  obtain ⟨a, r, w, hw, hr, hn, h1, hres⟩ := roundMag_spec n d hd
  have hlow : ∀ {c}, c ≤ a → (magVal c : ℤ) * d ≤ magVal a * d := fun h => by
    exact_mod_cast Nat.mul_le_mul_right d (magVal_le_iff.mpr h)
  have hhigh : ∀ {c}, a + 1 ≤ c → (magVal (a + 1) : ℤ) * d ≤ magVal c * d := fun h => by
    exact_mod_cast Nat.mul_le_mul_right d (magVal_le_iff.mpr h)
  have hnz : (n : ℤ) = magVal a * d + r := by exact_mod_cast hn
  have h1z : (magVal (a + 1) : ℤ) * d = magVal a * d + w := by exact_mod_cast h1
  have hrz : (r : ℤ) < w := by exact_mod_cast hr
  have hmin : roundMag n d = if 2 * r > w ∨ (2 * r = w ∧ a % 2 = 1) then a + 1 else a := by
    rw [hres] at hfin ⊢
    rcases Nat.le_total (if 2 * r > w ∨ (2 * r = w ∧ a % 2 = 1) then a + 1 else a) 0x7F800000 with hle | hle
    · exact min_eq_left hle
    · rw [min_eq_right hle] at hfin; omega
  rw [hmin]
  split
  · rename_i hup
    rw [h1z, hnz]
    rcases Nat.lt_or_ge a c with hc | hc
    · have := hhigh hc
      rw [abs_of_nonpos (by omega), abs_of_nonpos (by omega)]; omega
    · have := hlow hc
      rw [abs_of_nonpos (by omega), abs_of_nonneg (by omega)]; omega
  · rename_i hup
    rw [hnz]
    rcases Nat.lt_or_ge a c with hc | hc
    · have := hhigh hc
      rw [abs_of_nonneg (by omega), abs_of_nonpos (by omega)]; omega
    · have := hlow hc
      rw [abs_of_nonneg (by omega), abs_of_nonneg (by omega)]; omega

/-- Rounding is monotonic. -/
theorem roundMag_mono {m n d : Nat} (hd : 0 < d) (h : m ≤ n) : roundMag m d ≤ roundMag n d := by
  obtain ⟨a, r, w, hw, hr, hm, hs, he⟩ := roundMag_spec m d hd
  obtain ⟨a', r', w', hw', hr', hn, hs', he'⟩ := roundMag_spec n d hd
  rw [he, he']
  refine min_le_min_right _ ?_
  have hlt : a < a' + 1 := by
    rw [← magVal_lt_iff]
    refine Nat.lt_of_mul_lt_mul_right (a := d) ?_
    omega
  rcases Nat.lt_or_ge a a' with h1 | h1
  · have : a + 1 ≤ a' := h1
    split <;> split <;> omega
  · obtain rfl : a = a' := by omega
    split <;> split <;> omega

/-- A rounded magnitude is off by at most its own relative step (2^-24), or by half of the smallest magnitude. -/
theorem roundMag_close (n d : Nat) (hd : 0 < d) : 2 ^ 24 * (magVal (roundMag n d) * d) ≤ (2 ^ 24 + 1) * n + 2 ^ 23 * d := by
  obtain ⟨a, r, w, hw, hr, hm, hs, he⟩ := roundMag_spec n d hd
  have hmono : magVal (roundMag n d) ≤ magVal (if 2 * r > w ∨ (2 * r = w ∧ a % 2 = 1) then a + 1 else a) := by
    rw [he]; exact magVal_le_iff.mpr (Nat.min_le_left _ _)
  refine (Nat.mul_le_mul_left _ (Nat.mul_le_mul_right d hmono)).trans ?_
  have hstep := magVal_succ a
  have hw2 : w = 2 ^ (a / 2 ^ 23 - 1) * d := by
    have : magVal (a + 1) * d = magVal a * d + 2 ^ (a / 2 ^ 23 - 1) * d := by rw [← hstep]; ring
    omega
  have hgap : 2 ^ 23 * w ≤ magVal a * d ∨ w = d := by
    by_cases h0 : a / 2 ^ 23 = 0
    · right; rw [hw2, h0]; simp
    · left
      rw [hw2, ← Nat.mul_assoc]
      refine Nat.mul_le_mul_right d ?_
      rw [magVal, if_neg h0]
      exact Nat.mul_le_mul_right _ (Nat.le_add_right _ _)
  split
  · next h =>
    rw [hs]
    have h2 : w ≤ 2 * r := by omega
    rcases hgap with hg | hg <;> omega
  · omega

end Sys2Proof.Machine.F32
end

