-- ==== Sys2Proof/Laws/Arith.lean ====
section
/-! SUPPORT. Each operation of binary32 as one rounding of an exact integer (`roundInt`), which is monotone
and leaves representable values alone. -/

namespace Sys2Proof.Machine.F32

/-! ## Signed rounding -/

/-- The value, in units of 2^-149, of the number nearest to `n / d` units. -/
def roundInt (n : Int) (d : Nat) : Int :=
  if n < 0 then -(magVal (roundMag n.natAbs d) : Int) else (magVal (roundMag n.natAbs d) : Int)

/-- The magnitude of infinity, above every finite one. -/
def infMag : Nat := magVal 0x7F800000

theorem toInt_eq (x : Num32) : toInt x = if sign x then -(magVal (bits x) : Int) else (magVal (bits x) : Int) := by
  simp [toInt, mag_eq]

theorem toInt_pack {m : Nat} (neg : Bool) (h : m < 2 ^ 31) :
    toInt (pack neg m) = if neg then -(magVal m : Int) else (magVal m : Int) := by
  rw [toInt_eq, sign_pack neg h, bits_pack neg h]

theorem isNaN_pack_roundMag (neg : Bool) (n d : Nat) : isNaN (pack neg (roundMag n d)) = false := by
  rw [isNaN_eq, bits_pack neg (roundMag_lt n d)]
  simpa using roundMag_le_inf n d

theorem natAbs_toInt (x : Num32) : (toInt x).natAbs = magVal (bits x) := by
  rw [toInt_eq]; split <;> simp

/-- A number that is not NaN is finite exactly when its magnitude is below infinity's. -/
theorem isFinite_iff_natAbs (x : Num32) : isFinite x = true ↔ (toInt x).natAbs < infMag := by
  rw [isFinite_eq, natAbs_toInt, infMag, magVal_lt_iff, decide_eq_true_iff]

theorem isFinite_iff (x : Num32) : isFinite x = true ↔ -(infMag : Int) < toInt x ∧ toInt x < infMag := by
  rw [isFinite_iff_natAbs]; omega

/-- What lies between two finite values is finite. -/
theorem isFinite_of_between {lo x hi : Num32} (hl : isFinite lo = true) (hh : isFinite hi = true)
    (h1 : toInt lo ≤ toInt x) (h2 : toInt x ≤ toInt hi) : isFinite x = true := by
  rw [isFinite_iff] at *
  exact ⟨by linarith [hl.1], by linarith [hh.2]⟩

theorem natAbs_le_of_not_nan {x : Num32} (h : isNaN x = false) : (toInt x).natAbs ≤ infMag := by
  rw [isNaN_eq] at h
  rw [natAbs_toInt, infMag, magVal_le_iff]; simpa using h

theorem bits_le_of_not_nan {x : Num32} (h : isNaN x = false) : bits x ≤ 0x7F800000 := by
  rw [isNaN_eq] at h; simpa using h

/-- A representable lower bound of the exact value bounds the rounded one. -/
theorem le_roundInt {c : Num32} {n : Int} {d : Nat} (hd : 0 < d) (hc : isNaN c = false)
    (h : toInt c * d ≤ n) : toInt c ≤ roundInt n d := by
  have hb := bits_le_of_not_nan hc
  rw [toInt_eq] at h ⊢
  unfold roundInt
  split_ifs at h ⊢ with hs hn hn
  · rw [neg_le_neg_iff]
    have h2 : n.natAbs ≤ magVal (bits c) * d := by
      have h3 : (n.natAbs : Int) = -n := by omega
      have h4 : (n.natAbs : Int) ≤ magVal (bits c) * d := by rw [h3]; linarith
      exact_mod_cast h4
    exact_mod_cast magVal_le_iff.mpr (roundMag_le hd h2)
  · have : (0 : Int) ≤ magVal (bits c) := by positivity
    have : (0 : Int) ≤ magVal (roundMag n.natAbs d) := by positivity
    omega
  · exfalso
    have : (0 : Int) ≤ magVal (bits c) * d := by positivity
    omega
  · have h2 : magVal (bits c) * d ≤ n.natAbs := by
      have h3 : (n.natAbs : Int) = n := by omega
      have h4 : (magVal (bits c) : Int) * d ≤ n.natAbs := by rw [h3]; exact h
      exact_mod_cast h4
    exact_mod_cast magVal_le_iff.mpr (le_roundMag hd hb h2)

/-- A representable upper bound of the exact value bounds the rounded one. -/
theorem roundInt_le {c : Num32} {n : Int} {d : Nat} (hd : 0 < d) (hc : isNaN c = false)
    (h : n ≤ toInt c * d) : roundInt n d ≤ toInt c := by
  have hb := bits_le_of_not_nan hc
  rw [toInt_eq] at h ⊢
  unfold roundInt
  split_ifs at h ⊢ with hn hs hs
  · rw [neg_le_neg_iff]
    have h2 : magVal (bits c) * d ≤ n.natAbs := by
      have h3 : (n.natAbs : Int) = -n := by omega
      have h4 : (magVal (bits c) : Int) * d ≤ n.natAbs := by rw [h3]; linarith
      exact_mod_cast h4
    exact_mod_cast magVal_le_iff.mpr (le_roundMag hd hb h2)
  · have : (0 : Int) ≤ magVal (bits c) := by positivity
    have : (0 : Int) ≤ magVal (roundMag n.natAbs d) := by positivity
    omega
  · have : (0 : Int) ≤ magVal (bits c) * d := by positivity
    have h0 : n.natAbs = 0 := by
      have : (0 : Int) ≤ n := by omega
      have : n ≤ 0 := by linarith
      omega
    rw [h0, roundMag_zero, magVal_zero]
    have h3 : n = 0 := by omega
    rw [h3] at h
    have : (0 : Int) ≤ magVal (bits c) := by positivity
    have : (magVal (bits c) : Int) ≤ 0 := by
      by_contra hlt
      have : 0 < (magVal (bits c) : Int) * d := mul_pos (by omega) (by exact_mod_cast hd)
      linarith
    push_cast; omega
  · have h2 : n.natAbs ≤ magVal (bits c) * d := by
      have h3 : (n.natAbs : Int) = n := by omega
      have h4 : (n.natAbs : Int) ≤ magVal (bits c) * d := by rw [h3]; exact h
      exact_mod_cast h4
    exact_mod_cast magVal_le_iff.mpr (roundMag_le hd h2)

/-- A representable value is not rounded. -/
theorem roundInt_exact {c : Num32} {d : Nat} (hd : 0 < d) (hc : isNaN c = false) :
    roundInt (toInt c * d) d = toInt c :=
  le_antisymm (roundInt_le hd hc le_rfl) (le_roundInt hd hc le_rfl)

/-- A rounded value is the value of a number that is not NaN. -/
theorem exists_roundInt (n : Int) (d : Nat) : ∃ c, isNaN c = false ∧ toInt c = roundInt n d := by
  refine ⟨pack (decide (n < 0)) (roundMag n.natAbs d), isNaN_pack_roundMag _ _ _, ?_⟩
  rw [toInt_pack _ (roundMag_lt _ _), roundInt]
  by_cases hn : n < 0
  · rw [decide_eq_true hn, if_pos hn, if_pos rfl]
  · rw [decide_eq_false hn, if_neg hn, if_neg Bool.false_ne_true]

theorem natAbs_roundInt (n : Int) (d : Nat) : (roundInt n d).natAbs = magVal (roundMag n.natAbs d) := by
  rw [roundInt]
  split
  · rw [Int.natAbs_neg, Int.natAbs_natCast]
  · rw [Int.natAbs_natCast]

/-! ## Representable values -/

/-- A count of at most 2^24 units of any binade is the magnitude of a number. -/
theorem exists_magVal (k : Nat) : ∀ t ≤ 2 ^ 24, ∃ c, magVal c = t * 2 ^ k := by
  induction k with
  | zero => intro t ht; exact ⟨t, by simpa using magVal_binade (sh := 0) (.inl rfl) ht⟩
  | succ k ih =>
    intro t ht
    by_cases h : 2 ^ 23 ≤ t
    · exact ⟨(k + 1) * 2 ^ 23 + t, magVal_binade (.inr h) ht⟩
    · obtain ⟨c, hc⟩ := ih (2 * t) (by omega)
      exact ⟨c, by rw [hc, pow_succ]; ring⟩

/-- Every magnitude is a count below 2^24 of the units of its binade. -/
theorem magVal_eq_mul_pow (m : Nat) : ∃ t k, t < 2 ^ 24 ∧ magVal m = t * 2 ^ k ∧
    (k = 0 ∨ 2 ^ 23 ≤ t) := by
  unfold magVal
  split
  · exact ⟨m % 2 ^ 23, 0, by omega, by simp, .inl rfl⟩
  · exact ⟨2 ^ 23 + m % 2 ^ 23, m / 2 ^ 23 - 1, by omega, rfl, .inr (by omega)⟩

theorem infMag_eq : infMag = 2 ^ (276 + 1) := by decide +kernel

/-- The value of a number with a given magnitude below infinity's. -/
theorem exists_finite {m : Nat} (h : ∃ c, magVal c = m) (hm : m < infMag) :
    ∃ x, isFinite x = true ∧ sign x = false ∧ toInt x = m := by
  obtain ⟨c, rfl⟩ := h
  have hc : c < 0x7F800000 := magVal_lt_iff.mp hm
  refine ⟨pack false c, ?_, sign_pack _ (by omega), ?_⟩
  · rw [isFinite_eq, bits_pack _ (by omega)]; simpa using hc
  · rw [toInt_pack _ (by omega)]; simp

/-! ## The operations -/

theorem lt_iff {a b : Num32} (ha : isNaN a = false) (hb : isNaN b = false) : lt a b = true ↔ toInt a < toInt b := by
  simp [lt, ha, hb]

theorem le_iff {a b : Num32} (ha : isNaN a = false) (hb : isNaN b = false) : le a b = true ↔ toInt a ≤ toInt b := by
  simp [le, ha, hb]

theorem eq_iff {a b : Num32} (ha : isNaN a = false) (hb : isNaN b = false) : eq a b = true ↔ toInt a = toInt b := by
  simp [eq, ha, hb]

theorem not_isNaN_of_le {a b : Num32} (h : le a b = true) : isNaN a = false ∧ isNaN b = false := by
  simp only [le, Bool.and_eq_true, Bool.not_eq_true'] at h; exact ⟨h.1.1, h.1.2⟩

theorem not_isNaN_of_lt {a b : Num32} (h : lt a b = true) : isNaN a = false ∧ isNaN b = false := by
  simp only [lt, Bool.and_eq_true, Bool.not_eq_true'] at h; exact ⟨h.1.1, h.1.2⟩

@[simp] theorem isNaN_posZero : isNaN posZero = false := by decide
@[simp] theorem isNaN_negZero : isNaN negZero = false := by decide
@[simp] theorem isNaN_one : isNaN one = false := by decide
@[simp] theorem isFinite_posZero : isFinite posZero = true := by decide
@[simp] theorem isFinite_one : isFinite one = true := by decide
@[simp] theorem toInt_posZero : toInt posZero = 0 := by decide
@[simp] theorem toInt_negZero : toInt negZero = 0 := by decide
@[simp] theorem toInt_one : toInt one = 2 ^ 149 := by decide +kernel

theorem sign_iff_neg {x : Num32} (h : toInt x ≠ 0) : sign x = true ↔ toInt x < 0 := by
  rw [toInt_eq] at *
  have : (0 : Int) ≤ magVal (bits x) := by positivity
  cases hs : sign x <;> simp [hs] at * <;> omega

theorem toInt_eq_zero_iff (x : Num32) : toInt x = 0 ↔ bits x = 0 := by
  have h := natAbs_toInt x
  constructor
  · intro h0
    rw [h0] at h
    have : magVal (bits x) = magVal 0 := by simpa using h.symm
    exact magVal_strictMono.injective this
  · intro h0; rw [h0] at h; simpa using h

theorem isZero_iff (x : Num32) : isZero x = true ↔ toInt x = 0 := by
  rw [isZero_eq, decide_eq_true_iff, toInt_eq_zero_iff]

/-- A number of value 0 that is not -0.0 is +0.0. -/
theorem eq_posZero {x : Num32} (h : toInt x = 0) (hn : x ≠ negZero) : x = posZero := by
  have hb := (toInt_eq_zero_iff x).mp h
  have hx := pack_sign_bits x
  rw [hb] at hx
  cases hs : sign x
  · rw [← hx, hs]; decide
  · exact absurd (by rw [← hx, hs]; decide) hn

/-- Two numbers of the same nonzero value are the same number. -/
theorem toInt_inj {x y : Num32} (h : toInt x = toInt y) (h0 : toInt x ≠ 0) : x = y := by
  have hs : sign x = sign y := by
    have h1 := sign_iff_neg h0
    have h2 := sign_iff_neg (h ▸ h0)
    rw [h] at h1
    exact Bool.eq_iff_iff.mpr (h1.trans h2.symm)
  have hb : bits x = bits y := by
    have h1 := natAbs_toInt x
    have h2 := natAbs_toInt y
    rw [h] at h1
    exact magVal_strictMono.injective (h1.symm.trans h2)
  rw [← pack_sign_bits x, ← pack_sign_bits y, hs, hb]

/-- `a + b` of finite operands is one rounding of the exact sum. -/
theorem toInt_add {a b : Num32} (ha : isFinite a = true) (hb : isFinite b = true) :
    toInt (add a b) = roundInt (toInt a + toInt b) 1 ∧ isNaN (add a b) = false := by
  simp only [add, not_isNaN_of_isFinite ha, not_isNaN_of_isFinite hb, ha, hb, if_true, Bool.or_self, Bool.false_eq_true,
    if_false]
  by_cases h0 : toInt a + toInt b = 0
  · simp only [h0, if_true]
    split <;> simp [roundInt]
  · simp only [h0, if_false]
    refine ⟨?_, isNaN_pack_roundMag _ _ _⟩
    rw [toInt_pack _ (roundMag_lt _ _)]
    unfold roundInt
    simp

theorem neg_toNat (x : Num32) : sign (neg x) = !sign x ∧ bits (neg x) = bits x := by
  have h : neg x = x ^^^ 0x80000000#32 := rfl
  constructor
  · have h1 : BitVec.msb (0x80000000#32) = true := by decide
    rw [h, sign, sign, BitVec.msb_xor, h1, Bool.xor_true]
  · unfold bits
    rw [h, BitVec.toNat_xor]
    have h2 : (2147483648#32).toNat = 2 ^ 31 := by decide
    rw [h2]
    have := Nat.xor_mod_two_pow (a := x.toNat) (b := 2 ^ 31) (n := 31)
    rw [this]; simp

@[simp] theorem toInt_neg (x : Num32) : toInt (neg x) = -toInt x := by
  rw [toInt_eq, toInt_eq, (neg_toNat x).1, (neg_toNat x).2]
  cases sign x <;> simp

@[simp] theorem isFinite_neg (x : Num32) : isFinite (neg x) = isFinite x := by
  rw [isFinite_eq, isFinite_eq, (neg_toNat x).2]

@[simp] theorem isNaN_neg (x : Num32) : isNaN (neg x) = isNaN x := by
  rw [isNaN_eq, isNaN_eq, (neg_toNat x).2]

/-- `a - b` of finite operands is one rounding of the exact difference. -/
theorem toInt_sub {a b : Num32} (ha : isFinite a = true) (hb : isFinite b = true) :
    toInt (sub a b) = roundInt (toInt a - toInt b) 1 ∧ isNaN (sub a b) = false := by
  have h := toInt_add ha ((isFinite_neg b).trans hb)
  rw [toInt_neg, ← sub_eq_add_neg] at h
  simpa [sub, not_isNaN_of_isFinite hb] using h

/-- `a × b` of finite operands is one rounding of the exact product. -/
theorem toInt_mul {a b : Num32} (ha : isFinite a = true) (hb : isFinite b = true) :
    toInt (mul a b) = roundInt (toInt a * toInt b) (2 ^ 149) ∧ isNaN (mul a b) = false := by
  simp only [mul, not_isNaN_of_isFinite ha, not_isNaN_of_isFinite hb, ha, hb, if_true, Bool.or_self,
    Bool.false_eq_true, if_false, Bool.and_self]
  refine ⟨?_, isNaN_pack_roundMag _ _ _⟩
  rw [toInt_pack _ (roundMag_lt _ _), mag_eq, mag_eq]
  unfold roundInt
  rw [Int.natAbs_mul, natAbs_toInt, natAbs_toInt]
  by_cases h0 : toInt a * toInt b = 0
  · have : magVal (bits a) * magVal (bits b) = 0 := by
      rw [← natAbs_toInt, ← natAbs_toInt, ← Int.natAbs_mul, h0]; rfl
    rw [this]; simp
  · have ha0 : toInt a ≠ 0 := left_ne_zero_of_mul h0
    have hb0 : toInt b ≠ 0 := right_ne_zero_of_mul h0
    have h1 := sign_iff_neg ha0
    have h2 := sign_iff_neg hb0
    have h3 : (sign a ^^ sign b) = decide (toInt a * toInt b < 0) := by
      rw [mul_neg_iff_of_ne ha0 hb0 h1 h2]
    rw [h3]; simp
where
  mul_neg_iff_of_ne {a b : Num32} (ha0 : toInt a ≠ 0) (hb0 : toInt b ≠ 0)
      (h1 : sign a = true ↔ toInt a < 0) (h2 : sign b = true ↔ toInt b < 0) :
      (decide (toInt a * toInt b < 0)) = (sign a ^^ sign b) := by
    have h3 : toInt a * toInt b < 0 ↔ (sign a ^^ sign b) = true := by
      rw [mul_neg_iff]
      cases hs : sign a <;> cases ht : sign b <;> simp [hs, ht] at h1 h2 <;> simp <;> omega
    exact Bool.eq_iff_iff.mpr (decide_eq_true_iff.trans h3)

/-- `a / b` of finite operands, b not 0, is one rounding of the exact quotient. -/
theorem toInt_div {a b : Num32} (ha : isFinite a = true) (hb : isFinite b = true) (h0 : toInt b ≠ 0) :
    toInt (div a b) = roundInt (if toInt b < 0 then -(toInt a * 2 ^ 149) else toInt a * 2 ^ 149) (toInt b).natAbs ∧
      isNaN (div a b) = false := by
  have hz : isZero b = false := by
    rw [Bool.eq_false_iff]; intro h; exact h0 ((isZero_iff b).mp h)
  simp only [div, not_isNaN_of_isFinite ha, not_isNaN_of_isFinite hb, ha, hb, hz, if_true, Bool.or_self,
    Bool.false_eq_true, if_false]
  refine ⟨?_, isNaN_pack_roundMag _ _ _⟩
  rw [toInt_pack _ (roundMag_lt _ _), mag_eq, mag_eq, natAbs_toInt]
  have h2 := sign_iff_neg h0
  have hnat : (if toInt b < 0 then -(toInt a * 2 ^ 149) else toInt a * 2 ^ 149).natAbs =
      magVal (bits a) * 2 ^ 149 := by
    rw [← natAbs_toInt]
    split <;> simp [Int.natAbs_mul]
  unfold roundInt
  rw [hnat]
  by_cases ha0 : toInt a = 0
  · have : magVal (bits a) = 0 := by rw [← natAbs_toInt, ha0]; rfl
    rw [this]; simp
  · have h1 := sign_iff_neg ha0
    have h3 : (sign a ^^ sign b) = decide ((if toInt b < 0 then -(toInt a * 2 ^ 149) else toInt a * 2 ^ 149) < 0) := by
      cases hs : sign a <;> cases ht : sign b <;> simp [hs, ht] at h1 h2 <;>
        simp [h2, not_lt.mpr] <;> omega
    rw [h3]; simp

/-- `num(n)` is one rounding of n. -/
theorem toInt_ofNat (n : Nat) : toInt (ofNat n) = roundInt ((n : Int) * 2 ^ 149) 1 ∧ isNaN (ofNat n) = false ∧
    sign (ofNat n) = false := by
  refine ⟨?_, isNaN_pack_roundMag _ _ _, sign_pack _ (roundMag_lt _ _)⟩
  unfold ofNat roundInt
  rw [toInt_pack _ (roundMag_lt _ _)]
  have : ((n : Int) * 2 ^ 149).natAbs = n * 2 ^ 149 := by simp [Int.natAbs_mul]
  have h0 : ¬ (n : Int) * 2 ^ 149 < 0 := not_lt.mpr (by positivity)
  rw [this, if_neg h0]; simp

/-- `num(n)` is exact for n ≤ 2^24 (R8). -/
theorem toInt_ofNat_exact {n : Nat} (h : n ≤ 2 ^ 24) : toInt (ofNat n) = (n : Int) * 2 ^ 149 := by
  rw [(toInt_ofNat n).1]
  obtain ⟨x, hx, -, hv⟩ := exists_finite (exists_magVal 149 n h) (by
    rw [infMag_eq]
    calc n * 2 ^ 149 ≤ 2 ^ 24 * 2 ^ 149 := Nat.mul_le_mul_right _ h
      _ = 2 ^ 173 := by rw [← pow_add]
      _ < 2 ^ (276 + 1) := Nat.pow_lt_pow_right (by decide) (by decide))
  have := roundInt_exact (c := x) (d := 1) (by decide) (not_isNaN_of_isFinite hx)
  rw [hv] at this
  push_cast at this
  simpa using this

theorem isFinite_ofNat {n : Nat} (h : n ≤ 2 ^ 32) : isFinite (ofNat n) = true := by
  have hx : isFinite (0x4F800000#32) = true := by decide
  have hv : toInt (0x4F800000#32) = 2 ^ 181 := by decide +kernel
  refine isFinite_of_between isFinite_posZero hx ?_ ?_
  · rw [(toInt_ofNat n).1]
    refine le_roundInt (by decide) isNaN_posZero ?_
    rw [toInt_posZero]; simp
  · rw [(toInt_ofNat n).1]
    refine roundInt_le (by decide) (not_isNaN_of_isFinite hx) ?_
    rw [hv]
    have : (n : Int) ≤ 2 ^ 32 := by exact_mod_cast h
    calc (n : Int) * 2 ^ 149 ≤ 2 ^ 32 * 2 ^ 149 := mul_le_mul_of_nonneg_right this (by positivity)
      _ = 2 ^ 181 * ((1 : Nat) : Int) := by norm_num

end Sys2Proof.Machine.F32
end

