-- ==== Sys2Proof/Laws/Oscillator.lean ====
section
/-! SUPPORT. What the oscillator's operations do: `fmod` is exact, WRAP answers a legal phase and leaves a legal
phase alone, OSC_TICK of a legal oscillator completes, SET_FREQUENCY says when it completes. -/

namespace Sys2Proof.Machine

open F32

/-! ## fmod -/

/-- The remainder of two magnitudes is a magnitude. -/
theorem exists_magVal_mod (a b : Nat) (hb : magVal b ≠ 0) : ∃ c, magVal c = magVal a % magVal b := by
  by_cases hlt : magVal a < magVal b
  · exact ⟨a, (Nat.mod_eq_of_lt hlt).symm⟩
  · obtain ⟨t, k, ht, ha, -⟩ := magVal_eq_mul_pow a
    obtain ⟨u, l, hu, hb', hul⟩ := magVal_eq_mul_pow b
    have hkl : l ≤ k := by
      by_contra hkl
      have hu23 : 2 ^ 23 ≤ u := by omega
      have h1 : 2 ^ l = 2 ^ (l - k - 1) * 2 * 2 ^ k := by
        rw [← pow_succ, ← pow_add]; congr 1; omega
      have h2 : 1 ≤ 2 ^ (l - k - 1) := Nat.one_le_two_pow
      have h3 : t * 2 ^ k < u * 2 ^ l := by
        rw [h1]
        have h4 : 0 < 2 ^ k := by positivity
        calc t * 2 ^ k < 2 ^ 24 * 2 ^ k := Nat.mul_lt_mul_of_pos_right ht h4
          _ = 2 ^ 23 * (1 * 2 * 2 ^ k) := by ring
          _ ≤ u * (2 ^ (l - k - 1) * 2 * 2 ^ k) := by gcongr
      omega
    have hpos : 0 < u := by
      rcases Nat.eq_zero_or_pos u with h | h
      · rw [h] at hb'; simp at hb'; omega
      · exact h
    have hmod : magVal a % magVal b = (t * 2 ^ (k - l)) % u * 2 ^ l := by
      rw [ha, hb', ← Nat.mul_mod_mul_right, mul_assoc, ← pow_add]
      congr 3; omega
    rw [hmod]
    refine exists_magVal l _ ?_
    have := Nat.mod_lt (t * 2 ^ (k - l)) hpos
    omega

/-- `fmod` of a finite x by a finite y other than 0 is exact and has the sign of x (R8). -/
theorem fmod_spec {x y : Num32} (hx : isFinite x = true) (hy : isFinite y = true) (h0 : toInt y ≠ 0) :
    isNaN (fmod x y) = false ∧ (toInt (fmod x y)).natAbs = (toInt x).natAbs % (toInt y).natAbs ∧
      sign (fmod x y) = sign x := by
  have hz : isZero y = false := by
    rw [Bool.eq_false_iff]; intro h; exact h0 ((isZero_iff y).mp h)
  simp only [fmod, not_isNaN_of_isFinite hx, not_isNaN_of_isFinite hy, hx, hy, hz, Bool.or_self, Bool.not_true,
    Bool.false_eq_true, if_false, if_true]
  refine ⟨isNaN_pack_roundMag _ _ _, ?_, sign_pack _ (roundMag_lt _ _)⟩
  rw [natAbs_toInt, natAbs_toInt, natAbs_toInt, bits_pack _ (roundMag_lt _ _), mag_eq, mag_eq]
  have hb : magVal (bits y) ≠ 0 := by rw [← natAbs_toInt]; simpa using h0
  obtain ⟨c, hc⟩ := exists_magVal_mod (bits x) (bits y) hb
  have hle : c ≤ 0x7F800000 := by
    have h1 : magVal c ≤ magVal (bits x) := by rw [hc]; exact Nat.mod_le _ _
    have h2 := magVal_le_iff.mp h1
    have h3 := bits_le_of_not_nan (not_isNaN_of_isFinite hx)
    omega
  rw [← hc]
  have := roundMag_exact (d := 1) (by decide) hle
  rw [Nat.mul_one] at this
  rw [this]

/-! ## WRAP -/

theorem toInt_len {len : Nat} (h2 : len ≤ Config.lMax) :
    toInt (ofNat len) = (len : Int) * 2 ^ 149 ∧ isFinite (ofNat len) = true ∧ isNaN (ofNat len) = false := by
  have h : len ≤ 2 ^ 24 := h2
  have hf : isFinite (ofNat len) = true := isFinite_ofNat (by omega)
  exact ⟨toInt_ofNat_exact h, hf, not_isNaN_of_isFinite hf⟩

theorem phaseLegal_iff {x : Num32} {len : Nat} (h2 : len ≤ Config.lMax) :
    PhaseLegal x len ↔ isFinite x = true ∧ 0 ≤ toInt x ∧ toInt x < (len : Int) * 2 ^ 149 ∧ x ≠ negZero := by
  obtain ⟨hL, -, hn⟩ := toInt_len h2
  unfold PhaseLegal
  refine and_congr_right (fun hf => ?_)
  rw [le_iff isNaN_posZero (not_isNaN_of_isFinite hf), lt_iff (not_isNaN_of_isFinite hf) hn, hL, toInt_posZero]

theorem wrapZero_cases {r : Num32} (hn : isNaN r = false) :
    (toInt r = 0 ∧ wrapZero r = posZero) ∨ (toInt r ≠ 0 ∧ wrapZero r = r) := by
  have h := eq_iff hn isNaN_posZero
  rw [toInt_posZero] at h
  by_cases h0 : toInt r = 0
  · exact .inl ⟨h0, if_pos (h.mpr h0)⟩
  · exact .inr ⟨h0, if_neg (fun he => h0 (h.mp he))⟩

theorem wrapCap_cases {r l : Num32} (hn : isNaN r = false) (hl : isNaN l = false) :
    (toInt r = toInt l ∧ wrapCap r l = posZero) ∨ (toInt r ≠ toInt l ∧ wrapCap r l = r) := by
  have h := eq_iff hn hl
  by_cases h0 : toInt r = toInt l
  · exact .inl ⟨h0, if_pos (h.mpr h0)⟩
  · exact .inr ⟨h0, if_neg (fun he => h0 (h.mp he))⟩

theorem wrapLift_cases {r : Num32} (l : Num32) (hn : isNaN r = false) :
    (toInt r < 0 ∧ wrapLift r l = add r l) ∨ (0 ≤ toInt r ∧ wrapLift r l = r) := by
  have h := lt_iff hn isNaN_posZero
  rw [toInt_posZero] at h
  by_cases h0 : toInt r < 0
  · exact .inl ⟨h0, if_pos (h.mpr h0)⟩
  · exact .inr ⟨by omega, if_neg (fun he => h0 (h.mp he))⟩

/-- A value in [0, L) with its zero made +0.0 is a legal phase: the last step of WRAP (R122). -/
theorem phaseLegal_wrapZero {r : Num32} {len : Nat} (h2 : len ≤ Config.lMax) (hn : isNaN r = false)
    (h0 : 0 ≤ toInt r) (hlt : toInt r < (len : Int) * 2 ^ 149) : PhaseLegal (wrapZero r) len := by
  obtain ⟨hL, hLf, -⟩ := toInt_len h2
  rw [phaseLegal_iff h2]
  rcases wrapZero_cases hn with ⟨hz, he⟩ | ⟨hz, he⟩ <;> rw [he]
  · exact ⟨isFinite_posZero, by simp, by rw [toInt_posZero]; omega, by decide⟩
  · refine ⟨isFinite_of_between isFinite_posZero hLf (by simpa using h0) (by rw [hL]; exact hlt.le), h0, hlt, ?_⟩
    rintro rfl
    exact hz toInt_negZero

/-- WRAP of a finite x answers a phase in [0, L), never -0.0 (R122, R123). -/
theorem wrapFinite_legal {x : Num32} {len : Nat} (hx : isFinite x = true) (h1 : 1 ≤ len) (h2 : len ≤ Config.lMax) :
    PhaseLegal (wrapFinite x len) len := by
  obtain ⟨hL, hLf, hLn⟩ := toInt_len h2
  have hpos : (0 : Int) < (len : Int) * 2 ^ 149 := by positivity
  obtain ⟨hn0, habs, -⟩ := fmod_spec hx hLf (by rw [hL]; exact hpos.ne')
  have hlt0 : (toInt (fmod x (ofNat len))).natAbs < (toInt (ofNat len)).natAbs := by
    rw [habs]; exact Nat.mod_lt _ (by rw [hL]; omega)
  unfold wrapFinite
  generalize fmod x (ofNat len) = r0 at *
  have hf0 : isFinite r0 = true := by
    rw [isFinite_iff_natAbs]
    exact hlt0.trans ((isFinite_iff_natAbs (ofNat len)).mp hLf)
  -- after the first correction the value is in [0, L]
  obtain ⟨hn1, hge, hle⟩ : isNaN (wrapLift r0 (ofNat len)) = false ∧ 0 ≤ toInt (wrapLift r0 (ofNat len)) ∧
      toInt (wrapLift r0 (ofNat len)) ≤ toInt (ofNat len) := by
    rcases wrapLift_cases (ofNat len) hn0 with ⟨hneg, he⟩ | ⟨hnn, he⟩ <;> rw [he]
    · obtain ⟨hadd, hna⟩ := toInt_add hf0 hLf
      refine ⟨hna, ?_, ?_⟩ <;> rw [hadd]
      · have := le_roundInt (c := posZero) (n := toInt r0 + toInt (ofNat len)) (d := 1) (by decide) isNaN_posZero
          (by rw [toInt_posZero]; omega)
        rwa [toInt_posZero] at this
      · exact roundInt_le (by decide) hLn (by push_cast; omega)
    · exact ⟨hn0, hnn, by omega⟩
  generalize wrapLift r0 (ofNat len) = r1 at *
  rcases wrapCap_cases hn1 hLn with ⟨-, he⟩ | ⟨hne, he⟩ <;> rw [he]
  · exact phaseLegal_wrapZero h2 isNaN_posZero (by simp) (by rw [toInt_posZero]; exact hpos)
  · exact phaseLegal_wrapZero h2 hn1 hge (by rw [← hL]; exact lt_of_le_of_ne hle hne)

/-- WRAP of a finite x that is not negative is the exact remainder (R122). -/
theorem toInt_wrapFinite {x : Num32} {len : Nat} (hx : isFinite x = true) (h1 : 1 ≤ len) (h2 : len ≤ Config.lMax)
    (hnn : 0 ≤ toInt x) : toInt (wrapFinite x len) = toInt x % ((len : Int) * 2 ^ 149) := by
  obtain ⟨hL, hLf, hLn⟩ := toInt_len h2
  have hpos : (0 : Int) < (len : Int) * 2 ^ 149 := by positivity
  obtain ⟨hn0, habs, hs⟩ := fmod_spec hx hLf (by rw [hL]; exact hpos.ne')
  have hnat : ((toInt (fmod x (ofNat len))).natAbs : Int) = toInt x % ((len : Int) * 2 ^ 149) := by
    rw [habs, hL, Int.natCast_mod, Int.natAbs_of_nonneg hnn, Int.natAbs_of_nonneg hpos.le]
  have hr : toInt (fmod x (ofNat len)) = toInt x % ((len : Int) * 2 ^ 149) := by
    by_cases hz : toInt (fmod x (ofNat len)) = 0
    · rw [hz] at hnat ⊢; exact hnat
    · have hsgn := sign_iff_neg hz
      have hnn2 : ¬ toInt (fmod x (ofNat len)) < 0 := by
        intro hlt
        have hsx : sign x = true := by rw [← hs]; exact hsgn.mpr hlt
        by_cases hx0 : toInt x = 0
        · rw [hx0, Int.zero_emod] at hnat; omega
        · have := (sign_iff_neg hx0).mp hsx; omega
      omega
  have hlt : toInt (fmod x (ofNat len)) < toInt (ofNat len) := by rw [hr, hL]; exact Int.emod_lt_of_pos _ hpos
  have hge : 0 ≤ toInt (fmod x (ofNat len)) := by rw [hr]; exact Int.emod_nonneg _ hpos.ne'
  rw [← hr]
  unfold wrapFinite
  generalize fmod x (ofNat len) = r0 at *
  rcases wrapLift_cases (ofNat len) hn0 with ⟨hneg, -⟩ | ⟨-, he⟩
  · omega
  rw [he]
  rcases wrapCap_cases hn0 hLn with ⟨heq, -⟩ | ⟨-, he⟩
  · omega
  rw [he]
  rcases wrapZero_cases hn0 with ⟨hz, he⟩ | ⟨-, he⟩ <;> rw [he]
  rw [hz, toInt_posZero]

/-- A legal phase is not moved by WRAP (R170's corner case). -/
theorem wrapFinite_of_legal {x : Num32} {len : Nat} (h1 : 1 ≤ len) (h2 : len ≤ Config.lMax)
    (h : PhaseLegal x len) : wrapFinite x len = x := by
  have hw := wrapFinite_legal h.1 h1 h2
  obtain ⟨hf, h0, hlt, hnz⟩ := (phaseLegal_iff h2).mp h
  obtain ⟨hfw, h0w, hltw, hnzw⟩ := (phaseLegal_iff h2).mp hw
  have hv := toInt_wrapFinite hf h1 h2 h0
  rw [Int.emod_eq_of_lt h0 hlt] at hv
  by_cases hz : toInt x = 0
  · rw [eq_posZero (hv.trans hz) hnzw, eq_posZero hz hnz]
  · exact toInt_inj hv (by rw [hv]; exact hz)

/-- WRAP, said once: it refuses a value that is not finite, and else answers `wrapFinite`. -/
theorem wrap_cases (x : Num32) (len : Nat) :
    (isFinite x = true ∧ wrap x len = .ok (wrapFinite x len)) ∨
      (isFinite x = false ∧ wrap x len = .error .nonfiniteInput) := by
  unfold wrap
  cases h : isFinite x <;> simp

/-! ## OSC_TICK -/

/-- The largest finite magnitude, and how far above it a sum still rounds to it. -/
theorem roundMag_near_max {n : Nat} (h : n ≤ magVal 0x7F7FFFFF + 2 ^ 200) : roundMag n 1 ≤ 0x7F7FFFFF := by
  obtain ⟨a, r, w, hw, hr, hn, h1, hres⟩ := roundMag_spec n 1 (by decide)
  rw [Nat.mul_one, Nat.mul_one] at h1
  rw [Nat.mul_one] at hn
  have hstep := magVal_succ 0x7F7FFFFF
  have h253 : 0x7F7FFFFF / 2 ^ 23 - 1 = 253 := by decide
  rw [h253] at hstep
  have h200 : 2 * 2 ^ 200 < 2 ^ 253 := by decide
  have ha : a ≤ 0x7F7FFFFF := by
    by_contra hlt
    have : magVal (0x7F7FFFFF + 1) ≤ magVal a := magVal_le_iff.mpr (by omega)
    omega
  rw [hres]
  apply (min_le_left _ _).trans
  split
  · rename_i hup
    by_contra hlt
    have hae : a = 0x7F7FFFFF := by omega
    subst hae
    have : w = 2 ^ 253 := by omega
    omega
  · exact ha

theorem finite_bits {x : Num32} (h : isFinite x = true) : bits x ≤ 0x7F7FFFFF := by
  rw [isFinite_eq] at h; simp at h; omega

/-- A legal phase plus a finite increment does not overflow: so OSC_TICK of a legal oscillator never refuses. -/
theorem isFinite_phase_add_inc {o : Osc} (h : OscLegal o) : isFinite (add o.phase o.inc) = true := by
  obtain ⟨h1, h2, hp, -, hi, -⟩ := h
  obtain ⟨hf, h0, hlt, -⟩ := (phaseLegal_iff h2).mp hp
  have hr := (toInt_add hf hi).1
  rw [isFinite_iff_natAbs, hr, natAbs_roundInt, infMag, magVal_lt_iff]
  have hb : (toInt o.phase + toInt o.inc).natAbs ≤ magVal 0x7F7FFFFF + 2 ^ 200 := by
    have h3 : (toInt o.inc).natAbs ≤ magVal 0x7F7FFFFF := by
      rw [natAbs_toInt]; exact magVal_le_iff.mpr (finite_bits hi)
    have h4 : o.len * 2 ^ 149 ≤ 2 ^ 200 := by
      calc o.len * 2 ^ 149 ≤ 2 ^ 24 * 2 ^ 149 := Nat.mul_le_mul_right _ h2
        _ ≤ 2 ^ 200 := by decide
    have h5 : (toInt o.phase).natAbs ≤ o.len * 2 ^ 149 := by
      have : ((toInt o.phase).natAbs : Int) ≤ (o.len : Int) * 2 ^ 149 := by
        rw [Int.natAbs_of_nonneg h0]; exact hlt.le
      exact_mod_cast this
    have := Int.natAbs_add_le (toInt o.phase) (toInt o.inc)
    omega
  have := roundMag_near_max hb
  omega

/-- OSC_TICK of a legal oscillator: completes, answers the phase before, and writes only PHASE, with a legal
phase (R123, R124). -/
theorem oscTick_ok {o : Osc} (h : OscLegal o) :
    oscTick o = .ok (o.phase, { o with phase := wrapFinite (add o.phase o.inc) o.len }) ∧
      OscLegal { o with phase := wrapFinite (add o.phase o.inc) o.len } := by
  have hfin := isFinite_phase_add_inc h
  refine ⟨?_, h.1, h.2.1, wrapFinite_legal hfin h.1 h.2.1, h.2.2.2⟩
  simp [oscTick, wrap, hfin]

/-- What OSC_TICK can do: answer the phase before with only PHASE written, or refuse a sum that is not finite. -/
theorem oscTick_cases (o : Osc) :
    (isFinite (add o.phase o.inc) = true ∧
      oscTick o = .ok (o.phase, { o with phase := wrapFinite (add o.phase o.inc) o.len })) ∨
    (isFinite (add o.phase o.inc) = false ∧ oscTick o = .error .nonfiniteInput) := by
  unfold oscTick wrap
  cases h : isFinite (add o.phase o.inc) <;> simp

/-! ## SET_FREQUENCY -/

/-- What SET_FREQUENCY can do: write FREQ and INC and nothing else, or refuse. -/
theorem setFrequency_cases (o : Osc) (hz : Num32) :
    (isFinite hz = true ∧ isFinite (div (mul (ofNat o.len) hz) o.fs) = true ∧
      setFrequency o hz = .ok { o with freq := hz, inc := div (mul (ofNat o.len) hz) o.fs }) ∨
    ((isFinite hz = false ∨ isFinite (div (mul (ofNat o.len) hz) o.fs) = false) ∧
      setFrequency o hz = .error .nonfiniteInput) := by
  unfold setFrequency
  cases h1 : isFinite hz <;> cases h2 : isFinite (div (mul (ofNat o.len) hz) o.fs) <;> simp [h2]

theorem setFrequency_legal {o o' : Osc} {hz : Num32} (h : OscLegal o) (he : setFrequency o hz = .ok o') :
    OscLegal o' := by
  rcases setFrequency_cases o hz with ⟨h1, h2, h3⟩ | ⟨-, h3⟩
  · rw [h3] at he; cases he
    exact ⟨h.1, h.2.1, h.2.2.1, h1, h2, h.2.2.2.2.2⟩
  · rw [h3] at he; cases he

end Sys2Proof.Machine
end

