-- ==== Sys2Proof/Laws/Voice.lean ====
section
/-! SUPPORT. What the wavetable read and the wavetable voice do: LERP of an index in [0, L) completes with a
value in [0, 1] and refuses every other index; the clamp answers in [0, 1] whatever it is given; VOICE_TICK of
a legal voice completes. -/

namespace Sys2Proof.Machine

open F32

theorem tableOk_iff (t : List Nat) :
    tableOk t = true ↔ 1 ≤ t.length ∧ t.length ≤ Config.lMax ∧ ∀ v ∈ t, v < 256 := by
  simp only [tableOk, Bool.and_eq_true, bne_iff_ne, ne_eq, decide_eq_true_iff, List.all_eq_true]
  have h256 : 2 ^ Config.waveBits = 256 := rfl
  simp only [h256]
  constructor
  · rintro ⟨⟨h1, h2⟩, h3⟩; exact ⟨by omega, h2, h3⟩
  · rintro ⟨h1, h2, h3⟩; exact ⟨⟨by omega, h2⟩, h3⟩

/-! ## Values in [0, 1] -/

theorem inUnit_iff {x : Num32} (hn : isNaN x = false) : InUnit x ↔ 0 ≤ toInt x ∧ toInt x ≤ 2 ^ 149 := by
  unfold InUnit
  rw [le_iff isNaN_posZero hn, le_iff hn isNaN_one, toInt_posZero, toInt_one]
  constructor
  · rintro ⟨-, h1, h2⟩; exact ⟨h1, h2⟩
  · rintro ⟨h1, h2⟩
    exact ⟨isFinite_of_between isFinite_posZero isFinite_one (by simpa using h1) (by simpa using h2), h1, h2⟩

/-- The product of two values in [0, 1] is in [0, 1] (R150). -/
theorem mul_inUnit {a b : Num32} (ha : InUnit a) (hb : InUnit b) : InUnit (mul a b) := by
  have hma := (inUnit_iff (not_isNaN_of_isFinite ha.1)).mp ha
  have hmb := (inUnit_iff (not_isNaN_of_isFinite hb.1)).mp hb
  obtain ⟨hm, hn⟩ := toInt_mul ha.1 hb.1
  rw [inUnit_iff hn, hm]
  constructor
  · have := le_roundInt (c := posZero) (n := toInt a * toInt b) (d := 2 ^ 149) (by positivity) isNaN_posZero
      (by rw [toInt_posZero]; simpa using mul_nonneg hma.1 hmb.1)
    rwa [toInt_posZero] at this
  · have := roundInt_le (c := one) (n := toInt a * toInt b) (d := 2 ^ 149) (by positivity) isNaN_one
      (by
        rw [toInt_one]
        exact_mod_cast mul_le_mul hma.2 hmb.2 hmb.1 (by positivity))
    rwa [toInt_one] at this

/-- `clamp01` answers in [0, 1] whatever it is given (R197). -/
theorem clamp01_inUnit (x : Num32) : InUnit (clamp01 x) := by
  unfold clamp01
  split
  · rename_i hf
    have hn := not_isNaN_of_isFinite hf
    have hmax : isNaN (max x posZero) = false ∧ 0 ≤ toInt (max x posZero) := by
      unfold F32.max
      split
      · rename_i hlt
        rw [lt_iff isNaN_posZero hn, toInt_posZero] at hlt
        exact ⟨hn, hlt.le⟩
      · simp
    generalize F32.max x posZero = y at *
    unfold F32.min
    split
    · rename_i hlt
      rw [lt_iff hmax.1 isNaN_one, toInt_one] at hlt
      exact (inUnit_iff hmax.1).mpr ⟨hmax.2, hlt.le⟩
    · exact (inUnit_iff isNaN_one).mpr (by rw [toInt_one]; exact ⟨by positivity, le_rfl⟩)
  · set m := Config.freeAmplitude x % 0x3F800001 with hm
    have hlt : m < 0x3F800001 := Nat.mod_lt _ (by decide)
    have hp : BitVec.ofNat 32 m = pack false m := by simp [pack]
    rw [hp]
    have hn : isNaN (pack false m) = false := by
      rw [isNaN_eq, bits_pack _ (by omega)]; simp; omega
    rw [inUnit_iff hn, toInt_pack _ (by omega)]
    have h1 : magVal m ≤ magVal 0x3F800000 := magVal_le_iff.mpr (by omega)
    have h2 : magVal 0x3F800000 = 2 ^ 149 := by decide +kernel
    rw [h2] at h1
    simp only [Bool.false_eq_true, if_false]
    exact ⟨by positivity, by exact_mod_cast h1⟩

/-! ## LERP -/

/-- The fraction of an index is exact (R141, G-4). -/
theorem toInt_fraction {q : Num32} (hf : isFinite q = true) (h0 : 0 ≤ toInt q) (hlt : toInt q < 2 ^ 24 * 2 ^ 149) :
    toInt (sub q (ofNat (floor q).toNat)) = toInt q % 2 ^ 149 ∧
      isNaN (sub q (ofNat (floor q).toNat)) = false := by
  have hfl : floor q = toInt q / 2 ^ 149 := rfl
  have hi0 : 0 ≤ floor q := by rw [hfl]; exact Int.ediv_nonneg h0 (by positivity)
  have hi : floor q < 2 ^ 24 := by
    rw [hfl]; exact Int.ediv_lt_of_lt_mul (by positivity) hlt
  set i := (floor q).toNat with hidef
  have hic : (i : Int) = floor q := Int.toNat_of_nonneg hi0
  have hi24 : i ≤ 2 ^ 24 := by omega
  have hiv := toInt_ofNat_exact hi24
  obtain ⟨hs, hn⟩ := toInt_sub hf (isFinite_ofNat (n := i) (by omega))
  refine ⟨?_, hn⟩
  rw [hs, hiv, hic]
  have hmod : toInt q - floor q * 2 ^ 149 = toInt q % 2 ^ 149 := by
    have := Int.mul_ediv_add_emod (toInt q) (2 ^ 149)
    rw [hfl]; linarith
  rw [hmod]
  -- the remainder is the magnitude of a number
  have hrep : ∃ c, magVal c = (toInt q % 2 ^ 149).toNat := by
    obtain ⟨c, hc⟩ := exists_magVal_mod (bits q) 0x3F800000 (by
      have : magVal 0x3F800000 = 2 ^ 149 := by decide +kernel
      rw [this]; positivity)
    refine ⟨c, ?_⟩
    rw [hc, ← natAbs_toInt]
    have h2 : magVal 0x3F800000 = 2 ^ 149 := by decide +kernel
    rw [h2]
    have h3 : ((toInt q).natAbs : Int) = toInt q := Int.natAbs_of_nonneg h0
    have h4 : (((toInt q).natAbs % 2 ^ 149 : Nat) : Int) = toInt q % 2 ^ 149 := by
      rw [Int.natCast_mod, h3]; norm_cast
    rw [← h4, Int.toNat_natCast]
  have hmn : 0 ≤ toInt q % 2 ^ 149 := Int.emod_nonneg _ (by positivity)
  have hml : toInt q % 2 ^ 149 < 2 ^ 149 := Int.emod_lt_of_pos _ (by positivity)
  obtain ⟨x, hx, -, hv⟩ := exists_finite hrep (by
    rw [infMag_eq]
    have : (toInt q % 2 ^ 149).toNat < 2 ^ 149 := by
      have h5 : ((toInt q % 2 ^ 149).toNat : Int) < ((2 ^ 149 : Nat) : Int) := by
        rw [Int.toNat_of_nonneg hmn]; exact_mod_cast hml
      exact_mod_cast h5
    exact this.trans (Nat.pow_lt_pow_right (by decide) (by decide)))
  rw [Int.toNat_of_nonneg hmn] at hv
  have := roundInt_exact (c := x) (d := 1) (by decide) (not_isNaN_of_isFinite hx)
  rw [hv] at this
  simpa using this

/-- The interpolated value lies in [0, 1] (R143). -/
theorem lerpValue_inUnit {a b : Nat} {f : Num32} (ha : a < 256) (hb : b < 256) (hf : InUnit f) :
    InUnit (lerpValue a b f) := by
  have hfu := (inUnit_iff (not_isNaN_of_isFinite hf.1)).mp hf
  have hA := toInt_ofNat_exact (n := a) (by omega)
  have hB := toInt_ofNat_exact (n := b) (by omega)
  have hAf := isFinite_ofNat (n := a) (by omega)
  have hBf := isFinite_ofNat (n := b) (by omega)
  have hA255 : isFinite (ofNat 255) = true := isFinite_ofNat (by omega)
  have h255 : toInt (ofNat 255) = 255 * 2 ^ 149 := by
    have := toInt_ofNat_exact (n := 255) (by omega); exact_mod_cast this
  have hp : (0 : Int) < 2 ^ 149 := by positivity
  -- b - a is exact
  obtain ⟨hd, hdn⟩ := toInt_sub hBf hAf
  have hdv : toInt (sub (ofNat b) (ofNat a)) = ((b : Int) - a) * 2 ^ 149 := by
    rw [hd, hA, hB, ← sub_mul]
    by_cases hab : a ≤ b
    · have h1 := toInt_ofNat_exact (n := b - a) (by omega)
      have h2 := roundInt_exact (c := ofNat (b - a)) (d := 1) (by decide) (toInt_ofNat (b - a)).2.1
      rw [h1, Nat.cast_sub hab] at h2
      simpa using h2
    · have h1 := toInt_ofNat_exact (n := a - b) (by omega)
      have h2 := roundInt_exact (c := neg (ofNat (a - b))) (d := 1) (by decide)
        ((isNaN_neg _).trans (toInt_ofNat (a - b)).2.1)
      rw [toInt_neg, h1, Nat.cast_sub (by omega)] at h2
      have h3 : -(((a : Int) - b) * 2 ^ 149) = ((b : Int) - a) * 2 ^ 149 := by ring
      rw [h3] at h2
      simpa using h2
  set dv := sub (ofNat b) (ofNat a) with hdvdef
  have hdf : isFinite dv = true := by
    refine isFinite_of_between (lo := neg (ofNat 255)) (hi := ofNat 255) (by rw [isFinite_neg]; exact hA255) hA255 ?_ ?_
    · rw [toInt_neg, h255, hdv]; nlinarith
    · rw [h255, hdv]; nlinarith
  -- the product lies between 0 and b - a
  obtain ⟨hm, hmn⟩ := toInt_mul hdf hf.1
  set pv := mul dv f with hpvdef
  have hpv : Min.min 0 (toInt dv) ≤ toInt pv ∧ toInt pv ≤ Max.max 0 (toInt dv) := by
    rw [hm]
    rcases le_total 0 (toInt dv) with hs | hs
    · rw [min_eq_left hs, max_eq_right hs]
      constructor
      · have := le_roundInt (c := posZero) (n := toInt dv * toInt f) (d := 2 ^ 149) (by positivity) isNaN_posZero
          (by rw [toInt_posZero]; simpa using mul_nonneg hs hfu.1)
        rwa [toInt_posZero] at this
      · exact roundInt_le (by positivity) hdn (by
          push_cast; exact mul_le_mul_of_nonneg_left hfu.2 hs)
    · rw [min_eq_right hs, max_eq_left hs]
      constructor
      · exact le_roundInt (by positivity) hdn (by
          push_cast; exact mul_le_mul_of_nonpos_left hfu.2 hs)
      · have := roundInt_le (c := posZero) (n := toInt dv * toInt f) (d := 2 ^ 149) (by positivity) isNaN_posZero
          (by rw [toInt_posZero]; simpa using mul_nonpos_of_nonpos_of_nonneg hs hfu.1)
        rwa [toInt_posZero] at this
  have ha0 : (0 : Int) ≤ a := by positivity
  have hb0 : (0 : Int) ≤ b := by positivity
  have ha255 : (a : Int) ≤ 255 := by exact_mod_cast Nat.lt_succ_iff.mp ha
  have hb255 : (b : Int) ≤ 255 := by exact_mod_cast Nat.lt_succ_iff.mp hb
  have hpf : isFinite pv = true := by
    refine isFinite_of_between (lo := neg (ofNat 255)) (hi := ofNat 255) (by rw [isFinite_neg]; exact hA255) hA255 ?_ ?_
    · rw [toInt_neg, h255]
      refine le_trans ?_ hpv.1
      rw [hdv]
      exact le_min (by nlinarith) (by nlinarith)
    · rw [h255]
      refine hpv.2.trans ?_
      rw [hdv]
      exact max_le (by nlinarith) (by nlinarith)
  -- the sum lies in [0, 255]
  obtain ⟨hs, hsn⟩ := toInt_add hAf hpf
  set sv := add (ofNat a) pv with hsvdef
  have hsum : 0 ≤ toInt (ofNat a) + toInt pv ∧ toInt (ofNat a) + toInt pv ≤ 255 * 2 ^ 149 := by
    rw [hA]
    rw [hdv] at hpv
    rcases le_total (a : Int) b with hab | hab
    · have h1 : (0 : Int) ≤ ((b : Int) - a) * 2 ^ 149 := by nlinarith
      rw [min_eq_left h1, max_eq_right h1] at hpv
      constructor <;> nlinarith [hpv.1, hpv.2]
    · have h1 : ((b : Int) - a) * 2 ^ 149 ≤ 0 := by nlinarith
      rw [min_eq_right h1, max_eq_left h1] at hpv
      constructor <;> nlinarith [hpv.1, hpv.2]
  have hsv : 0 ≤ toInt sv ∧ toInt sv ≤ 255 * 2 ^ 149 := by
    rw [hs]
    constructor
    · have := le_roundInt (c := posZero) (n := toInt (ofNat a) + toInt pv) (d := 1) (by decide) isNaN_posZero
        (by rw [toInt_posZero]; simpa using hsum.1)
      rwa [toInt_posZero] at this
    · have := roundInt_le (c := ofNat 255) (n := toInt (ofNat a) + toInt pv) (d := 1) (by decide)
        (not_isNaN_of_isFinite hA255) (by rw [h255]; simpa using hsum.2)
      rwa [h255] at this
  have hsf : isFinite sv = true :=
    isFinite_of_between isFinite_posZero hA255 (by simpa using hsv.1) (by rw [h255]; exact hsv.2)
  -- the quotient lies in [0, 1]
  have h0 : toInt (ofNat 255) ≠ 0 := by rw [h255]; positivity
  obtain ⟨hq, hqn⟩ := toInt_div hsf hA255 h0
  have hdq : Config.dequant = 255 := rfl
  have hunf : lerpValue a b f = div sv (ofNat 255) := by
    simp only [lerpValue, hdq]; rfl
  rw [hunf, inUnit_iff hqn, hq]
  have hneg : ¬ toInt (ofNat 255) < 0 := by rw [h255]; exact not_lt.mpr (by positivity)
  have hdpos : 0 < (toInt (ofNat 255)).natAbs := by rw [h255]; decide
  have hdabs : (((toInt (ofNat 255)).natAbs : Nat) : Int) = 255 * 2 ^ 149 := by
    rw [h255]; rfl
  rw [if_neg hneg]
  constructor
  · have := le_roundInt (c := posZero) (n := toInt sv * 2 ^ 149) (d := (toInt (ofNat 255)).natAbs) hdpos isNaN_posZero
      (by rw [toInt_posZero]; simpa using mul_nonneg hsv.1 hp.le)
    rwa [toInt_posZero] at this
  · have := roundInt_le (c := one) (n := toInt sv * 2 ^ 149) (d := (toInt (ofNat 255)).natAbs) hdpos isNaN_one
      (by rw [toInt_one, hdabs]; nlinarith [hsv.2])
    rwa [toInt_one] at this

/-- LERP of an index in [0, L) of a checked table completes, with the value its two entries give, in [0, 1] (R141,
R143). -/
theorem lerp_reads {t : List Nat} {q : Num32} (ht : tableOk t = true) (hf : isFinite q = true)
    (h0 : le posZero q = true) (hlt : lt q (ofNat t.length) = true) :
    ∃ i a b : Nat, floor q = (i : Int) ∧ t[i]? = some a ∧ t[(i + 1) % t.length]? = some b ∧
      lerp t q = .ok (lerpValue a b (sub q (ofNat i))) ∧ InUnit (lerpValue a b (sub q (ofNat i))) ∧
      isNaN (sub q (ofNat i)) = false ∧ toInt (sub q (ofNat i)) = toInt q % 2 ^ 149 ∧ a < 256 ∧ b < 256 := by
  obtain ⟨h1, h2, hv⟩ := (tableOk_iff t).mp ht
  obtain ⟨hL, -, hLn⟩ := toInt_len h2
  have hn := not_isNaN_of_isFinite hf
  have h0' : 0 ≤ toInt q := by rw [le_iff isNaN_posZero hn, toInt_posZero] at h0; exact h0
  have hlt' : toInt q < (t.length : Int) * 2 ^ 149 := by rw [lt_iff hn hLn, hL] at hlt; exact hlt
  have hlt24 : toInt q < 2 ^ 24 * 2 ^ 149 := by
    refine hlt'.trans_le ?_
    have : (t.length : Int) ≤ 2 ^ 24 := by exact_mod_cast h2
    exact mul_le_mul_of_nonneg_right this (by positivity)
  have hi0 : 0 ≤ floor q := Int.ediv_nonneg h0' (by positivity)
  have hi : (floor q).toNat < t.length := by
    have : floor q < t.length := Int.ediv_lt_of_lt_mul (by positivity) hlt'
    omega
  have hnx : ((floor q).toNat + 1) % t.length < t.length := Nat.mod_lt _ (by omega)
  obtain ⟨hfr, hfn⟩ := toInt_fraction hf h0' hlt24
  have hfu : InUnit (sub q (ofNat (floor q).toNat)) := by
    rw [inUnit_iff hfn, hfr]
    exact ⟨Int.emod_nonneg _ (by positivity), (Int.emod_lt_of_pos _ (by positivity)).le⟩
  refine ⟨(floor q).toNat, t[(floor q).toNat], t[((floor q).toNat + 1) % t.length], by omega,
    List.getElem?_eq_getElem hi, List.getElem?_eq_getElem hnx, ?_,
    lerpValue_inUnit (hv _ (List.getElem_mem _)) (hv _ (List.getElem_mem _)) hfu, hfn, hfr, hv _ (List.getElem_mem _),
    hv _ (List.getElem_mem _)⟩
  simp only [lerp, h0, hlt, Bool.and_self, if_true, tableRead, List.getElem?_eq_getElem hi, List.getElem?_eq_getElem hnx]

theorem lerp_ok {t : List Nat} {q : Num32} (ht : tableOk t = true) (hf : isFinite q = true)
    (h0 : le posZero q = true) (hlt : lt q (ofNat t.length) = true) : ∃ y, lerp t q = .ok y ∧ InUnit y := by
  obtain ⟨i, a, b, -, -, -, h, hu, -⟩ := lerp_reads ht hf h0 hlt
  exact ⟨_, h, hu⟩

/-- LERP refuses every index outside [0, L) (R141). -/
theorem lerp_refuses {t : List Nat} {q : Num32} (h : (le posZero q && lt q (ofNat t.length)) = false) :
    lerp t q = .error .indexRange := by
  simp [lerp, h]

/-! ## VOICE_TICK -/

theorem envTick_inUnit (e : Env) (a : ActiveState) : InUnit (envTick e a).1 := clamp01_inUnit _

/-- VOICE_TICK of a legal voice completes with a sample in [0, 1]; the oscillator advances as OSC_TICK says, the
envelope as ENV_TICK says, ACTIVE as R147 says (R146, R150). -/
theorem voiceTick_ok {v : WaveVoice} (h : WaveVoiceLegal v) :
    ∃ y, lerp v.defn.data v.osc.phase = .ok y ∧ InUnit y ∧
      voiceTick v = .ok (mul y (envTick v.env v.active).1,
        { v with
          osc := { v.osc with phase := wrapFinite (add v.osc.phase v.osc.inc) v.osc.len }
          env := (envTick v.env v.active).2
          active := activeAfterTick v.active }) ∧
      InUnit (mul y (envTick v.env v.active).1) := by
  obtain ⟨ho, hlen, ht, -⟩ := h
  have hp := ho.2.2.1
  rw [hlen] at hp
  obtain ⟨y, hy, hyu⟩ := lerp_ok ht hp.1 hp.2.1 hp.2.2.1
  refine ⟨y, hy, hyu, ?_, mul_inUnit hyu (envTick_inUnit _ _)⟩
  simp only [voiceTick, (oscTick_ok ho).1, hy]

end Sys2Proof.Machine
end

