-- ==== Sys2Proof/Laws/Envelope.lean ====
section
/-! SUPPORT. The envelope (43_envelope.md): what ENV_BUILD builds, what one tick does, that the counters stay
legal, and what a run of ticks under one activity does. -/

namespace Sys2Proof.Machine

/-! ## ENV_BUILD -/

theorem stageTicks_pos (t fs : Num32) : 1 ≤ (stageTicks t fs).toNat := by
  simp only [stageTicks]
  split
  · next h =>
    simp only [Bool.and_eq_true, decide_eq_true_eq] at h
    simp only [Config.nMax] at h
    simp only [BitVec.toNat_ofNat, Nat.max_def]
    split <;> omega
  · have := Nat.mod_lt (Config.freeStageTicks t fs) (show 0 < Config.nMax by decide)
    simp only [BitVec.toNat_ofNat, Config.nMax] at *
    omega

/-- The length of a stage whose time ENV_CHECK accepted (R191, R192). -/
theorem stageTicks_of_ok {t fs : Num32} (h : stageTimeOk t fs = true) :
    (stageTicks t fs).toNat = Nat.max 1 (F32.floor (F32.mul t fs)).toNat := by
  simp only [stageTimeOk, Bool.and_eq_true, decide_eq_true_eq] at h
  obtain ⟨⟨-, hf⟩, hn⟩ := h
  simp only [stageTicks, hf, hn, decide_true, Bool.and_self, if_true, BitVec.toNat_ofNat]
  simp only [Config.nMax] at hn
  apply Nat.mod_eq_of_lt
  simp only [Nat.max_def]
  split <;> omega

theorem envBuild_legal (d : EnvelopeDefinition) (fs : Num32) : EnvLegal (envBuild d fs) :=
  ⟨stageTicks_pos _ _, stageTicks_pos _ _, stageTicks_pos _ _, by simp [envBuild, stageLength]⟩

/-! ## One tick -/

/-- Entry leaves the stage lengths and the sustain level, and either changes nothing or starts a stage at its
beginning (R196). -/
theorem envEnter_cases (e : Env) (a : ActiveState) :
    envEnter e a = e ∨ envEnter e a = { e with stage := .attack, k := 0, start := F32.posZero } ∨
      envEnter e a = { e with stage := .release, k := 0, start := e.level } := by
  unfold envEnter
  split <;> simp

theorem envEnter_legal {e : Env} (h : EnvLegal e) (a : ActiveState) : EnvLegal (envEnter e a) := by
  obtain ⟨h1, h2, h3, -⟩ := id h
  rcases envEnter_cases e a with he | he | he <;> rw [he]
  · exact h
  · exact ⟨h1, h2, h3, by simp [stageLength]; omega⟩
  · exact ⟨h1, h2, h3, by simp [stageLength]; omega⟩

/-- What RAMP does (R194), by whether this is the last tick of the stage. -/
theorem ramp_cases {e : Env} {target : Num32} {n : BitVec 32} {next : Stage} {ns : Num32} (hk : e.k.toNat < n.toNat) :
    (e.k.toNat + 1 = n.toNat ∧ ramp e target n next ns = { e with level := target, stage := next, k := 0, start := ns }) ∨
    (e.k.toNat + 1 < n.toNat ∧ (e.k + 1).toNat = e.k.toNat + 1 ∧
      ramp e target n next ns = { e with k := e.k + 1, level := rampLevel e.start target (e.k + 1) n }) := by
  have hn := n.isLt
  have h1 : (e.k + 1).toNat = e.k.toNat + 1 := by
    rw [BitVec.toNat_add]
    exact Nat.mod_eq_of_lt (by simp; omega)
  unfold ramp
  split
  · next h => exact .inl ⟨by rw [← h1, h], rfl⟩
  · next h =>
    refine .inr ⟨?_, h1, rfl⟩
    have : (e.k + 1).toNat ≠ n.toNat := fun hh => h (BitVec.eq_of_toNat_eq hh)
    omega

theorem envAdvance_legal {e : Env} (h : EnvLegal e) : EnvLegal (envAdvance e) := by
  obtain ⟨h1, h2, h3, hk⟩ := id h
  unfold envAdvance
  cases hs : e.stage <;> simp only [stageLength, hs] at hk
  · exact ⟨h1, h2, h3, by simp only [stageLength]; exact hk⟩
  · rcases ramp_cases (target := F32.one) (next := .decay) (ns := F32.one) hk with ⟨_, he⟩ | ⟨hlt, hn, he⟩ <;> rw [he]
    · exact ⟨h1, h2, h3, by simp [stageLength]; omega⟩
    · exact ⟨h1, h2, h3, by simp only [stageLength, hs, hn]; exact hlt⟩
  · rcases ramp_cases (target := e.sus) (next := .sustain) (ns := e.sus) hk with ⟨_, he⟩ | ⟨hlt, hn, he⟩ <;> rw [he]
    · exact ⟨h1, h2, h3, by simp [stageLength]⟩
    · exact ⟨h1, h2, h3, by simp only [stageLength, hs, hn]; exact hlt⟩
  · exact ⟨h1, h2, h3, by simp only [stageLength]; exact hk⟩
  · rcases ramp_cases (target := F32.posZero) (next := .idle) (ns := F32.posZero) hk with ⟨_, he⟩ | ⟨hlt, hn, he⟩ <;> rw [he]
    · exact ⟨h1, h2, h3, by simp [stageLength]⟩
    · exact ⟨h1, h2, h3, by simp only [stageLength, hs, hn]; exact hlt⟩

/-- A tick keeps the counters of an envelope legal (R25). -/
theorem envTick_legal {e : Env} (h : EnvLegal e) (a : ActiveState) : EnvLegal (envTick e a).2 :=
  envAdvance_legal (envEnter_legal h a)

/-! ## A run of ticks -/

@[simp] theorem envTicks_nil (e : Env) : envTicks [] e = e := rfl
@[simp] theorem envTicks_cons (a : ActiveState) (as : List ActiveState) (e : Env) :
    envTicks (a :: as) e = envTicks as (envTick e a).2 := rfl

theorem envTicks_append (as bs : List ActiveState) (e : Env) : envTicks (as ++ bs) e = envTicks bs (envTicks as e) := by
  induction as generalizing e with
  | nil => rfl
  | cons a as ih => exact ih _

theorem envTicks_legal {e : Env} (h : EnvLegal e) (as : List ActiveState) : EnvLegal (envTicks as e) := by
  induction as generalizing e with
  | nil => exact h
  | cons a as ih => exact ih (envTick_legal h a)

/-- A run of ticks of one stage, short of its end (R194). `H` says that a tick is RAMP throughout. -/
theorem envTicks_ramp {e : Env} {a : ActiveState} {target : Num32} {n : BitVec 32} {next : Stage} {ns : Num32}
    (H : ∀ k l, (envTick { e with k := k, level := l } a).2 = ramp { e with k := k, level := l } target n next ns)
    (h0 : e.k = 0) (j : Nat) (hj : j + 1 < n.toNat) :
    envTicks (List.replicate (j + 1) a) e =
      { e with k := BitVec.ofNat 32 (j + 1), level := rampLevel e.start target (BitVec.ofNat 32 (j + 1)) n } := by
  have hn := n.isLt
  induction j with
  | zero =>
    have := ramp_cases (e := e) (target := target) (n := n) (next := next) (ns := ns) (by rw [h0]; simp; omega)
    rw [h0] at this
    simp only [BitVec.toNat_zero, BitVec.ofNat_eq_ofNat, Nat.zero_add] at this
    rcases this with ⟨h, -⟩ | ⟨-, -, he⟩
    · omega
    · have hH : (envTick e a).2 = ramp e target n next ns := H e.k e.level
      show (envTick e a).2 = _
      rw [hH, he]
      congr 1
  | succ j ih =>
    rw [List.replicate_succ', envTicks_append, ih (by omega)]
    show (envTick _ a).2 = _
    rw [H]
    have hk : (BitVec.ofNat 32 (j + 1)).toNat = j + 1 := by simp; omega
    have := ramp_cases (e := { e with k := BitVec.ofNat 32 (j + 1), level := rampLevel e.start target (BitVec.ofNat 32 (j + 1)) n })
      (target := target) (n := n) (next := next) (ns := ns) (by rw [hk]; omega)
    simp only [hk] at this
    rcases this with ⟨h, -⟩ | ⟨-, -, he⟩
    · omega
    · rw [he]
      have : BitVec.ofNat 32 (j + 1) + 1 = BitVec.ofNat 32 (j + 1 + 1) := by
        apply BitVec.eq_of_toNat_eq; simp [BitVec.toNat_add]
      simp only [this]

/-- A whole stage (R194): at its last tick the level is the target exactly. -/
theorem envTicks_stage {e : Env} {a : ActiveState} {target : Num32} {n : BitVec 32} {next : Stage} {ns : Num32}
    (H : ∀ k l, (envTick { e with k := k, level := l } a).2 = ramp { e with k := k, level := l } target n next ns)
    (h0 : e.k = 0) (hn : 1 ≤ n.toNat) :
    envTicks (List.replicate n.toNat a) e = { e with level := target, stage := next, k := 0, start := ns } := by
  obtain ⟨m, hm⟩ : ∃ m, n.toNat = m + 1 := ⟨n.toNat - 1, by omega⟩
  rw [hm, List.replicate_succ', envTicks_append]
  show (envTick _ a).2 = _
  rcases m with _ | m
  · have hH : (envTick e a).2 = ramp e target n next ns := H e.k e.level
    simp only [List.replicate_zero, envTicks_nil, hH]
    rcases ramp_cases (e := e) (target := target) (n := n) (next := next) (ns := ns) (by rw [h0]; simp; omega) with
      ⟨-, he⟩ | ⟨h, -⟩
    · exact he
    · omega
  · rw [envTicks_ramp H h0 m (by omega), H]
    have hk : (BitVec.ofNat 32 (m + 1)).toNat = m + 1 := by have := n.isLt; simp; omega
    have := ramp_cases (e := { e with k := BitVec.ofNat 32 (m + 1), level := rampLevel e.start target (BitVec.ofNat 32 (m + 1)) n })
      (target := target) (n := n) (next := next) (ns := ns) (by rw [hk]; omega)
    simp only [hk] at this
    rcases this with ⟨-, he⟩ | ⟨h, -⟩
    · rw [he]
    · omega

/-- One stage at a time: a tick that stays in Attack, Decay or Release is RAMP (R195). -/
theorem envTick_attack {e : Env} (hs : e.stage = .attack) :
    (envTick e .On).2 = ramp e F32.one e.na .decay F32.one := by
  simp [envTick, envEnter, envAdvance, hs]

theorem envTick_decay {e : Env} (hs : e.stage = .decay) : (envTick e .On).2 = ramp e e.sus e.nd .sustain e.sus := by
  simp [envTick, envEnter, envAdvance, hs]

theorem envTick_release {e : Env} (hs : e.stage = .release) :
    (envTick e .Off).2 = ramp e F32.posZero e.nr .idle F32.posZero := by
  simp [envTick, envEnter, envAdvance, hs]

/-- The first tick of a stage that is being entered is the tick of that stage at its beginning. -/
theorem envTick_enter (e : Env) (a : ActiveState) : (envTick e a).2 = envAdvance (envEnter e a) := rfl

theorem envEnter_idem (e : Env) {a : ActiveState} (_ha : a ≠ .Trigger) : envEnter (envEnter e a) a = envEnter e a := by
  cases a <;> simp_all [envEnter] <;> cases hs : e.stage <;> simp [hs]

/-- A run of ticks under On or Off is the run from the state it enters (R196). -/
theorem envTicks_enter (e : Env) {a : ActiveState} (ha : a ≠ .Trigger) (j : Nat) :
    envTicks (List.replicate (j + 1) a) e = envTicks (List.replicate (j + 1) a) (envEnter e a) := by
  simp only [List.replicate_succ, envTicks_cons, envTick_enter, envEnter_idem e ha]

end Sys2Proof.Machine
end

