-- ==== Sys2Proof/Laws/Level.lean ====
section
/-! SUPPORT. LEVEL stays in [0, 1] (10_state.md R25, 43_envelope.md R197) where the release lasts at most 2^24
ticks. Above that a counter and the stage length can round to the same number before the last tick, and the
release may then fall below 0 by a rounding. -/

namespace Sys2Proof.Machine

open F32

/-- The counter of a tick is at most the stage length after rounding (R11). -/
theorem toInt_ofNat_mono {a b : Nat} (h : a ≤ b) : toInt (ofNat a) ≤ toInt (ofNat b) := by
  simp only [ofNat, toInt_pack _ (roundMag_lt _ _), Bool.false_eq_true, if_false]
  exact_mod_cast magVal_le_iff.mpr (roundMag_mono (by decide) (Nat.mul_le_mul_right _ h))

theorem toInt_ofNat_nonneg (n : Nat) : 0 ≤ toInt (ofNat n) := by
  simp only [ofNat, toInt_pack _ (roundMag_lt _ _), Bool.false_eq_true, if_false]
  positivity

theorem toInt_ofNat_pos {n : Nat} (h : 1 ≤ n) : 0 < toInt (ofNat n) := by
  have h1 := toInt_ofNat_mono h
  have h2 := toInt_ofNat_exact (n := 1) (by decide)
  have h3 : toInt (ofNat 1) = 2 ^ 149 := by rw [h2]; norm_num
  rw [h3] at h1
  exact lt_of_lt_of_le (by positivity) h1

/-- Dividing by a positive number: the sign of the quotient is that of the dividend. -/
theorem toInt_div_pos {a b : Num32} (ha : isFinite a = true) (hb : isFinite b = true) (h0 : 0 < toInt b) :
    toInt (div a b) = roundInt (toInt a * 2 ^ 149) (toInt b).natAbs ∧ isNaN (div a b) = false ∧
      (((toInt b).natAbs : Nat) : Int) = toInt b ∧ 0 < (toInt b).natAbs := by
  obtain ⟨h1, h2⟩ := toInt_div ha hb h0.ne'
  rw [if_neg (not_lt.mpr h0.le)] at h1
  exact ⟨h1, h2, Int.natAbs_of_nonneg h0.le, by omega⟩

theorem toInt_negOne : toInt (neg one) = -(2 ^ 149) := by rw [toInt_neg, toInt_one]

/-- The quotient of two numbers, the first at most the second, lies in [0, 1]. -/
theorem div_inUnit {a b : Num32} (ha : isFinite a = true) (hb : isFinite b = true) (h0 : 0 < toInt b)
    (h1 : 0 ≤ toInt a) (h2 : toInt a ≤ toInt b) : InUnit (div a b) := by
  obtain ⟨hd, hdn, hab, hap⟩ := toInt_div_pos ha hb h0
  rw [inUnit_iff hdn, hd]
  constructor
  · have := le_roundInt (c := posZero) (n := toInt a * 2 ^ 149) hap isNaN_posZero
      (by rw [toInt_posZero, zero_mul]; exact mul_nonneg h1 (by positivity))
    rwa [toInt_posZero] at this
  · have := roundInt_le (c := one) (n := toInt a * 2 ^ 149) hap isNaN_one
      (by rw [toInt_one, hab, mul_comm]; exact mul_le_mul_of_nonneg_left h2 (by positivity))
    rwa [toInt_one] at this

/-- Adding to +0.0 keeps a value in [0, 1]. -/
theorem zero_add_inUnit {q : Num32} (hq : InUnit q) : InUnit (add posZero q) := by
  have hqn := not_isNaN_of_isFinite hq.1
  have hqi := (inUnit_iff hqn).mp hq
  obtain ⟨ha, han⟩ := toInt_add isFinite_posZero hq.1
  have h4 := roundInt_exact (c := q) (d := 1) (by decide) hqn
  rw [toInt_posZero, zero_add] at ha
  rw [Nat.cast_one, mul_one] at h4
  rw [h4] at ha
  rw [inUnit_iff han, ha]
  exact hqi

/-- Multiplying 1.0 by a number gives its value. -/
theorem toInt_one_mul {x : Num32} (hx : isFinite x = true) :
    toInt (mul one x) = toInt x ∧ isFinite (mul one x) = true := by
  obtain ⟨h1, -⟩ := toInt_mul isFinite_one hx
  have h3 := roundInt_exact (c := x) (d := 2 ^ 149) (by positivity) (not_isNaN_of_isFinite hx)
  rw [toInt_one, mul_comm] at h1
  rw [Nat.cast_pow, Nat.cast_ofNat] at h3
  rw [h3] at h1
  exact ⟨h1, by rw [isFinite_iff] at hx ⊢; rw [h1]; exact hx⟩

theorem one_sub_zero : sub one posZero = one := by decide +kernel

/-- Attack's level (R198): k / N, rounded once. -/
theorem attackLevel_inUnit {k n : BitVec 32} (hk : k.toNat ≤ n.toNat) (hn : 1 ≤ n.toNat) :
    InUnit (rampLevel posZero one k n) := by
  have hkf := isFinite_ofNat (Nat.le_of_lt k.isLt)
  have hm := toInt_one_mul hkf
  unfold rampLevel
  rw [one_sub_zero]
  refine zero_add_inUnit (div_inUnit hm.2 (isFinite_ofNat (Nat.le_of_lt n.isLt)) (toInt_ofNat_pos hn) ?_ ?_)
  · rw [hm.1]; exact toInt_ofNat_nonneg _
  · rw [hm.1]; exact toInt_ofNat_mono hk

/-- A subtrahend between 0 and 1 taken from a start between 0 and 1. -/
theorem add_inUnit_of_neg {s q : Num32} (hs : InUnit s) (_hqn : isNaN q = false) (h1 : -toInt s ≤ toInt q)
    (h2 : toInt q ≤ 0) : InUnit (add s q) := by
  have hsi := (inUnit_iff (not_isNaN_of_isFinite hs.1)).mp hs
  have hqf : isFinite q = true := by
    refine isFinite_of_between (lo := neg s) (hi := posZero) (by rw [isFinite_neg]; exact hs.1) isFinite_posZero ?_ ?_
    · rw [toInt_neg]; exact h1
    · rw [toInt_posZero]; exact h2
  obtain ⟨ha, han⟩ := toInt_add hs.1 hqf
  rw [inUnit_iff han, ha]
  constructor
  · have := le_roundInt (c := posZero) (n := toInt s + toInt q) (d := 1) (by decide) isNaN_posZero
      (by rw [toInt_posZero]; simp only [Nat.cast_one]; omega)
    rwa [toInt_posZero] at this
  · have := roundInt_le (c := s) (n := toInt s + toInt q) (d := 1) (by decide) (not_isNaN_of_isFinite hs.1)
      (by simp only [Nat.cast_one]; omega)
    omega

/-- Decay's level (R198), from 1 towards SUS. -/
theorem decayLevel_inUnit {sus : Num32} {k n : BitVec 32} (hs : InUnit sus) (hk : k.toNat ≤ n.toNat) (hn : 1 ≤ n.toNat) :
    InUnit (rampLevel one sus k n) := by
  have hkf := isFinite_ofNat (n := k.toNat) k.isLt.le
  have hnf := isFinite_ofNat (n := n.toNat) n.isLt.le
  have hn0 := toInt_ofNat_pos hn
  have hk0 := toInt_ofNat_nonneg k.toNat
  have hkn := toInt_ofNat_mono hk
  have hsi := (inUnit_iff (not_isNaN_of_isFinite hs.1)).mp hs
  have h1n : isNaN (neg one) = false := by rw [isNaN_neg]; exact isNaN_one
  have h1f : isFinite (neg one) = true := by rw [isFinite_neg]; exact isFinite_one
  -- sus - 1 lies in [-1, 0]
  obtain ⟨hd, hdn⟩ := toInt_sub hs.1 isFinite_one
  have hdl : -(2 ^ 149) ≤ toInt (sub sus one) ∧ toInt (sub sus one) ≤ 0 := by
    rw [hd]
    constructor
    · have := le_roundInt (c := neg one) (n := toInt sus - toInt one) (d := 1) (by decide) h1n
        (by rw [toInt_negOne, toInt_one]; simp only [Nat.cast_one]; omega)
      rwa [toInt_negOne] at this
    · have := roundInt_le (c := posZero) (n := toInt sus - toInt one) (d := 1) (by decide) isNaN_posZero
        (by rw [toInt_posZero, toInt_one]; simp only [Nat.cast_one]; omega)
      rwa [toInt_posZero] at this
  have hdf : isFinite (sub sus one) = true :=
    isFinite_of_between (lo := neg one) (hi := posZero) h1f isFinite_posZero (by rw [toInt_negOne]; exact hdl.1)
      (by rw [toInt_posZero]; exact hdl.2)
  -- its product with k lies in [-n, 0]
  obtain ⟨hm, hmn⟩ := toInt_mul hdf hkf
  have hnn : isNaN (neg (ofNat n.toNat)) = false := by rw [isNaN_neg]; exact not_isNaN_of_isFinite hnf
  have hml : -toInt (ofNat n.toNat) ≤ toInt (mul (sub sus one) (ofNat k.toNat)) ∧
      toInt (mul (sub sus one) (ofNat k.toNat)) ≤ 0 := by
    rw [hm]
    constructor
    · have := le_roundInt (c := neg (ofNat n.toNat)) (n := toInt (sub sus one) * toInt (ofNat k.toNat)) (d := 2 ^ 149)
        (by positivity) hnn (by rw [toInt_neg]; push_cast; nlinarith [hdl.1])
      rwa [toInt_neg] at this
    · have := roundInt_le (c := posZero) (n := toInt (sub sus one) * toInt (ofNat k.toNat)) (d := 2 ^ 149)
        (by positivity) isNaN_posZero (by rw [toInt_posZero]; simpa using mul_nonpos_of_nonpos_of_nonneg hdl.2 hk0)
      rwa [toInt_posZero] at this
  have hmf : isFinite (mul (sub sus one) (ofNat k.toNat)) = true :=
    isFinite_of_between (lo := neg (ofNat n.toNat)) (hi := posZero) (by rw [isFinite_neg]; exact hnf) isFinite_posZero
      (by rw [toInt_neg]; exact hml.1) (by rw [toInt_posZero]; exact hml.2)
  -- the quotient lies in [-1, 0]
  obtain ⟨hq, hqn, hab, hap⟩ := toInt_div_pos hmf hnf hn0
  rw [rampLevel]
  refine add_inUnit_of_neg ⟨isFinite_one, by decide +kernel, by decide +kernel⟩ hqn ?_ ?_
  · rw [toInt_one, hq]
    have := le_roundInt (c := neg one) (n := toInt (mul (sub sus one) (ofNat k.toNat)) * 2 ^ 149) hap h1n
      (by rw [toInt_negOne, hab]; nlinarith [hml.1])
    rwa [toInt_negOne] at this
  · rw [hq]
    have := roundInt_le (c := posZero) (n := toInt (mul (sub sus one) (ofNat k.toNat)) * 2 ^ 149) hap isNaN_posZero
      (by rw [toInt_posZero, zero_mul]; nlinarith [hml.2])
    rwa [toInt_posZero] at this

/-- Subtracting from +0.0 is exact. -/
theorem toInt_zero_sub {s : Num32} (hs : isFinite s = true) :
    toInt (sub posZero s) = -toInt s ∧ isFinite (sub posZero s) = true := by
  obtain ⟨hd, -⟩ := toInt_sub isFinite_posZero hs
  have h := roundInt_exact (c := neg s) (d := 1) (by decide) (by rw [isNaN_neg]; exact not_isNaN_of_isFinite hs)
  rw [toInt_posZero, zero_sub] at hd
  rw [Nat.cast_one, mul_one, toInt_neg] at h
  rw [h] at hd
  refine ⟨hd, ?_⟩
  have hsf := isFinite_neg s
  rw [hs] at hsf
  rw [isFinite_iff] at hsf ⊢
  rw [hd]
  rwa [toInt_neg] at hsf

/-- The magnitude of the rounded product of a start and a counter is at most start times stage length. -/
theorem magVal_product_le {S k n Q : Nat} (hk : k < n) (hn : n ≤ 2 ^ 24) (hQ : 0 < Q) :
    magVal (roundMag (S * (k * Q)) Q) ≤ S * n := by
  have hc := roundMag_close (S * (k * Q)) Q hQ
  generalize magVal (roundMag (S * (k * Q)) Q) = P at hc ⊢
  have hc2 : 2 ^ 24 * P ≤ (2 ^ 24 + 1) * (S * k) + 2 ^ 23 := by
    refine Nat.le_of_mul_le_mul_right (c := Q) ?_ hQ
    calc 2 ^ 24 * P * Q = 2 ^ 24 * (P * Q) := by ring
      _ ≤ _ := hc
      _ = _ := by ring
  rcases Nat.eq_zero_or_pos S with h0 | h0
  · rw [h0] at hc2 ⊢; omega
  · have h1 : S * k + S ≤ S * n := by
      rw [← Nat.mul_succ]; exact Nat.mul_le_mul_left _ hk
    have h2 : S * k ≤ S * (2 ^ 24 - 1) := Nat.mul_le_mul_left _ (by omega)
    omega

/-- The rounding of a negated natural number. -/
theorem roundInt_neg_nat (n d : Nat) : roundInt (-(n : Int)) d = -(magVal (roundMag n d) : Int) := by
  unfold roundInt
  rw [Int.natAbs_neg, Int.natAbs_natCast]
  split
  · rfl
  · next h =>
    obtain rfl : n = 0 := by omega
    rw [roundMag_zero, magVal_zero]; rfl

/-- The product of a negated start and a counter lies between minus start times stage length and 0. -/
theorem roundInt_product {S k n Q : Nat} (hk : k < n) (hn : n ≤ 2 ^ 24) (hQ : 0 < Q) :
    -((S * n : Nat) : Int) ≤ roundInt (-(S : Int) * ((k : Int) * (Q : Int))) Q ∧
      roundInt (-(S : Int) * ((k : Int) * (Q : Int))) Q ≤ 0 := by
  have h : -(S : Int) * ((k : Int) * (Q : Int)) = -((S * (k * Q) : Nat) : Int) := by push_cast; ring
  rw [h, roundInt_neg_nat]
  have := magVal_product_le (S := S) hk hn hQ
  omega

/-- Release's level (R198), from START towards 0, over at most 2^24 ticks. -/
theorem releaseLevel_inUnit {s : Num32} {k n : BitVec 32} (hs : InUnit s) (hk : k.toNat < n.toNat)
    (hn24 : n.toNat ≤ 2 ^ 24) : InUnit (rampLevel s posZero k n) := by
  have hkf := isFinite_ofNat (Nat.le_of_lt k.isLt)
  have hnf := isFinite_ofNat (Nat.le_of_lt n.isLt)
  have hn0 := toInt_ofNat_pos (n := n.toNat) (by omega)
  have hsi := (inUnit_iff (not_isNaN_of_isFinite hs.1)).mp hs
  have hkv := toInt_ofNat_exact (n := k.toNat) (by omega)
  have hnv := toInt_ofNat_exact hn24
  obtain ⟨hdv, hdf⟩ := toInt_zero_sub hs.1
  obtain ⟨hm, -⟩ := toInt_mul hdf hkf
  obtain ⟨S, hS⟩ : ∃ S : Nat, toInt s = S := ⟨(toInt s).toNat, (Int.toNat_of_nonneg hsi.1).symm⟩
  have hb := roundInt_product (S := S) hk hn24 (Q := 2 ^ 149) (Nat.two_pow_pos 149)
  rw [hdv, hS, hkv] at hm
  rw [Nat.cast_pow, Nat.cast_ofNat, ← hm] at hb
  set p := mul (sub posZero s) (ofNat k.toNat) with hp
  have hsn : ((S * n.toNat : Nat) : Int) ≤ toInt (ofNat n.toNat) := by
    rw [hnv, Nat.cast_mul, mul_comm]
    exact mul_le_mul_of_nonneg_left (by rw [← hS]; exact hsi.2) (Int.natCast_nonneg _)
  have hmf : isFinite p = true := by
    refine isFinite_of_between (lo := neg (ofNat n.toNat)) (hi := posZero) (by rw [isFinite_neg]; exact hnf)
      isFinite_posZero ?_ ?_
    · rw [toInt_neg]; omega
    · rw [toInt_posZero]; exact hb.2
  obtain ⟨hq, hqn, hab, hap⟩ := toInt_div_pos hmf hnf hn0
  rw [rampLevel, ← hp]
  refine add_inUnit_of_neg hs hqn ?_ ?_
  · rw [hq]
    have := le_roundInt (c := neg s) (n := toInt p * 2 ^ 149) hap
      (by rw [isNaN_neg]; exact not_isNaN_of_isFinite hs.1)
      (by
        rw [toInt_neg, hab, hS, hnv, ← mul_assoc]
        refine mul_le_mul_of_nonneg_right ?_ (by positivity)
        rw [neg_mul]
        exact_mod_cast hb.1)
    rwa [toInt_neg] at this
  · rw [hq]
    have := roundInt_le (c := posZero) (n := toInt p * 2 ^ 149) hap isNaN_posZero
      (by
        rw [toInt_posZero, zero_mul]
        exact mul_nonpos_of_nonpos_of_nonneg hb.2 (by positivity))
    rwa [toInt_posZero] at this

/-! ## The levels of an envelope -/

theorem inUnit_zero : InUnit posZero := by decide +kernel
theorem inUnit_one : InUnit one := by decide +kernel

theorem envEnter_level {e : Env} (h : LevelLegal e) (a : ActiveState) : LevelLegal (envEnter e a) := by
  obtain ⟨h1, h2, h3, h4, h5⟩ := id h
  rcases envEnter_cases e a with he | he | he <;> rw [he]
  · exact h
  · exact ⟨h1, inUnit_zero, h3, fun _ => rfl, (fun hc => by cases hc)⟩
  · exact ⟨h1, h1, h3, (fun hc => by cases hc), (fun hc => by cases hc)⟩

/-- RAMP keeps the levels legal, where its ramp does and its end is legal. -/
theorem ramp_level {e : Env} {target : Num32} {n : BitVec 32} {next : Stage} {ns : Num32} (h : LevelLegal e)
    (hk : e.k.toNat < n.toNat) (ht : InUnit target) (hns : InUnit ns) (hna : next ≠ .attack)
    (hnd : next = .decay → ns = one)
    (hl : ∀ k : BitVec 32, k.toNat < n.toNat → InUnit (rampLevel e.start target k n)) :
    LevelLegal (ramp e target n next ns) := by
  obtain ⟨-, h2, h3, h4, h5⟩ := h
  rcases ramp_cases (e := e) (target := target) (next := next) (ns := ns) hk with ⟨-, he⟩ | ⟨hlt, hkn, he⟩ <;> rw [he]
  · exact ⟨ht, hns, h3, fun hc => absurd hc hna, hnd⟩
  · exact ⟨hl _ (by omega), h2, h3, h4, h5⟩

/-- A stage that only sets the level, to a legal one. -/
theorem level_still {e : Env} {st : Stage} {l : Num32} (h : LevelLegal e) (hs : e.stage = st) (ha : st ≠ .attack)
    (hd : st ≠ .decay) (hl : InUnit l) : LevelLegal { e with stage := st, level := l } := by
  subst hs
  exact ⟨hl, h.2.1, h.2.2.1, fun hc => absurd hc ha, fun hc => absurd hc hd⟩

/-- A tick keeps the levels legal (R25, R197), the release lasting at most 2^24 ticks. -/
theorem envTick_level {e : Env} (hl : EnvLegal e) (h : LevelLegal e) (hr : e.nr.toNat ≤ 2 ^ 24) (a : ActiveState) :
    LevelLegal (envTick e a).2 := by
  have hl' := envEnter_legal hl a
  have h' := envEnter_level h a
  have hr' : (envEnter e a).nr.toNat ≤ 2 ^ 24 := by
    rcases envEnter_cases e a with he | he | he <;> rw [he] <;> exact hr
  rw [envTick_enter]
  generalize envEnter e a = e' at hl' h' hr'
  obtain ⟨l1, l2, l3, lk⟩ := hl'
  obtain ⟨h1, h2, h3, h4, h5⟩ := id h'
  unfold envAdvance
  cases hs : e'.stage <;> simp only [stageLength, hs] at lk
  · exact level_still h' hs (by simp) (by simp) inUnit_zero
  · refine ramp_level h' lk inUnit_one inUnit_one (by simp) (fun _ => rfl) (fun k hk => ?_)
    rw [h4 hs]; exact attackLevel_inUnit hk.le l1
  · refine ramp_level h' lk h3 h3 (by simp) (by simp) (fun k hk => ?_)
    rw [h5 hs]; exact decayLevel_inUnit h3 hk.le l2
  · exact level_still h' hs (by simp) (by simp) h3
  · exact ramp_level h' lk inUnit_zero inUnit_zero (by simp) (by simp)
      (fun k hk => releaseLevel_inUnit h2 hk hr')

theorem envBuild_level {d : EnvelopeDefinition} {fs : Num32} (h : envOk d fs = true) : LevelLegal (envBuild d fs) := by
  simp only [envOk, sustainOk, Bool.and_eq_true] at h
  exact ⟨inUnit_zero, inUnit_zero, ⟨h.2.1.1, h.2.1.2, h.2.2⟩, fun _ => rfl, (fun hc => by cases hc)⟩

end Sys2Proof.Machine
end

