-- ==== Sys2Proof/Laws/Fm.lean ====
section
/-! SUPPORT. The FM voice (42_fm.md): sums of outputs stay in range (R172), modulation reads only what is computed
(R168), FM_TICK of a legal voice completes, and what it leaves. -/

namespace Sys2Proof.Machine

open F32

/-! ## Sums of outputs -/

/-- A finite value in [0, n]. -/
def InRange (n : Nat) (x : Num32) : Prop := isFinite x = true ∧ 0 ≤ toInt x ∧ toInt x ≤ (n : Int) * 2 ^ 149

theorem inRange_zero (n : Nat) : InRange n posZero :=
  ⟨isFinite_posZero, by rw [toInt_posZero], by rw [toInt_posZero]; positivity⟩

theorem inRange_of_inUnit {x : Num32} (h : InUnit x) : InRange 1 x := by
  have := (inUnit_iff (not_isNaN_of_isFinite h.1)).mp h
  exact ⟨h.1, this.1, by simpa using this.2⟩

theorem inRange_mono {m n : Nat} {x : Num32} (hmn : m ≤ n) (h : InRange m x) : InRange n x := by
  refine ⟨h.1, h.2.1, h.2.2.trans ?_⟩
  exact mul_le_mul_of_nonneg_right (by exact_mod_cast hmn) (by positivity)

/-- What a claim says of a range: the two comparisons. -/
theorem inRange_iff {n : Nat} (hn : n ≤ 2 ^ 24) {x : Num32} :
    InRange n x ↔ isFinite x = true ∧ le posZero x = true ∧ le x (ofNat n) = true := by
  constructor
  · rintro ⟨hf, h0, h1⟩
    have hx := not_isNaN_of_isFinite hf
    refine ⟨hf, ?_, ?_⟩
    · rw [le_iff isNaN_posZero hx, toInt_posZero]; exact h0
    · rw [le_iff hx (toInt_ofNat n).2.1, toInt_ofNat_exact hn]; exact h1
  · rintro ⟨hf, h0, h1⟩
    have hx := not_isNaN_of_isFinite hf
    rw [le_iff isNaN_posZero hx, toInt_posZero] at h0
    rw [le_iff hx (toInt_ofNat n).2.1, toInt_ofNat_exact hn] at h1
    exact ⟨hf, h0, h1⟩

/-- A sum of two ranges. -/
theorem add_inRange {m n : Nat} (h : m + n ≤ 2 ^ 24) {x y : Num32} (hx : InRange m x) (hy : InRange n y) :
    InRange (m + n) (add x y) := by
  obtain ⟨ha, han⟩ := toInt_add hx.1 hy.1
  have hv := toInt_ofNat_exact h
  have hcn := (toInt_ofNat (m + n)).2.1
  have h0 : 0 ≤ toInt (add x y) := by
    rw [ha]
    have := le_roundInt (c := posZero) (n := toInt x + toInt y) (d := 1) (by decide) isNaN_posZero
      (by rw [toInt_posZero, zero_mul]; exact add_nonneg hx.2.1 hy.2.1)
    rwa [toInt_posZero] at this
  have h1 : toInt (add x y) ≤ ((m + n : Nat) : Int) * 2 ^ 149 := by
    rw [ha, ← hv]
    refine roundInt_le (by decide) hcn ?_
    rw [hv, Nat.cast_one, mul_one, Nat.cast_add, add_mul]
    exact add_le_add hx.2.2 hy.2.2
  refine ⟨?_, h0, h1⟩
  exact isFinite_of_between (lo := posZero) (hi := ofNat (m + n)) isFinite_posZero
    (isFinite_ofNat (by omega)) (by rw [toInt_posZero]; exact h0) (by rw [hv]; exact h1)

/-- Every output of four lies in [0, 1]. -/
def OutsLegal (out : Quad Num32) : Prop := InUnit out.o0 ∧ InUnit out.o1 ∧ InUnit out.o2 ∧ InUnit out.o3

theorem outAt_quadGet {n : Nat} (hn : n ≤ 4) (out : Quad Num32) (a : Fin n) :
    outAt out a = quadGet out (Fin.ofNat 4 a.val) := by
  obtain ⟨a, ha⟩ := a
  have h4 : a < 4 := by omega
  interval_cases a <;> rfl

theorem outAt_inUnit {n : Nat} {out : Quad Num32} (h : OutsLegal out) (a : Fin n) : InUnit (outAt out a) := by
  obtain ⟨h0, h1, h2, h3⟩ := h
  unfold outAt
  split <;> assumption

/-- MODSUM of outputs in [0, 1] lies in [0, 3] (R167). -/
theorem modSum_inRange {n : Nat} (e : ModulatedBy n) {out : Quad Num32} (h : OutsLegal out) :
    InRange 3 (modSum e out) := by
  cases e with
  | none => exact inRange_zero 3
  | single a => exact inRange_mono (by decide) (inRange_of_inUnit (outAt_inUnit h a))
  | double a b =>
    exact inRange_mono (m := 1 + 1) (by decide) (add_inRange (by decide) (inRange_of_inUnit (outAt_inUnit h a))
      (inRange_of_inUnit (outAt_inUnit h b)))
  | triple a b c =>
    exact inRange_mono (m := 1 + 1 + 1) (by decide) (add_inRange (by decide)
      (add_inRange (by decide) (inRange_of_inUnit (outAt_inUnit h a)) (inRange_of_inUnit (outAt_inUnit h b)))
      (inRange_of_inUnit (outAt_inUnit h c)))

/-- MODSUM reads only the outputs of the operators below its own (R168). -/
theorem modSum_congr {n : Nat} (hn : n ≤ 4) (e : ModulatedBy n) {out out' : Quad Num32}
    (h : ∀ i : Fin 4, i.val < n → quadGet out i = quadGet out' i) : modSum e out = modSum e out' := by
  have hat : ∀ a : Fin n, outAt out a = outAt out' a := by
    intro a
    have := h ⟨a.val, by omega⟩ a.isLt
    obtain ⟨a, ha⟩ := a
    have ha4 : a < 4 := by omega
    unfold outAt
    interval_cases a <;> exact this
  cases e <;> simp only [modSum, hat]

/-- How many carriers an algorithm has. -/
def carrierCount (c : Quad Bool) : Nat := c.o0.toNat + c.o1.toNat + c.o2.toNat + c.o3.toNat

/-- The carrier sum lies in [0, number of carriers] (R172). -/
theorem carrierSum_inRange (c : Quad Bool) {out : Quad Num32} (h : OutsLegal out) :
    InRange (carrierCount c) (carrierSum c out) := by
  obtain ⟨h0, h1, h2, h3⟩ := h
  have step : ∀ (b : Bool) {m : Nat} {y x : Num32}, m ≤ 3 → InRange m y → InUnit x →
      InRange (m + b.toNat) (if b = true then add y x else y) := by
    intro b m y x hm hy hx
    cases b
    · exact hy
    · exact add_inRange (by simp only [Bool.toNat_true]; omega) hy (inRange_of_inUnit hx)
  obtain ⟨c0, c1, c2, c3⟩ := c
  have b0 := Bool.toNat_le c0
  have b1 := Bool.toNat_le c1
  have b2 := Bool.toNat_le c2
  have s0 := step c0 (by omega) (inRange_zero 0) h0
  have s1 := step c1 (by omega) s0 h1
  have s2 := step c2 (by omega) s1 h2
  have s3 := step c3 (by omega) s2 h3
  simpa [carrierSum, carrierCount] using s3

theorem carrierCount_le (c : Quad Bool) : carrierCount c ≤ 4 := by
  obtain ⟨c0, c1, c2, c3⟩ := c
  cases c0 <;> cases c1 <;> cases c2 <;> cases c3 <;> decide

/-! ## One operator -/

/-- The operator after a tick: OSC_TICK and ENV_TICK and nothing else (R127, R170). -/
def operatorAfter (p : FMOperator) (a : ActiveState) : FMOperator :=
  { p with
    osc := { p.osc with phase := wrapFinite (add p.osc.phase p.osc.inc) p.osc.len }
    env := (envTick p.env a).2 }

/-- An operator tick completes where the modulated index is finite (R170), with an output in [0, 1]. -/
theorem operatorTick_ok {p : FMOperator} (h : OperatorLegal p) {m : Num32} {a : ActiveState}
    (hm : isFinite (add p.osc.phase (mul p.depth m)) = true) :
    ∃ y, operatorTick p m a = .ok (y, operatorAfter p a) ∧ InUnit y := by
  obtain ⟨ho, hlen, ht, -, -⟩ := h
  have hq := wrapFinite_legal hm ho.1 ho.2.1
  rw [hlen] at hq
  obtain ⟨y, hy, hyu⟩ := lerp_ok ht hq.1 hq.2.1 hq.2.2.1
  refine ⟨mul y (envTick p.env a).1, ?_, mul_inUnit hyu (envTick_inUnit _ _)⟩
  rw [← hlen] at hy
  simp only [operatorTick, (oscTick_ok ho).1, wrap, hm, if_true, hy, operatorAfter]

/-- Where the modulated index is not finite, the tick is refused (R170, R290). -/
theorem operatorTick_refuses {p : FMOperator} (h : OscLegal p.osc) {m : Num32} {a : ActiveState}
    (hm : isFinite (add p.osc.phase (mul p.depth m)) = false) : operatorTick p m a = .error .nonfiniteInput := by
  simp only [operatorTick, (oscTick_ok h).1, wrap, hm]
  rfl

theorem operatorAfter_legal {p : FMOperator} (h : OperatorLegal p) (a : ActiveState) :
    OperatorLegal (operatorAfter p a) := by
  obtain ⟨ho, hlen, ht, he, hd⟩ := h
  exact ⟨(oscTick_ok ho).2, hlen, ht, envTick_legal he a, hd⟩

/-- A finite number of 2^250 units, above every offset a tame depth makes. -/
theorem exists_big : ∃ c, isFinite c = true ∧ toInt c = 2 ^ 250 := by
  obtain ⟨x, hx, -, hv⟩ := exists_finite (m := 2 ^ 250) (by simpa using exists_magVal 250 1 (by decide))
    (by rw [infMag_eq]; exact Nat.pow_lt_pow_right (by decide) (by decide))
  exact ⟨x, hx, by rw [hv]; norm_num⟩

/-- A tame depth keeps the modulated index finite (R170). -/
theorem isFinite_offset {p d m : Num32} (hp : isFinite p = true) (hp0 : 0 ≤ toInt p) (hp1 : toInt p ≤ 2 ^ 24 * 2 ^ 149)
    (hd : Tame d) (hm : InRange 3 m) : isFinite (add p (mul d m)) = true := by
  obtain ⟨c, hcf, hcv⟩ := exists_big
  have hcn := not_isNaN_of_isFinite hcf
  have hcn' : isNaN (neg c) = false := by rw [isNaN_neg]; exact hcn
  have hcf' : isFinite (neg c) = true := by rw [isFinite_neg]; exact hcf
  have hdabs : -(2 ^ 245) ≤ toInt d ∧ toInt d ≤ 2 ^ 245 := by
    have h1 : (mag d : Int) ≤ 2 ^ 245 := by exact_mod_cast hd.2
    unfold toInt
    split <;> constructor <;> linarith [Int.natCast_nonneg (mag d)]
  obtain ⟨hmul, -⟩ := toInt_mul hd.1 hm.1
  -- the product is at most 3 × 2^245 units, so at most 2^248 after rounding
  obtain ⟨c', hcf', hcv'⟩ : ∃ c, isFinite c = true ∧ toInt c = 2 ^ 248 := by
    obtain ⟨x, hx, -, hv⟩ := exists_finite (m := 2 ^ 248) (by simpa using exists_magVal 248 1 (by decide))
      (by rw [infMag_eq]; exact Nat.pow_lt_pow_right (by decide) (by decide))
    exact ⟨x, hx, by rw [hv]; norm_num⟩
  have hcn2 := not_isNaN_of_isFinite hcf'
  have hb : toInt d * toInt m ≤ 2 ^ 248 * 2 ^ 149 ∧ -(2 ^ 248 * 2 ^ 149) ≤ toInt d * toInt m := by
    have hm1 := hm.2.2
    have hm0 := hm.2.1
    push_cast at hm1
    constructor <;> nlinarith [hdabs.1, hdabs.2]
  have hu : toInt (mul d m) ≤ 2 ^ 248 := by
    rw [hmul, ← hcv']
    exact roundInt_le (by positivity) hcn2 (by rw [hcv', Nat.cast_pow, Nat.cast_ofNat]; exact hb.1)
  have hl : -(2 ^ 248) ≤ toInt (mul d m) := by
    have := le_roundInt (c := neg c') (n := toInt d * toInt m) (d := 2 ^ 149) (by positivity)
      (by rw [isNaN_neg]; exact hcn2)
      (by rw [toInt_neg, hcv', Nat.cast_pow, Nat.cast_ofNat, neg_mul]; exact hb.2)
    rw [toInt_neg, hcv', ← hmul] at this
    exact this
  have hmf : isFinite (mul d m) = true :=
    isFinite_of_between (lo := neg c') (hi := c') (by rw [isFinite_neg]; exact hcf') hcf'
      (by rw [toInt_neg, hcv']; exact hl) (by rw [hcv']; exact hu)
  obtain ⟨hadd, -⟩ := toInt_add hp hmf
  refine isFinite_of_between (lo := neg c) (hi := c) (by rw [isFinite_neg]; exact hcf) hcf ?_ ?_
  · rw [hadd]
    refine le_roundInt (by decide) hcn' ?_
    rw [toInt_neg, hcv, Nat.cast_one, mul_one]
    have : (2 : Int) ^ 248 ≤ 2 ^ 250 := by norm_num
    linarith
  · rw [hadd]
    refine roundInt_le (by decide) hcn ?_
    rw [hcv, Nat.cast_one, mul_one]
    have : (2 : Int) ^ 248 + 2 ^ 24 * 2 ^ 149 ≤ 2 ^ 250 := by norm_num
    linarith

theorem operatorTick_tame {p : FMOperator} (h : OperatorLegal p) (hd : Tame p.depth) {m : Num32} (hm : InRange 3 m)
    (a : ActiveState) : ∃ y, operatorTick p m a = .ok (y, operatorAfter p a) ∧ InUnit y := by
  obtain ⟨hpf, hp0, hp1, -⟩ := (phaseLegal_iff h.1.2.1).mp h.1.2.2.1
  have hlen : (p.osc.len : Int) ≤ 2 ^ 24 := by
    have := h.1.2.1
    simp only [Config.lMax] at this
    exact_mod_cast this
  refine operatorTick_ok h (isFinite_offset hpf hp0 (hp1.le.trans ?_) hd hm)
  exact mul_le_mul_of_nonneg_right hlen (by positivity)

/-! ## FM_TICK -/

/-- The four operators after a tick. -/
def operatorsAfter (q : Quad FMOperator) (a : ActiveState) : Quad FMOperator where
  o0 := operatorAfter q.o0 a
  o1 := operatorAfter q.o1 a
  o2 := operatorAfter q.o2 a
  o3 := operatorAfter q.o3 a

/-- FM_TICK of a legal voice with tame depths completes (R170). -/
theorem fmTick_ok {v : FMVoice} (h : FMVoiceLegal v) (ht : ChannelTame (.fm v)) (table : Vector AlgorithmDefinition 10) :
    ∃ out, OutsLegal out ∧ fmTick table v = .ok (carrierSum (algDef table v.alg).carriers out,
      { v with op := operatorsAfter v.op v.active, active := activeAfterTick v.active }) := by
  obtain ⟨h0, h1, h2, h3⟩ := h
  obtain ⟨t0, t1, t2, t3⟩ := ht
  have z := inUnit_zero
  obtain ⟨y0, e0, u0⟩ := operatorTick_tame h0 t0 (inRange_zero 3) v.active
  obtain ⟨y1, e1, u1⟩ := operatorTick_tame h1 t1
    (modSum_inRange (algDef table v.alg).m1 (out := { outZero with o0 := y0 }) ⟨u0, z, z, z⟩) v.active
  obtain ⟨y2, e2, u2⟩ := operatorTick_tame h2 t2
    (modSum_inRange (algDef table v.alg).m2 (out := { outZero with o0 := y0, o1 := y1 }) ⟨u0, u1, z, z⟩) v.active
  obtain ⟨y3, e3, u3⟩ := operatorTick_tame h3 t3
    (modSum_inRange (algDef table v.alg).m3 (out := { outZero with o0 := y0, o1 := y1, o2 := y2 }) ⟨u0, u1, u2, z⟩) v.active
  refine ⟨{ o0 := y0, o1 := y1, o2 := y2, o3 := y3 }, ⟨u0, u1, u2, u3⟩, ?_⟩
  simp only [fmTick, operatorsTick, e0, e1, e2, e3]
  rfl

theorem operatorsAfter_legal {v : FMVoice} (h : FMVoiceLegal v) (a b : ActiveState) :
    FMVoiceLegal { v with op := operatorsAfter v.op a, active := b } :=
  ⟨operatorAfter_legal h.1 a, operatorAfter_legal h.2.1 a, operatorAfter_legal h.2.2.1 a, operatorAfter_legal h.2.2.2 a⟩

/-- An operator tick that completes leaves the operator as OSC_TICK and ENV_TICK do. -/
theorem operatorTick_after {p p' : FMOperator} {m y : Num32} {a : ActiveState} (h : operatorTick p m a = .ok (y, p')) :
    p' = operatorAfter p a := by
  unfold operatorTick at h
  split at h
  · cases h
  · next o q ho =>
    split at h
    · cases h
    · simp only at h
      split at h
      · cases h
      · cases h
        rcases oscTick_cases p.osc with ⟨-, e⟩ | ⟨-, e⟩ <;> rw [e] at ho <;> cases ho
        rfl

/-- FM_TICK, wherever it completes: each operator's phase and envelope advance as OSC_TICK and ENV_TICK alone
would (R127, R173), and ACTIVE follows R175. -/
theorem fmTick_after {v v' : FMVoice} {table : Vector AlgorithmDefinition 10} {y : Num32}
    (h : fmTick table v = .ok (y, v')) :
    v' = { v with op := operatorsAfter v.op v.active, active := activeAfterTick v.active } := by
  unfold fmTick at h
  simp only at h
  split at h
  · cases h
  · next ops hops =>
    cases h
    unfold operatorsTick at hops
    split at hops
    · cases hops
    · next h0 =>
      split at hops
      · cases hops
      · next h1 =>
        split at hops
        · cases hops
        · next h2 =>
          split at hops
          · cases hops
          · next h3 =>
            cases hops
            simp only [operatorTick_after h0, operatorTick_after h1, operatorTick_after h2, operatorTick_after h3]
            rfl

end Sys2Proof.Machine
end

