-- ==== Sys2Proof/Laws/State.lean ====
section
/-! SUPPORT. One lemma per field of each named update of the state, and the read-after-write lemmas of the
channel array and of the four operators, so that no later proof unfolds a record update. -/

namespace Sys2Proof.Machine

/-! ## raiseFault -/

@[simp] theorem raiseFault_params (f : FaultRecord) (s : State) : (raiseFault f s).params = s.params := rfl
@[simp] theorem raiseFault_engine (f : FaultRecord) (s : State) : (raiseFault f s).engine = s.engine := rfl
@[simp] theorem raiseFault_stop (f : FaultRecord) (s : State) : (raiseFault f s).stop = s.stop := rfl
@[simp] theorem raiseFault_fault (f : FaultRecord) (s : State) : (raiseFault f s).fault = s.fault ||| causeBit f.cause := rfl
@[simp] theorem raiseFault_log (f : FaultRecord) (s : State) : (raiseFault f s).log = s.log ++ [.fault f] := rfl
@[simp] theorem raiseFault_refused (f : FaultRecord) (s : State) : (raiseFault f s).refused = s.refused := rfl
@[simp] theorem raiseFault_cmdq (f : FaultRecord) (s : State) : (raiseFault f s).cmdq = s.cmdq := rfl
@[simp] theorem raiseFault_outq (f : FaultRecord) (s : State) : (raiseFault f s).outq = s.outq := rfl
@[simp] theorem raiseFault_cur (f : FaultRecord) (s : State) : (raiseFault f s).cur = s.cur := rfl
@[simp] theorem raiseFault_savePort (f : FaultRecord) (s : State) : (raiseFault f s).savePort = s.savePort := rfl
@[simp] theorem raiseFault_result (f : FaultRecord) (s : State) : (raiseFault f s).result = s.result := rfl
@[simp] theorem raiseFault_tap (f : FaultRecord) (s : State) : (raiseFault f s).tap = s.tap := rfl
@[simp] theorem raiseFault_inputs (f : FaultRecord) (s : State) : (raiseFault f s).inputs = s.inputs := rfl

/-! ## logStatus -/

@[simp] theorem logStatus_params (c : StatusCode) (s : State) : (logStatus c s).params = s.params := rfl
@[simp] theorem logStatus_engine (c : StatusCode) (s : State) : (logStatus c s).engine = s.engine := rfl
@[simp] theorem logStatus_stop (c : StatusCode) (s : State) : (logStatus c s).stop = s.stop := rfl
@[simp] theorem logStatus_fault (c : StatusCode) (s : State) : (logStatus c s).fault = s.fault := rfl
@[simp] theorem logStatus_log (c : StatusCode) (s : State) : (logStatus c s).log = s.log ++ [.status c] := rfl
@[simp] theorem logStatus_refused (c : StatusCode) (s : State) : (logStatus c s).refused = s.refused := rfl
@[simp] theorem logStatus_cmdq (c : StatusCode) (s : State) : (logStatus c s).cmdq = s.cmdq := rfl
@[simp] theorem logStatus_outq (c : StatusCode) (s : State) : (logStatus c s).outq = s.outq := rfl
@[simp] theorem logStatus_cur (c : StatusCode) (s : State) : (logStatus c s).cur = s.cur := rfl
@[simp] theorem logStatus_savePort (c : StatusCode) (s : State) : (logStatus c s).savePort = s.savePort := rfl
@[simp] theorem logStatus_result (c : StatusCode) (s : State) : (logStatus c s).result = s.result := rfl
@[simp] theorem logStatus_tap (c : StatusCode) (s : State) : (logStatus c s).tap = s.tap := rfl
@[simp] theorem logStatus_inputs (c : StatusCode) (s : State) : (logStatus c s).inputs = s.inputs := rfl

/-! ## markRefused -/

@[simp] theorem markRefused_params (s : State) : (markRefused s).params = s.params := rfl
@[simp] theorem markRefused_engine (s : State) : (markRefused s).engine = s.engine := rfl
@[simp] theorem markRefused_stop (s : State) : (markRefused s).stop = s.stop := rfl
@[simp] theorem markRefused_fault (s : State) : (markRefused s).fault = s.fault := rfl
@[simp] theorem markRefused_log (s : State) : (markRefused s).log = s.log := rfl
@[simp] theorem markRefused_refused (s : State) : (markRefused s).refused = true := rfl
@[simp] theorem markRefused_cmdq (s : State) : (markRefused s).cmdq = s.cmdq := rfl
@[simp] theorem markRefused_outq (s : State) : (markRefused s).outq = s.outq := rfl
@[simp] theorem markRefused_cur (s : State) : (markRefused s).cur = s.cur := rfl
@[simp] theorem markRefused_savePort (s : State) : (markRefused s).savePort = s.savePort := rfl
@[simp] theorem markRefused_result (s : State) : (markRefused s).result = s.result := rfl
@[simp] theorem markRefused_tap (s : State) : (markRefused s).tap = s.tap := rfl
@[simp] theorem markRefused_inputs (s : State) : (markRefused s).inputs = s.inputs := rfl

/-! ## rejectWord -/

@[simp] theorem rejectWord_params (f : FaultRecord) (s : State) : (rejectWord f s).params = s.params := rfl
@[simp] theorem rejectWord_engine (f : FaultRecord) (s : State) : (rejectWord f s).engine = s.engine := rfl
@[simp] theorem rejectWord_stop (f : FaultRecord) (s : State) : (rejectWord f s).stop = s.stop := rfl
@[simp] theorem rejectWord_fault (f : FaultRecord) (s : State) : (rejectWord f s).fault = s.fault ||| causeBit f.cause := rfl
@[simp] theorem rejectWord_log (f : FaultRecord) (s : State) : (rejectWord f s).log = s.log ++ [.fault f] := rfl
@[simp] theorem rejectWord_refused (f : FaultRecord) (s : State) : (rejectWord f s).refused = s.refused := rfl
@[simp] theorem rejectWord_cmdq (f : FaultRecord) (s : State) : (rejectWord f s).cmdq = s.cmdq := rfl
@[simp] theorem rejectWord_outq (f : FaultRecord) (s : State) : (rejectWord f s).outq = s.outq := rfl
@[simp] theorem rejectWord_cur (f : FaultRecord) (s : State) : (rejectWord f s).cur = s.cur := rfl
@[simp] theorem rejectWord_savePort (f : FaultRecord) (s : State) : (rejectWord f s).savePort = s.savePort := rfl
@[simp] theorem rejectWord_result (f : FaultRecord) (s : State) : (rejectWord f s).result = .none := rfl
@[simp] theorem rejectWord_tap (f : FaultRecord) (s : State) : (rejectWord f s).tap = s.tap := rfl
@[simp] theorem rejectWord_inputs (f : FaultRecord) (s : State) : (rejectWord f s).inputs = s.inputs := rfl

/-! ## takeInput -/

/-- Only a RESTORE word of the Producer brings a value to the state-save port (R296). -/
theorem portValue_control (a : Agent) (w : Word) (save : Option SoundEngineData) (s : State) :
    portValue (.control a w save) s =
      if a = .producer ∧ decodeCtl w = some .restore then save.getD s.savePort else s.savePort := by
  cases a <;> cases save <;> simp [portValue]

/-- The state-save port is as it was, or it holds the operand of the Producer's RESTORE word. -/
theorem portValue_cases (ev : PortEvent) (s : State) :
    portValue ev s = s.savePort ∨
      ∃ w d, ev = .control .producer w (some d) ∧ decodeCtl w = some .restore ∧ portValue ev s = d := by
  cases ev with
  | control a w save =>
    rw [portValue_control]
    split
    · next h =>
      cases save with
      | none => exact .inl rfl
      | some d => exact .inr ⟨w, d, by rw [h.1], h.2, rfl⟩
    · exact .inl rfl
  | command w => exact .inl rfl
  | apply w => exact .inl rfl
  | drive i => exact .inl rfl

@[simp] theorem takeInput_params (ev : PortEvent) (rest : List PortEvent) (s : State) : (takeInput ev rest s).params = s.params := rfl
@[simp] theorem takeInput_engine (ev : PortEvent) (rest : List PortEvent) (s : State) : (takeInput ev rest s).engine = s.engine := rfl
@[simp] theorem takeInput_stop (ev : PortEvent) (rest : List PortEvent) (s : State) : (takeInput ev rest s).stop = s.stop := rfl
@[simp] theorem takeInput_fault (ev : PortEvent) (rest : List PortEvent) (s : State) : (takeInput ev rest s).fault = s.fault := rfl
@[simp] theorem takeInput_log (ev : PortEvent) (rest : List PortEvent) (s : State) : (takeInput ev rest s).log = s.log := rfl
@[simp] theorem takeInput_refused (ev : PortEvent) (rest : List PortEvent) (s : State) : (takeInput ev rest s).refused = s.refused := rfl
@[simp] theorem takeInput_cmdq (ev : PortEvent) (rest : List PortEvent) (s : State) : (takeInput ev rest s).cmdq = s.cmdq := rfl
@[simp] theorem takeInput_outq (ev : PortEvent) (rest : List PortEvent) (s : State) : (takeInput ev rest s).outq = s.outq := rfl
@[simp] theorem takeInput_cur (ev : PortEvent) (rest : List PortEvent) (s : State) : (takeInput ev rest s).cur = s.cur := rfl
@[simp] theorem takeInput_savePort (ev : PortEvent) (rest : List PortEvent) (s : State) : (takeInput ev rest s).savePort = portValue ev s := rfl
@[simp] theorem takeInput_result (ev : PortEvent) (rest : List PortEvent) (s : State) : (takeInput ev rest s).result = s.result := rfl
@[simp] theorem takeInput_tap (ev : PortEvent) (rest : List PortEvent) (s : State) : (takeInput ev rest s).tap = s.tap := rfl
@[simp] theorem takeInput_inputs (ev : PortEvent) (rest : List PortEvent) (s : State) : (takeInput ev rest s).inputs = rest := rfl

/-! ## placeWord -/

@[simp] theorem placeWord_params (w : Word) (s : State) : (placeWord w s).params = s.params := rfl
@[simp] theorem placeWord_engine (w : Word) (s : State) : (placeWord w s).engine = s.engine := rfl
@[simp] theorem placeWord_stop (w : Word) (s : State) : (placeWord w s).stop = s.stop := rfl
@[simp] theorem placeWord_fault (w : Word) (s : State) : (placeWord w s).fault = s.fault := rfl
@[simp] theorem placeWord_log (w : Word) (s : State) : (placeWord w s).log = s.log := rfl
@[simp] theorem placeWord_refused (w : Word) (s : State) : (placeWord w s).refused = s.refused := rfl
@[simp] theorem placeWord_cmdq (w : Word) (s : State) : (placeWord w s).cmdq = s.cmdq := rfl
@[simp] theorem placeWord_outq (w : Word) (s : State) : (placeWord w s).outq = s.outq := rfl
@[simp] theorem placeWord_cur (w : Word) (s : State) : (placeWord w s).cur = s.cur := rfl
@[simp] theorem placeWord_savePort (w : Word) (s : State) : (placeWord w s).savePort = s.savePort := rfl
@[simp] theorem placeWord_result (w : Word) (s : State) : (placeWord w s).result = s.result := rfl
@[simp] theorem placeWord_tap (w : Word) (s : State) : (placeWord w s).tap = s.tap := rfl
@[simp] theorem placeWord_inputs (w : Word) (s : State) : (placeWord w s).inputs = fetchEvent w :: s.inputs := rfl

/-! ## setChannel -/

@[simp] theorem setChannel_ch (d : SoundEngineData) (c : Nat) (v : Channel) : (setChannel d c v).ch = d.ch.set c v := rfl
@[simp] theorem setChannel_romId (d : SoundEngineData) (c : Nat) (v : Channel) : (setChannel d c v).romId = d.romId := rfl
@[simp] theorem setChannel_rom (d : SoundEngineData) (c : Nat) (v : Channel) : (setChannel d c v).rom = d.rom := rfl
@[simp] theorem setChannel_fs (d : SoundEngineData) (c : Nat) (v : Channel) : (setChannel d c v).fs = d.fs := rfl

/-- Reading the channel just written. -/
theorem channelAt_setChannel_same {d : SoundEngineData} {c : Nat} {v : Channel} (h : c < d.ch.length) :
    channelAt (setChannel d c v) c = some v := by
  simp [channelAt, setChannel, h]

/-- Every other channel reads as before. -/
theorem channelAt_setChannel_other {d : SoundEngineData} {c k : Nat} {v : Channel} (h : k ≠ c) :
    channelAt (setChannel d c v) k = channelAt d k := by
  simp [channelAt, setChannel, List.getElem?_set_ne (Ne.symm h)]

/-- Writing a channel what it holds changes nothing. -/
theorem setChannel_self {d : SoundEngineData} {c : Nat} {v : Channel} (h : channelAt d c = some v) :
    setChannel d c v = d := by
  obtain ⟨ch, a, b, f⟩ := d
  simp only [channelAt, List.getElem?_eq_some_iff] at h
  obtain ⟨hlt, rfl⟩ := h
  simp [setChannel]

/-! ## quadSet -/

@[simp] theorem quadGet_quadSet_same {α : Type} (q : Quad α) (i : Fin 4) (v : α) : quadGet (quadSet q i v) i = v := by
  fin_cases i <;> rfl

theorem quadGet_quadSet_other {α : Type} (q : Quad α) {i j : Fin 4} (v : α) (h : j ≠ i) :
    quadGet (quadSet q i v) j = quadGet q j := by
  fin_cases i <;> fin_cases j <;> first | rfl | exact absurd rfl h

/-! ## setOsc and setEnv -/

@[simp] theorem setOsc_romId (r : UnitRef) (o : Osc) (d : SoundEngineData) : (setOsc r o d).romId = d.romId := by
  unfold setOsc; split <;> rfl
@[simp] theorem setOsc_rom (r : UnitRef) (o : Osc) (d : SoundEngineData) : (setOsc r o d).rom = d.rom := by
  unfold setOsc; split <;> rfl
@[simp] theorem setOsc_fs (r : UnitRef) (o : Osc) (d : SoundEngineData) : (setOsc r o d).fs = d.fs := by
  unfold setOsc; split <;> rfl

@[simp] theorem setOsc_length (r : UnitRef) (o : Osc) (d : SoundEngineData) : (setOsc r o d).ch.length = d.ch.length := by
  unfold setOsc; split <;> simp

/-- A unit on another channel: every other channel reads as before. -/
theorem channelAt_setOsc_other (r : UnitRef) (o : Osc) {d : SoundEngineData} {k : Nat} (h : k ≠ r.channel.toNat) :
    channelAt (setOsc r o d) k = channelAt d k := by
  unfold setOsc; split <;> first | rfl | exact channelAt_setChannel_other h

@[simp] theorem setEnv_romId (r : UnitRef) (o : Env) (d : SoundEngineData) : (setEnv r o d).romId = d.romId := by
  unfold setEnv; split <;> rfl
@[simp] theorem setEnv_rom (r : UnitRef) (o : Env) (d : SoundEngineData) : (setEnv r o d).rom = d.rom := by
  unfold setEnv; split <;> rfl
@[simp] theorem setEnv_fs (r : UnitRef) (o : Env) (d : SoundEngineData) : (setEnv r o d).fs = d.fs := by
  unfold setEnv; split <;> rfl

@[simp] theorem setEnv_length (r : UnitRef) (o : Env) (d : SoundEngineData) : (setEnv r o d).ch.length = d.ch.length := by
  unfold setEnv; split <;> simp

/-- A unit on another channel: every other channel reads as before. -/
theorem channelAt_setEnv_other (r : UnitRef) (o : Env) {d : SoundEngineData} {k : Nat} (h : k ≠ r.channel.toNat) :
    channelAt (setEnv r o d) k = channelAt d k := by
  unfold setEnv; split <;> first | rfl | exact channelAt_setChannel_other h

/-- A channel that reads is inside the array. -/
theorem lt_of_channelAt {d : SoundEngineData} {c : Nat} {v : Channel} (h : channelAt d c = some v) : c < d.ch.length :=
  (List.getElem?_eq_some_iff.mp h).1

/-- Reading back an oscillator just written. -/
theorem oscOf_setOsc {r : UnitRef} {o o' : Osc} {d : SoundEngineData} (h : oscOf r d = some o) :
    oscOf r (setOsc r o' d) = some o' := by
  unfold oscOf at h
  split at h
  · next v hc ho => simp [setOsc, hc, ho, oscOf, channelAt_setChannel_same (lt_of_channelAt hc)]
  · next v i hc ho => simp [setOsc, hc, ho, oscOf, channelAt_setChannel_same (lt_of_channelAt hc)]
  · cases h

/-- Reading back an envelope just written. -/
theorem envOf_setEnv {r : UnitRef} {e e' : Env} {d : SoundEngineData} (h : envOf r d = some e) :
    envOf r (setEnv r e' d) = some e' := by
  unfold envOf at h
  split at h
  · next v hc ho => simp [setEnv, hc, ho, envOf, channelAt_setChannel_same (lt_of_channelAt hc)]
  · next v i hc ho => simp [setEnv, hc, ho, envOf, channelAt_setChannel_same (lt_of_channelAt hc)]
  · cases h

/-- Writing an oscillator touches no envelope. -/
theorem envOf_setOsc (r q : UnitRef) (o : Osc) (d : SoundEngineData) : envOf q (setOsc r o d) = envOf q d := by
  by_cases hq : q.channel.toNat = r.channel.toNat
  · unfold setOsc
    split
    · next v hc ho => cases hqo : q.operator <;> simp [envOf, hq, hqo, hc, channelAt_setChannel_same (lt_of_channelAt hc)]
    · next v i hc ho =>
      cases hqo : q.operator with
      | none => simp [envOf, hq, hqo, hc, channelAt_setChannel_same (lt_of_channelAt hc)]
      | some j =>
        simp only [envOf, hq, hqo, hc, channelAt_setChannel_same (lt_of_channelAt hc)]
        by_cases hj : j = i
        · subst hj; simp
        · rw [quadGet_quadSet_other _ _ hj]
    · rfl
  · simp [envOf, channelAt_setOsc_other r o hq]

/-! ## answer and operand -/

@[simp] theorem answer_ok {α : Type} (a : α) (k : α → State) : answer (.ok a) k = .next (k a) := rfl
@[simp] theorem answer_error {α : Type} (r : Refusal) (k : α → State) :
    answer (.error r : Except Refusal α) k = .refused r := rfl
@[simp] theorem operand_some {α : Type} (a : α) : operand (some a) = .ok a := rfl
@[simp] theorem operand_none {α : Type} : operand (none : Option α) = .error .absentOperand := rfl

/-- A meaning that answers a next state got it from its operation. -/
theorem answer_next {α : Type} {r : Except Refusal α} {k : α → State} {t : State} (h : answer r k = .next t) :
    ∃ a, r = .ok a ∧ t = k a := by
  cases r with
  | ok a => exact ⟨a, rfl, by simpa using h.symm⟩
  | error e => cases h

/-- An operation after an operand that is there. -/
theorem bind_ok {α β : Type} {r : Except Refusal α} {f : α → Except Refusal β} {b : β} (h : r.bind f = .ok b) :
    ∃ a, r = .ok a ∧ f a = .ok b := by
  cases r with
  | ok a => exact ⟨a, rfl, h⟩
  | error e => cases h

theorem operand_ok {α : Type} {o : Option α} {a : α} (h : operand o = .ok a) : o = some a := by
  cases o with
  | none => cases h
  | some b => cases h; rfl

end Sys2Proof.Machine
end

