-- ==== Sys2Proof/Laws/Rom.lean ====
section
/-! SUPPORT. ROM_VALIDATE (44_engine.md R226, 60_exceptions.md R284) and VOICE_NEW (R229): what a valid instrument
is, which fault comes first, when a voice is built, and that a voice built from a valid instrument is legal. -/

namespace Sys2Proof.Machine

open F32

/-! ## ROM_VALIDATE -/

/-- An instrument that no check of R226 rejects. -/
def InstrumentValid (fs : Num32) : Instrument → Prop
  | .wt d => tableOk d.data = true ∧ envOk d.envelope fs = true
  | .fm d => d.algorithm.toNat ≤ 11 ∧ ∀ i : Fin 4, tableOk (quadGet d.op i).table = true ∧
      envOk (quadGet d.op i).envelope fs = true ∧ isFinite (quadGet d.op i).modulationDepth = true

@[simp] theorem checkFault_eq_none {ok : Bool} {c : Cause} {i : FaultInfo} : checkFault ok c i = none ↔ ok = true := by
  cases ok <;> simp [checkFault]

theorem checkFault_true {c : Cause} {i : FaultInfo} : checkFault true c i = none := rfl
theorem checkFault_false {c : Cause} {i : FaultInfo} : checkFault false c i = some { cause := c, info := i } := rfl

theorem operatorFault_none {fs : Num32} {slot : BitVec 24} {n i : Nat} {d : FMOperatorDefinition} :
    operatorFault fs slot n i d = none ↔
      tableOk d.table = true ∧ envOk d.envelope fs = true ∧ isFinite d.modulationDepth = true := by
  simp [operatorFault, Option.or_eq_none_iff]

theorem instrumentFault_none {fs : Num32} {slot : BitVec 24} {n : Nat} {e : Instrument} :
    instrumentFault fs slot n (some e) = none ↔ InstrumentValid fs e := by
  cases e with
  | wt d => simp [instrumentFault, InstrumentValid, Option.or_eq_none_iff]
  | fm d =>
    simp only [instrumentFault, InstrumentValid, Option.or_eq_none_iff, checkFault_eq_none, decide_eq_true_eq,
      operatorFault_none]
    constructor
    · rintro ⟨ha, h0, h1, h2, h3⟩
      refine ⟨ha, fun i => ?_⟩
      fin_cases i <;> assumption
    · rintro ⟨ha, h⟩
      exact ⟨ha, h 0, h 1, h 2, h 3⟩

/-- A ROM instance is valid exactly when every entry of it is (R64, R226). -/
theorem romFault_none {n : Nat} {fs : Num32} {rom : RomInstance} {slot : BitVec 24} :
    romFault n fs rom slot = none ↔ ∀ k < n, ∀ e, romEntry rom k = some e → InstrumentValid fs e := by
  simp only [romFault, List.findSome?_eq_none_iff, List.mem_range]
  refine forall_congr' fun k => forall_congr' fun _ => ?_
  cases he : romEntry rom k with
  | none => simp [instrumentFault]
  | some e => simp [instrumentFault_none]

/-- The fault raised is that of the first instrument that has one (R226, R284). -/
theorem romFault_some {n : Nat} {fs : Num32} {rom : RomInstance} {slot : BitVec 24} {f : FaultRecord}
    (h : romFault n fs rom slot = some f) :
    ∃ k < n, instrumentFault fs slot k (romEntry rom k) = some f ∧
      ∀ j < k, instrumentFault fs slot j (romEntry rom j) = none := by
  have hs : ∀ m, (List.range m).findSome? (fun k => instrumentFault fs slot k (romEntry rom k)) = some f →
      ∃ k < m, instrumentFault fs slot k (romEntry rom k) = some f ∧
        ∀ j < k, instrumentFault fs slot j (romEntry rom j) = none := by
    intro m
    induction m with
    | zero => intro h; simp at h
    | succ m ih =>
      intro h
      rw [List.range_succ, List.findSome?_append, Option.or_eq_some_iff] at h
      rcases h with h | ⟨hn, h⟩
      · obtain ⟨k, hk, h1, h2⟩ := ih h
        exact ⟨k, by omega, h1, h2⟩
      · refine ⟨m, by omega, ?_, fun j hj => ?_⟩
        · revert h
          cases he : instrumentFault fs slot m (romEntry rom m) <;> simp [he]
        · rw [List.findSome?_eq_none_iff] at hn
          exact hn j (List.mem_range.mpr hj)
  exact hs n h

/-! ## VOICE_NEW -/

/-- The oscillator VOICE_NEW builds (R229). -/
def oscBuilt (len : Nat) (fs hz : Num32) : Osc where
  phase := posZero
  freq := hz
  inc := div (mul (ofNat len) hz) fs
  len := len
  fs := fs

theorem oscNew_ok {len : Nat} {fs hz : Num32} (h : OscFits len fs hz) : oscNew len fs hz = .ok (oscBuilt len fs hz) := by
  simp [oscNew, setFrequency, h.1, h.2, oscBuilt]

theorem oscNew_refuses {len : Nat} {fs hz : Num32} (h : ¬ OscFits len fs hz) :
    oscNew len fs hz = .error .nonfiniteInput := by
  simp only [oscNew, setFrequency]
  split
  · next h1 =>
    split
    · next h2 => exact absurd ⟨h1, h2⟩ h
    · rfl
  · rfl

theorem phaseLegal_zero {len : Nat} (h1 : 1 ≤ len) (h2 : len ≤ Config.lMax) : PhaseLegal posZero len := by
  rw [phaseLegal_iff h2, toInt_posZero]
  refine ⟨isFinite_posZero, le_rfl, ?_, by decide⟩
  have : (0 : Int) < len := by exact_mod_cast h1
  positivity

theorem oscBuilt_legal {len : Nat} {fs hz : Num32} (h : OscFits len fs hz) (h1 : 1 ≤ len) (h2 : len ≤ Config.lMax)
    (hfs : RateLegal fs) : OscLegal (oscBuilt len fs hz) :=
  ⟨h1, h2, phaseLegal_zero h1 h2, h.1, h.2, hfs⟩

/-- The operator VOICE_NEW builds (R229). -/
def operatorBuilt (p : Params) (fs : Num32) (entry : Instrument) (note : Byte) (i : Fin 4) (d : FMOperatorDefinition) :
    FMOperator where
  osc := oscBuilt d.table.length fs (noteHz p.noteHz entry (some i) note)
  env := envBuild d.envelope fs
  depth := d.modulationDepth
  table := d.table

theorem operatorNew_ok {p : Params} {fs : Num32} {entry : Instrument} {note : Byte} {i : Fin 4}
    {d : FMOperatorDefinition} (h : OscFits d.table.length fs (noteHz p.noteHz entry (some i) note)) :
    operatorNew p fs entry note i d = .ok (operatorBuilt p fs entry note i d) := by
  simp [operatorNew, oscNew_ok h, operatorBuilt]

theorem operatorNew_refuses {p : Params} {fs : Num32} {entry : Instrument} {note : Byte} {i : Fin 4}
    {d : FMOperatorDefinition} (h : ¬ OscFits d.table.length fs (noteHz p.noteHz entry (some i) note)) :
    operatorNew p fs entry note i d = .error .nonfiniteInput := by
  simp only [operatorNew, oscNew_refuses h]

/-- The channel contents VOICE_NEW builds, where every frequency fits (R229). -/
def voiceBuilt (p : Params) (fs : Num32) (note : Byte) (active : ActiveState) : Instrument → Channel
  | .wt d => .wt { defn := d, osc := oscBuilt d.data.length fs (noteHz p.noteHz (.wt d) none note),
                   env := envBuild d.envelope fs, active := active }
  | .fm d => .fm { defn := d, alg := Fin.ofNat 12 d.algorithm.toNat,
                   op := { o0 := operatorBuilt p fs (.fm d) note 0 d.op.o0, o1 := operatorBuilt p fs (.fm d) note 1 d.op.o1,
                           o2 := operatorBuilt p fs (.fm d) note 2 d.op.o2, o3 := operatorBuilt p fs (.fm d) note 3 d.op.o3 },
                   active := active }

theorem voiceNew_ok {p : Params} {fs : Num32} {entry : Instrument} {note : Byte} (active : ActiveState)
    (h : VoiceFits p fs entry note) : voiceNew p fs entry note active = .ok (voiceBuilt p fs note active entry) := by
  cases entry with
  | wt d => simp only [voiceNew, oscNew_ok h]; rfl
  | fm d =>
    obtain ⟨ha, h0, h1, h2, h3⟩ := h
    have hlt : d.algorithm.toNat < 12 := by omega
    have hfin : (⟨d.algorithm.toNat, hlt⟩ : Fin 12) = Fin.ofNat 12 d.algorithm.toNat := by
      apply Fin.ext; simp [Fin.ofNat, Nat.mod_eq_of_lt hlt]
    simp only [voiceNew, dif_pos hlt, operatorNew_ok h0, operatorNew_ok h1, operatorNew_ok h2, operatorNew_ok h3,
      voiceBuilt, hfin]

theorem voiceNew_refuses {p : Params} {fs : Num32} {entry : Instrument} {note : Byte} (active : ActiveState)
    (h : ¬ VoiceFits p fs entry note) :
    voiceNew p fs entry note active = .error .nonfiniteInput ∨ voiceNew p fs entry note active = .error .algorithmRange := by
  cases entry with
  | wt d => left; simp only [voiceNew, oscNew_refuses h]
  | fm d =>
    simp only [voiceNew]
    split
    · next hlt =>
      left
      by_cases h0 : OscFits d.op.o0.table.length fs (noteHz p.noteHz (.fm d) (some 0) note)
      · simp only [operatorNew_ok h0]
        by_cases h1 : OscFits d.op.o1.table.length fs (noteHz p.noteHz (.fm d) (some 1) note)
        · simp only [operatorNew_ok h1]
          by_cases h2 : OscFits d.op.o2.table.length fs (noteHz p.noteHz (.fm d) (some 2) note)
          · simp only [operatorNew_ok h2]
            by_cases h3 : OscFits d.op.o3.table.length fs (noteHz p.noteHz (.fm d) (some 3) note)
            · exact absurd ⟨by omega, h0, h1, h2, h3⟩ h
            · simp only [operatorNew_refuses h3]
          · simp only [operatorNew_refuses h2]
        · simp only [operatorNew_refuses h1]
      · simp only [operatorNew_refuses h0]
    · right; rfl

theorem voiceNew_cases {p : Params} {fs : Num32} {entry : Instrument} {note : Byte} {active : ActiveState} {c : Channel}
    (h : voiceNew p fs entry note active = .ok c) : VoiceFits p fs entry note ∧ c = voiceBuilt p fs note active entry := by
  by_cases hf : VoiceFits p fs entry note
  · rw [voiceNew_ok active hf] at h; cases h; exact ⟨hf, rfl⟩
  · rcases voiceNew_refuses active hf with e | e <;> rw [e] at h <;> cases h

theorem operatorBuilt_legal {p : Params} {fs : Num32} {entry : Instrument} {note : Byte} {i : Fin 4}
    {d : FMOperatorDefinition} (hfs : RateLegal fs)
    (h : OscFits d.table.length fs (noteHz p.noteHz entry (some i) note)) (ht : tableOk d.table = true)
    (hd : isFinite d.modulationDepth = true) : OperatorLegal (operatorBuilt p fs entry note i d) := by
  obtain ⟨h1, h2, -⟩ := (tableOk_iff _).mp ht
  exact ⟨oscBuilt_legal h h1 h2 hfs, rfl, ht, envBuild_legal _ _, hd⟩

/-- A voice built from a valid instrument is legal (R123, R229). -/
theorem voiceBuilt_legal {p : Params} {fs : Num32} {entry : Instrument} {note : Byte} (active : ActiveState)
    (hfs : RateLegal fs) (hv : InstrumentValid fs entry) (hf : VoiceFits p fs entry note) :
    ChannelLegal (voiceBuilt p fs note active entry) := by
  cases entry with
  | wt d =>
    obtain ⟨h1, h2, -⟩ := (tableOk_iff _).mp hv.1
    exact ⟨oscBuilt_legal hf h1 h2 hfs, rfl, hv.1, envBuild_legal _ _⟩
  | fm d =>
    obtain ⟨-, hv⟩ := hv
    obtain ⟨-, f0, f1, f2, f3⟩ := hf
    exact ⟨operatorBuilt_legal hfs f0 (hv 0).1 (hv 0).2.2, operatorBuilt_legal hfs f1 (hv 1).1 (hv 1).2.2,
      operatorBuilt_legal hfs f2 (hv 2).1 (hv 2).2.2, operatorBuilt_legal hfs f3 (hv 3).1 (hv 3).2.2⟩

theorem voiceBuilt_tame {p : Params} {fs : Num32} {entry : Instrument} {note : Byte} (active : ActiveState)
    (h : InstrumentTame entry) : ChannelTame (voiceBuilt p fs note active entry) := by
  cases entry with
  | wt d => trivial
  | fm d => exact h

/-! ## Tame frequencies fit -/

theorem exists_pow {k : Nat} (h : k ≤ 276) : ∃ c, isFinite c = true ∧ toInt c = 2 ^ k := by
  obtain ⟨x, hx, -, hv⟩ := exists_finite (m := 2 ^ k) (by simpa using exists_magVal k 1 (by decide))
    (by rw [infMag_eq]; exact Nat.pow_lt_pow_right (by decide) (by omega))
  exact ⟨x, hx, by rw [hv]; norm_num⟩

/-- A bound on an exact value that is a finite number bounds the rounded one. -/
theorem roundInt_abs_le {c : Num32} (hc : isFinite c = true) {n : Int} {d : Nat} (hd : 0 < d)
    (h : |n| ≤ toInt c * d) : |roundInt n d| ≤ toInt c := by
  have hcn := not_isNaN_of_isFinite hc
  rw [abs_le] at h ⊢
  refine ⟨?_, roundInt_le hd hcn h.2⟩
  have := le_roundInt (c := neg c) (n := n) hd (by rw [isNaN_neg]; exact hcn) (by rw [toInt_neg, neg_mul]; exact h.1)
  rwa [toInt_neg] at this

theorem isFinite_of_abs_le {c x : Num32} (hc : isFinite c = true) (h : |toInt x| ≤ toInt c) : isFinite x = true := by
  rw [abs_le] at h
  exact isFinite_of_between (lo := neg c) (hi := c) (by rw [isFinite_neg]; exact hc) hc (by rw [toInt_neg]; exact h.1) h.2

theorem abs_toInt_le {x : Num32} {k : Nat} (h : mag x ≤ 2 ^ k) : |toInt x| ≤ 2 ^ k := by
  have h1 : (mag x : Int) ≤ 2 ^ k := by exact_mod_cast h
  unfold toInt
  split
  · rw [abs_neg, abs_of_nonneg (Int.natCast_nonneg _)]; exact h1
  · rw [abs_of_nonneg (Int.natCast_nonneg _)]; exact h1

/-- A tame frequency on a table of legal length under a rate of at least 1 fits. -/
theorem oscFits_of_tame {len : Nat} {fs hz : Num32} (hl : len ≤ Config.lMax) (hfs : RateLegal fs)
    (h1 : le one fs = true) (hz' : Tame hz) : OscFits len fs hz := by
  refine ⟨hz'.1, ?_⟩
  obtain ⟨c, hcf, hcv⟩ := exists_pow (k := 24 + 245) (by decide)
  have hlen : |toInt (ofNat len)| ≤ 2 ^ 24 * 2 ^ 149 := by
    rw [toInt_ofNat_exact hl, abs_of_nonneg (by positivity)]
    have : (len : Int) ≤ 2 ^ 24 := by exact_mod_cast hl
    exact mul_le_mul_of_nonneg_right this (by positivity)
  have hlf := isFinite_ofNat (n := len) (Nat.le_trans hl (by decide))
  have hza := abs_toInt_le hz'.2
  obtain ⟨hm, -⟩ := toInt_mul hlf hz'.1
  have hma : |toInt (mul (ofNat len) hz)| ≤ toInt c := by
    rw [hm]
    refine roundInt_abs_le hcf (by positivity) ?_
    rw [abs_mul, hcv, Nat.cast_pow, Nat.cast_ofNat]
    calc |toInt (ofNat len)| * |toInt hz| ≤ (2 ^ 24 * 2 ^ 149) * 2 ^ 245 :=
          mul_le_mul hlen hza (abs_nonneg _) (by positivity)
      _ = 2 ^ (24 + 245) * 2 ^ 149 := by rw [pow_add, mul_right_comm]
  have hmf := isFinite_of_abs_le hcf hma
  have hfn := not_isNaN_of_isFinite hfs.1
  rw [le_iff isNaN_one hfn, toInt_one] at h1
  have hfs0 : 0 < toInt fs := lt_of_lt_of_le (by positivity) h1
  obtain ⟨hd, -, hab, hap⟩ := toInt_div_pos hmf hfs.1 hfs0
  refine isFinite_of_abs_le hcf ?_
  rw [hd]
  refine roundInt_abs_le hcf hap ?_
  rw [abs_mul, hab, abs_of_nonneg (by positivity : (0 : Int) ≤ 2 ^ 149)]
  exact mul_le_mul hma h1 (by positivity) ((abs_nonneg _).trans hma)

theorem noteHz_tame {t : NoteTable} (hr : ∀ r ∈ t.rows, Tame r.hz) (hd : Tame t.default) (entry : Instrument)
    (op : Option (Fin 4)) (note : Byte) : Tame (noteHz t entry op note) := by
  unfold noteHz
  split
  · next r h => exact hr r (List.mem_of_find?_eq_some h)
  · exact hd

/-- Tame notes fit every valid instrument. -/
theorem voiceFits_of_tame {s : State} (hn : NotesTame s) (hfs : RateLegal s.engine.fs) {entry : Instrument}
    (hv : InstrumentValid s.engine.fs entry) (note : Byte) : VoiceFits s.params s.engine.fs entry note := by
  obtain ⟨hr, hd, h1⟩ := hn
  cases entry with
  | wt d =>
    obtain ⟨-, h2, -⟩ := (tableOk_iff _).mp hv.1
    exact oscFits_of_tame h2 hfs h1 (noteHz_tame hr hd _ _ _)
  | fm d =>
    obtain ⟨ha, hv⟩ := hv
    exact ⟨ha, oscFits_of_tame ((tableOk_iff _).mp (hv 0).1).2.1 hfs h1 (noteHz_tame hr hd _ _ _),
      oscFits_of_tame ((tableOk_iff _).mp (hv 1).1).2.1 hfs h1 (noteHz_tame hr hd _ _ _),
      oscFits_of_tame ((tableOk_iff _).mp (hv 2).1).2.1 hfs h1 (noteHz_tame hr hd _ _ _),
      oscFits_of_tame ((tableOk_iff _).mp (hv 3).1).2.1 hfs h1 (noteHz_tame hr hd _ _ _)⟩

end Sys2Proof.Machine
end

