-- ==== Sys2Proof/Laws/Commands.lean ====
section
/-! SUPPORT. The commands and the drain (44_engine.md R228 to R235): everything one applied word can do, said once,
when it completes, and what a run of words keeps. -/

namespace Sys2Proof.Machine

/-! ## One word -/

/-- What an applied word did (R228 to R232, R282): one fault and nothing else, one channel, the ROM binding, or
nothing. -/
inductive ApplyEffect (s t : State) : Prop
  | fault (f : FaultRecord) (h : t = raiseFault f s)
  | note (c n : Nat) (entry : Instrument) (note : Byte) (active : ActiveState) (hc : c < s.params.numChannels)
      (he : instrumentAt s n = some entry) (hf : VoiceFits s.params s.engine.fs entry note)
      (h : t = { s with engine := setChannel s.engine c (voiceBuilt s.params s.engine.fs note active entry) })
  | release (c : Nat) (v : Channel) (hv : channelAt s.engine c = some v)
      (h : t = { s with engine := setChannel s.engine c (releaseChannel v) })
  | rom (slot : BitVec 24) (r : RomInstance) (hr : romAt s.params.roms slot = some r)
      (hf : romFault s.params.numInstruments s.engine.fs r slot = none)
      (h : t = { s with engine := { s.engine with romId := slot, rom := r } })
  | nothing (h : t = s)

theorem startNote_effect {w : Word} {note inst ch : Byte} {active : ActiveState} {s t : State}
    (h : startNote w note inst ch active s = .ok t) : ApplyEffect s t := by
  unfold startNote at h
  split at h
  · cases h; exact .fault _ rfl
  · next hc =>
    split at h
    · cases h; exact .fault _ rfl
    · next entry he =>
      split at h
      · cases h
      · next c hn =>
        cases h
        obtain ⟨hf, rfl⟩ := voiceNew_cases hn
        exact .note ch.toNat inst.toNat entry note active (by omega) he hf rfl

theorem releaseKey_effect (w : Word) (ch : Byte) (s : State) : ApplyEffect s (releaseKey w ch s) := by
  unfold releaseKey
  split
  · exact .fault _ rfl
  · split
    · exact .nothing rfl
    · next v hv => exact .release ch.toNat v hv rfl

theorem changeRom_effect (w : Word) (slot : BitVec 24) (s : State) : ApplyEffect s (changeRom w slot s) := by
  unfold changeRom
  split
  · exact .fault _ rfl
  · next r hr =>
    split
    · exact .fault _ rfl
    · next hf => exact .rom slot r hr hf rfl

theorem applyWord_effect {w : Word} {s t : State} (h : applyWord w s = .ok t) : ApplyEffect s t := by
  unfold applyWord at h
  split at h
  · cases h; exact .fault _ rfl
  · next c _ =>
    cases c with
    | pressed note inst ch => exact startNote_effect h
    | released ch => cases h; exact releaseKey_effect _ _ _
    | trigger note inst ch => exact startNote_effect h
    | romChanged slot => cases h; exact changeRom_effect _ _ _

/-- An applied word records nothing, or it raised one fault and did nothing else (R235). -/
theorem ApplyEffect.quiet_or_fault {s t : State} (h : ApplyEffect s t) :
    t.fault = s.fault ∧ t.log = s.log ∨
      ∃ f, t = { s with fault := s.fault ||| causeBit f.cause, log := s.log ++ [.fault f] } := by
  cases h with
  | fault f h => exact .inr ⟨f, h⟩
  | note => subst_vars; exact .inl ⟨rfl, rfl⟩
  | release => subst_vars; exact .inl ⟨rfl, rfl⟩
  | rom => subst_vars; exact .inl ⟨rfl, rfl⟩
  | nothing => subst_vars; exact .inl ⟨rfl, rfl⟩

/-- Everything an applied word leaves alone. -/
theorem ApplyEffect.frame {s t : State} (h : ApplyEffect s t) :
    t.params = s.params ∧ t.engine.fs = s.engine.fs ∧ t.engine.ch.length = s.engine.ch.length ∧ t.stop = s.stop ∧
      t.refused = s.refused ∧ t.cmdq = s.cmdq ∧ t.outq = s.outq ∧ t.cur = s.cur ∧ t.savePort = s.savePort ∧
      t.result = s.result ∧ t.tap = s.tap ∧ t.inputs = s.inputs := by
  cases h <;> subst_vars <;> simp

/-- A note refuses only where its frequencies do not fit. -/
theorem startNote_ok {w : Word} {note inst ch : Byte} {active : ActiveState} {s : State}
    (h : ∀ entry, instrumentAt s inst.toNat = some entry → VoiceFits s.params s.engine.fs entry note) :
    ∃ t, startNote w note inst ch active s = .ok t := by
  unfold startNote
  split
  · exact ⟨_, rfl⟩
  · split
    · exact ⟨_, rfl⟩
    · next entry he => rw [voiceNew_ok active (h entry he)]; exact ⟨_, rfl⟩

/-- Every note on every instrument of the bound ROM fits. -/
def NotesFit (s : State) : Prop :=
  ∀ n entry note, instrumentAt s n = some entry → VoiceFits s.params s.engine.fs entry note

theorem applyWord_ok {s : State} (h : NotesFit s) (w : Word) : ∃ t, applyWord w s = .ok t := by
  unfold applyWord
  split
  · exact ⟨_, rfl⟩
  · next c _ =>
    cases c with
    | pressed note inst ch => exact startNote_ok (fun entry he => h _ entry note he)
    | released ch => exact ⟨_, rfl⟩
    | trigger note inst ch => exact startNote_ok (fun entry he => h _ entry note he)
    | romChanged slot => exact ⟨_, rfl⟩

/-! ## Many words, and the drain -/

theorem applyWords_cons_ok {w : Word} {s t : State} (h : applyWord w s = .ok t) (ws : List Word) :
    applyWords (w :: ws) s = applyWords ws t := by simp only [applyWords, h]

theorem applyWords_cons_error {w : Word} {s : State} {r : Refusal} (h : applyWord w s = .error r) (ws : List Word) :
    applyWords (w :: ws) s = .error r := by simp only [applyWords, h]

theorem applyWords_append (xs ys : List Word) (s : State) :
    applyWords (xs ++ ys) s = (applyWords xs s).bind (applyWords ys) := by
  induction xs generalizing s with
  | nil => rfl
  | cons w ws ih =>
    simp only [List.cons_append, applyWords]
    cases h : applyWord w s with
    | error r => rfl
    | ok t => exact ih t

/-- The drain in one list of words (R234). -/
theorem drain_eq (s : State) :
    drain s = applyWords (s.cmdq.filter isRomChange ++ s.cmdq.filter (fun w => !isRomChange w)) { s with cmdq := [] } := by
  rw [applyWords_append]
  unfold drain
  cases applyWords (s.cmdq.filter isRomChange) { s with cmdq := [] } <;> rfl

/-- What every applied word keeps, a run of words keeps. -/
theorem applyWords_keeps {P : State → Prop} (hP : ∀ s t, P s → ApplyEffect s t → P t) {ws : List Word} {s t : State}
    (hs : P s) (h : applyWords ws s = .ok t) : P t := by
  induction ws generalizing s with
  | nil => cases h; exact hs
  | cons w ws ih =>
    simp only [applyWords] at h
    split at h
    · cases h
    · next s' hw => exact ih (hP _ _ hs (applyWord_effect hw)) h

/-- What every applied word keeps and lets every word complete, lets a run of words complete. -/
theorem applyWords_ok {P : State → Prop} (hP : ∀ s t, P s → ApplyEffect s t → P t) (hN : ∀ s, P s → NotesFit s)
    (ws : List Word) {s : State} (hs : P s) : ∃ t, applyWords ws s = .ok t ∧ P t := by
  induction ws generalizing s with
  | nil => exact ⟨s, rfl, hs⟩
  | cons w ws ih =>
    obtain ⟨t, ht⟩ := applyWord_ok (hN s hs) w
    simp only [applyWords, ht]
    exact ih (hP _ _ hs (applyWord_effect ht))

/-- Everything a drain leaves alone; CMDQ is emptied (R234). -/
theorem drain_frame {s t : State} (h : drain s = .ok t) :
    t.params = s.params ∧ t.engine.fs = s.engine.fs ∧ t.engine.ch.length = s.engine.ch.length ∧ t.stop = s.stop ∧
      t.refused = s.refused ∧ t.cmdq = [] ∧ t.outq = s.outq ∧ t.cur = s.cur ∧ t.savePort = s.savePort ∧
      t.result = s.result ∧ t.tap = s.tap ∧ t.inputs = s.inputs := by
  rw [drain_eq] at h
  refine applyWords_keeps (s := { s with cmdq := [] }) (P := fun u => u.params = s.params ∧ u.engine.fs = s.engine.fs ∧
    u.engine.ch.length = s.engine.ch.length ∧ u.stop = s.stop ∧ u.refused = s.refused ∧ u.cmdq = [] ∧
    u.outq = s.outq ∧ u.cur = s.cur ∧ u.savePort = s.savePort ∧ u.result = s.result ∧ u.tap = s.tap ∧
    u.inputs = s.inputs) ?_ ⟨rfl, rfl, rfl, rfl, rfl, rfl, rfl, rfl, rfl, rfl, rfl, rfl⟩ h
  rintro a b ⟨h1, h2, h3, h4, h5, h6, h7, h8, h9, h10, h11, h12⟩ he
  obtain ⟨k1, k2, k3, k4, k5, k6, k7, k8, k9, k10, k11, k12⟩ := he.frame
  exact ⟨k1.trans h1, k2.trans h2, k3.trans h3, k4.trans h4, k5.trans h5, k6.trans h6, k7.trans h7, k8.trans h8,
    k9.trans h9, k10.trans h10, k11.trans h11, k12.trans h12⟩

/-- What every applied word keeps and emptying CMDQ keeps, a drain keeps. -/
theorem drain_keeps {P : State → Prop} (hP : ∀ s t, P s → ApplyEffect s t → P t)
    (hq : ∀ s, P s → P { s with cmdq := [] }) {s t : State} (hs : P s) (h : drain s = .ok t) : P t := by
  rw [drain_eq] at h
  exact applyWords_keeps hP (hq s hs) h

/-! ## What one word keeps -/

/-- The instrument a command names is an entry of the bound ROM. -/
theorem romEntry_of_instrumentAt {s : State} {n : Nat} {e : Instrument} (h : instrumentAt s n = some e) :
    n < s.params.numInstruments ∧ romEntry s.engine.rom n = some e := by
  unfold instrumentAt at h
  split at h
  · next hn => exact ⟨hn, h⟩
  · cases h

theorem mem_of_romEntry {rom : RomInstance} {n : Nat} {e : Instrument} (h : romEntry rom n = some e) :
    some e ∈ rom := by
  unfold romEntry at h
  rw [List.getD_eq_getElem?_getD] at h
  cases hg : rom[n]? with
  | none => rw [hg] at h; cases h
  | some o => rw [hg] at h; rw [← h]; exact List.mem_of_getElem? hg

theorem mem_of_romAt {roms : RomStore} {slot : BitVec 24} {r : RomInstance} (h : romAt roms slot = some r) :
    ∃ e ∈ roms, e.2 = r := by
  unfold romAt at h
  cases hf : roms.find? (fun e => e.1 == slot) with
  | none => rw [hf] at h; cases h
  | some e => rw [hf] at h; exact ⟨e, List.mem_of_find?_eq_some hf, by simpa using h⟩

/-- An instrument a command names in a valid ROM is valid. -/
theorem valid_of_instrumentAt {s : State} (hr : RomInv s) {n : Nat} {e : Instrument} (h : instrumentAt s n = some e) :
    InstrumentValid s.engine.fs e := by
  obtain ⟨hn, he⟩ := romEntry_of_instrumentAt h
  exact romFault_none.mp hr.2 n hn e he

theorem releaseChannel_legal {c : Channel} (h : ChannelLegal c) : ChannelLegal (releaseChannel c) := by
  cases c <;> exact h

theorem releaseChannel_tame {c : Channel} (h : ChannelTame c) : ChannelTame (releaseChannel c) := by
  cases c <;> exact h

/-- What holds of every channel still does after one is written. -/
theorem forall_setChannel {P : Channel → Prop} {d : SoundEngineData} (h : ∀ c ∈ d.ch, P c) {k : Nat} {v : Channel}
    (hv : P v) : ∀ c ∈ (setChannel d k v).ch, P c := by
  intro c hc
  rcases List.mem_or_eq_of_mem_set hc with hc | rfl
  · exact h c hc
  · exact hv

theorem mem_of_channelAt {d : SoundEngineData} {k : Nat} {v : Channel} (h : channelAt d k = some v) : v ∈ d.ch :=
  List.mem_of_getElem? h

theorem romInv_apply {s t : State} (h : RomInv s) (he : ApplyEffect s t) : RomInv t := by
  cases he with
  | fault f h' => subst h'; exact h
  | note c n entry note active hc hi hf h' => subst h'; exact h
  | release c v hv h' => subst h'; exact h
  | rom slot r hr hf h' => subst h'; exact ⟨hr, hf⟩
  | nothing h' => subst h'; exact h

/-- An applied word keeps every voice legal (R123). -/
theorem engineLegal_apply {s t : State} (h : EngineLegal s.engine) (hr : RomInv s) (he : ApplyEffect s t) :
    EngineLegal t.engine := by
  cases he with
  | fault f h' => subst h'; exact h
  | note c n entry note active hc hi hf h' =>
    subst h'
    exact ⟨h.1, forall_setChannel h.2 (voiceBuilt_legal active h.1 (valid_of_instrumentAt hr hi) hf)⟩
  | release c v hv h' => subst h'; exact ⟨h.1, forall_setChannel h.2 (releaseChannel_legal (h.2 v (mem_of_channelAt hv)))⟩
  | rom slot r hr hf h' => subst h'; exact h
  | nothing h' => subst h'; exact h

theorem tameInv_apply {s t : State} (h : TameInv s) (he : ApplyEffect s t) : TameInv t := by
  obtain ⟨h1, h2, h3, h4⟩ := id h
  cases he with
  | fault f h' => subst h'; exact h
  | note c n entry note active hc hi hf h' =>
    subst h'
    exact ⟨h1, h2, h3, forall_setChannel h4 (voiceBuilt_tame active
      (h2 entry (mem_of_romEntry (romEntry_of_instrumentAt hi).2)))⟩
  | release c v hv h' =>
    subst h'; exact ⟨h1, h2, h3, forall_setChannel h4 (releaseChannel_tame (h4 v (mem_of_channelAt hv)))⟩
  | rom slot r hr hf h' =>
    subst h'
    obtain ⟨e, he, rfl⟩ := mem_of_romAt hr
    exact ⟨h1, h3 e he, h3, h4⟩
  | nothing h' => subst h'; exact h

/-- What the completion of a drain and of a frame rests on. -/
def Runs (s : State) : Prop := EngineLegal s.engine ∧ RomInv s ∧ TameInv s

theorem runs_apply {s t : State} (h : Runs s) (he : ApplyEffect s t) : Runs t :=
  ⟨engineLegal_apply h.1 h.2.1 he, romInv_apply h.2.1 he, tameInv_apply h.2.2 he⟩

theorem notesFit_of_runs {s : State} (h : Runs s) : NotesFit s :=
  fun _ _ note he => voiceFits_of_tame h.2.2.1 h.1.1 (valid_of_instrumentAt h.2.1 he) note

/-- A drain completes (R234), and leaves what the frame after it needs. -/
theorem drain_ok {s : State} (h : Runs s) : ∃ t, drain s = .ok t ∧ Runs t := by
  rw [drain_eq]
  exact applyWords_ok (fun _ _ => runs_apply) (fun _ => notesFit_of_runs) _ h

end Sys2Proof.Machine
end

