-- ==== Sys2Proof/Laws/Decode.lean ====
section
/-! SUPPORT. Words and their fields (30_encoding.md R91): the fields of a word put together from bytes, and every word
as such. -/

namespace Sys2Proof

/-- The fields of a word of four bytes. -/
theorem fields_of_bytes (op ch inst note : Byte) :
    opc (op ++ ch ++ inst ++ note) = op ∧ fieldCh (op ++ ch ++ inst ++ note) = ch ∧
      fieldInst (op ++ ch ++ inst ++ note) = inst ∧ fieldNote (op ++ ch ++ inst ++ note) = note := by
  refine ⟨?_, ?_, ?_, ?_⟩ <;>
  · apply BitVec.eq_of_getLsbD_eq
    intro i hi
    simp only [opc, fieldCh, fieldInst, fieldNote, BitVec.getLsbD_extractLsb', BitVec.getLsbD_append, hi, decide_true,
      Bool.true_and]
    split_ifs <;> first | omega | (congr 1; omega)

/-- The two low bytes of a word of four bytes are its format-C reserved field. -/
theorem fieldRsv_of_bytes (op ch inst note : Byte) :
    fieldRsv (op ++ ch ++ inst ++ note) = (inst ++ note : BitVec 16) := by
  apply BitVec.eq_of_getLsbD_eq
  intro i hi
  simp only [fieldRsv, BitVec.getLsbD_extractLsb', BitVec.getLsbD_append, hi, decide_true, Bool.true_and]
  split_ifs <;> first | omega | (congr 1; omega)

/-- The three low bytes of a word of four bytes are its immediate. -/
theorem fieldImm_of_bytes (op ch inst note : Byte) :
    fieldImm (op ++ ch ++ inst ++ note) = (ch ++ inst ++ note : BitVec 24) := by
  apply BitVec.eq_of_getLsbD_eq
  intro i hi
  simp only [fieldImm, BitVec.getLsbD_extractLsb', BitVec.getLsbD_append, hi, decide_true, Bool.true_and]
  split_ifs <;> first | omega | (congr 1; omega)

/-- The fields of a word of an opcode and an immediate. -/
theorem fields_of_imm (op : Byte) (imm : BitVec 24) : opc (op ++ imm) = op ∧ fieldImm (op ++ imm) = imm := by
  refine ⟨?_, ?_⟩ <;>
  · apply BitVec.eq_of_getLsbD_eq
    intro i hi
    simp only [opc, fieldImm, BitVec.getLsbD_extractLsb', BitVec.getLsbD_append, hi, decide_true, Bool.true_and]
    split_ifs <;> first | omega | (congr 1; omega)

/-- The fields of a word of format C. -/
theorem fields_of_channel (op ch : Byte) (r : BitVec 16) :
    opc (op ++ ch ++ r) = op ∧ fieldCh (op ++ ch ++ r) = ch ∧ fieldRsv (op ++ ch ++ r) = r := by
  refine ⟨?_, ?_, ?_⟩ <;>
  · apply BitVec.eq_of_getLsbD_eq
    intro i hi
    simp only [opc, fieldCh, fieldRsv, BitVec.getLsbD_extractLsb', BitVec.getLsbD_append, hi, decide_true, Bool.true_and]
    split_ifs <;> first | omega | (congr 1; omega)

/-- Every word is its four bytes. -/
theorem word_of_bytes (w : Word) : opc w ++ fieldCh w ++ fieldInst w ++ fieldNote w = w := by
  apply BitVec.eq_of_getLsbD_eq
  intro i hi
  simp only [opc, fieldCh, fieldInst, fieldNote, BitVec.getLsbD_extractLsb', BitVec.getLsbD_append]
  split_ifs with h1 h2 h3
  · simp [h1]
  · simp only [h2, decide_true, Bool.true_and]; congr 1; omega
  · simp only [h3, decide_true, Bool.true_and]; congr 1; omega
  · simp only [show i - 8 - 8 - 8 < 8 by omega, decide_true, Bool.true_and]; congr 1; omega

/-- Every word is its opcode and its immediate. -/
theorem word_of_imm (w : Word) : opc w ++ fieldImm w = w := by
  apply BitVec.eq_of_getLsbD_eq
  intro i hi
  simp only [opc, fieldImm, BitVec.getLsbD_extractLsb', BitVec.getLsbD_append]
  split_ifs with h1
  · simp [h1]
  · simp only [show i - 24 < 8 by omega, decide_true, Bool.true_and]; congr 1; omega

/-- Every word is its opcode, its channel and its reserved field. -/
theorem word_of_channel (w : Word) : opc w ++ fieldCh w ++ fieldRsv w = w := by
  apply BitVec.eq_of_getLsbD_eq
  intro i hi
  simp only [opc, fieldCh, fieldRsv, BitVec.getLsbD_extractLsb', BitVec.getLsbD_append]
  split_ifs with h1 h2
  · simp [h1]
  · simp only [h2, decide_true, Bool.true_and]; congr 1; omega
  · simp only [show i - 16 - 8 < 8 by omega, decide_true, Bool.true_and]; congr 1; omega

/-- A reserved field of two bytes is zero exactly when both are. -/
theorem rsv_zero_iff (inst note : Byte) : (inst ++ note : BitVec 16) = 0#16 ↔ inst = 0#8 ∧ note = 0#8 := by
  constructor
  · intro h
    have hh : ∀ i : Nat, (inst ++ note : BitVec 16).getLsbD i = false := by intro i; rw [h]; simp
    constructor
    · apply BitVec.eq_of_getLsbD_eq
      intro i hi
      have := hh (i + 8)
      simp only [BitVec.getLsbD_append] at this
      rw [if_neg (by omega)] at this
      simpa using this
    · apply BitVec.eq_of_getLsbD_eq
      intro i hi
      have := hh i
      simp only [BitVec.getLsbD_append] at this
      rw [if_pos hi] at this
      simpa using this
  · rintro ⟨rfl, rfl⟩; rfl

end Sys2Proof
end

