-- ==== Sys2Proof/Laws/Mix.lean ====
section
/-! SUPPORT. MIX_TICK and the sample loop (44_engine.md R236 to R239): what a tick leaves on each channel, when it
completes, the range of the sum, and the length of a frame. -/

namespace Sys2Proof.Machine

open F32

/-! ## One channel -/

/-- A channel after a tick (R146, R170). -/
def channelAfter : Channel → Channel
  | .empty => .empty
  | .wt v => .wt { v with
      osc := { v.osc with phase := wrapFinite (add v.osc.phase v.osc.inc) v.osc.len }
      env := (envTick v.env v.active).2
      active := activeAfterTick v.active }
  | .fm v => .fm { v with op := operatorsAfter v.op v.active, active := activeAfterTick v.active }

/-- VOICE_TICK, wherever it completes, leaves the voice as OSC_TICK, ENV_TICK and R147 do. -/
theorem voiceTick_after {v v' : WaveVoice} {y : Num32} (h : voiceTick v = .ok (y, v')) :
    Channel.wt v' = channelAfter (.wt v) := by
  unfold voiceTick at h
  split at h
  · cases h
  · next p o ho =>
    split at h
    · cases h
    · cases h
      rcases oscTick_cases v.osc with ⟨-, e⟩ | ⟨-, e⟩ <;> rw [e] at ho <;> cases ho
      rfl

theorem channelTick_after {table : Vector AlgorithmDefinition 10} {y y' : Num32} {c c' : Channel}
    (h : channelTick table y c = .ok (y', c')) : c' = channelAfter c := by
  unfold channelTick at h
  split at h
  · cases h; rfl
  · split at h
    · cases h
    · next ht => cases h; exact voiceTick_after ht
  · split at h
    · cases h
    · next ht => cases h; rw [fmTick_after ht]; rfl

theorem channelAfter_legal {c : Channel} (h : ChannelLegal c) : ChannelLegal (channelAfter c) := by
  cases c with
  | empty => trivial
  | wt v => exact ⟨(oscTick_ok h.1).2, h.2.1, h.2.2.1, envTick_legal h.2.2.2 _⟩
  | fm v => exact operatorsAfter_legal h _ _

theorem channelAfter_tame {c : Channel} (h : ChannelTame c) : ChannelTame (channelAfter c) := by
  cases c <;> exact h

/-- A legal tame channel ticks; it adds a value of [0, 4] at most (R239). -/
theorem channelTick_ok {table : Vector AlgorithmDefinition 10} {n : Nat} (hn : n + 4 ≤ 2 ^ 24) {y : Num32}
    (hy : InRange n y) {c : Channel} (h : ChannelLegal c) (ht : ChannelTame c) :
    ∃ y', channelTick table y c = .ok (y', channelAfter c) ∧ InRange (n + 4) y' := by
  cases c with
  | empty => exact ⟨y, rfl, inRange_mono (by omega) hy⟩
  | wt v =>
    obtain ⟨x, -, -, e, hu⟩ := voiceTick_ok h
    refine ⟨add y (mul x (envTick v.env v.active).1), by simp only [channelTick, e]; rfl, ?_⟩
    exact inRange_mono (m := n + 1) (by omega) (add_inRange (by omega) hy (inRange_of_inUnit hu))
  | fm v =>
    obtain ⟨out, ho, e⟩ := fmTick_ok h ht table
    refine ⟨add y (carrierSum (algDef table v.alg).carriers out), by simp only [channelTick, e]; rfl, ?_⟩
    exact add_inRange hn hy (inRange_mono (carrierCount_le _) (carrierSum_inRange _ ho))

/-! ## MIX_TICK -/

theorem mixChannels_after {table : Vector AlgorithmDefinition 10} {cs cs' : List Channel} {y y' : Num32}
    (h : mixChannels table cs y = .ok (y', cs')) : cs' = cs.map channelAfter := by
  induction cs generalizing y y' cs' with
  | nil => cases h; rfl
  | cons c cs ih =>
    simp only [mixChannels] at h
    split at h
    · cases h
    · next h1 =>
      split at h
      · cases h
      · next h2 => cases h; rw [channelTick_after h1, ih h2]; rfl

theorem mixChannels_ok {table : Vector AlgorithmDefinition 10} {cs : List Channel} {n : Nat}
    (hn : n + 4 * cs.length ≤ 2 ^ 24) {y : Num32} (hy : InRange n y) (h : ∀ c ∈ cs, ChannelLegal c)
    (ht : ∀ c ∈ cs, ChannelTame c) :
    ∃ y', mixChannels table cs y = .ok (y', cs.map channelAfter) ∧ InRange (n + 4 * cs.length) y' := by
  induction cs generalizing n y with
  | nil => exact ⟨y, rfl, hy⟩
  | cons c cs ih =>
    rw [List.length_cons] at hn
    obtain ⟨y1, e1, r1⟩ := channelTick_ok (table := table) (by omega) hy (h c List.mem_cons_self) (ht c List.mem_cons_self)
    obtain ⟨y2, e2, r2⟩ := ih (n := n + 4) (by omega) r1 (fun d hd => h d (List.mem_cons_of_mem _ hd))
      (fun d hd => ht d (List.mem_cons_of_mem _ hd))
    refine ⟨y2, by simp only [mixChannels, e1, e2]; rfl, ?_⟩
    rw [List.length_cons]
    exact inRange_mono (by omega) r2

/-- A legal tame channel ticks, whatever is already summed. -/
theorem channelTick_total {table : Vector AlgorithmDefinition 10} (y : Num32) {c : Channel} (h : ChannelLegal c)
    (ht : ChannelTame c) : ∃ y', channelTick table y c = .ok (y', channelAfter c) := by
  cases c with
  | empty => exact ⟨y, rfl⟩
  | wt v =>
    obtain ⟨x, -, -, e, -⟩ := voiceTick_ok h
    exact ⟨add y (mul x (envTick v.env v.active).1), by simp only [channelTick, e]; rfl⟩
  | fm v =>
    obtain ⟨out, -, e⟩ := fmTick_ok h ht table
    exact ⟨add y (carrierSum (algDef table v.alg).carriers out), by simp only [channelTick, e]; rfl⟩

theorem mixChannels_total {table : Vector AlgorithmDefinition 10} {cs : List Channel} (y : Num32)
    (h : ∀ c ∈ cs, ChannelLegal c) (ht : ∀ c ∈ cs, ChannelTame c) :
    ∃ y', mixChannels table cs y = .ok (y', cs.map channelAfter) := by
  induction cs generalizing y with
  | nil => exact ⟨y, rfl⟩
  | cons c cs ih =>
    obtain ⟨y1, e1⟩ := channelTick_total (table := table) y (h c List.mem_cons_self) (ht c List.mem_cons_self)
    obtain ⟨y2, e2⟩ := ih y1 (fun d hd => h d (List.mem_cons_of_mem _ hd)) (fun d hd => ht d (List.mem_cons_of_mem _ hd))
    exact ⟨y2, by simp only [mixChannels, e1, e2]; rfl⟩

/-! ## The sample loop -/

/-- The channel array after `n` ticks. -/
def channelsAfter : Nat → List Channel → List Channel
  | 0, cs => cs
  | n + 1, cs => channelsAfter n (cs.map channelAfter)

theorem channelsAfter_keeps {P : Channel → Prop} (hP : ∀ c, P c → P (channelAfter c)) (n : Nat) {cs : List Channel}
    (h : ∀ c ∈ cs, P c) : ∀ c ∈ channelsAfter n cs, P c := by
  induction n generalizing cs with
  | zero => exact h
  | succ n ih =>
    refine ih ?_
    intro c hc
    obtain ⟨d, hd, rfl⟩ := List.mem_map.mp hc
    exact hP d (h d hd)

@[simp] theorem channelsAfter_length (n : Nat) (cs : List Channel) : (channelsAfter n cs).length = cs.length := by
  induction n generalizing cs with
  | zero => rfl
  | succ n ih => simp [channelsAfter, ih]

theorem renderSamples_after {table : Vector AlgorithmDefinition 10} {n : Nat} {cs cs' : List Channel} {b : Frame}
    (h : renderSamples table n cs = .ok (b, cs')) : b.length = n ∧ cs' = channelsAfter n cs := by
  induction n generalizing cs cs' b with
  | zero => cases h; exact ⟨rfl, rfl⟩
  | succ n ih =>
    simp only [renderSamples] at h
    split at h
    · cases h
    · next h1 =>
      split at h
      · cases h
      · next h2 =>
        cases h
        obtain ⟨hl, he⟩ := ih h2
        rw [mixTick] at h1
        rw [mixChannels_after h1] at he
        exact ⟨by simp [hl], he⟩

theorem renderSamples_ok {table : Vector AlgorithmDefinition 10} (n : Nat) {cs : List Channel}
    (h : ∀ c ∈ cs, ChannelLegal c) (ht : ∀ c ∈ cs, ChannelTame c) :
    ∃ b, renderSamples table n cs = .ok (b, channelsAfter n cs) ∧ b.length = n := by
  induction n generalizing cs with
  | zero => exact ⟨[], rfl, rfl⟩
  | succ n ih =>
    obtain ⟨y, e⟩ := mixChannels_total (table := table) posZero h ht
    have h' : ∀ c ∈ cs.map channelAfter, ChannelLegal c := by
      intro c hc; obtain ⟨d, hd, rfl⟩ := List.mem_map.mp hc; exact channelAfter_legal (h d hd)
    have ht' : ∀ c ∈ cs.map channelAfter, ChannelTame c := by
      intro c hc; obtain ⟨d, hd, rfl⟩ := List.mem_map.mp hc; exact channelAfter_tame (ht d hd)
    obtain ⟨b, eb, hb⟩ := ih h' ht'
    exact ⟨y :: b, by simp only [renderSamples, mixTick, e, eb]; rfl, by simp [hb]⟩

/-! ## RENDER_FRAME -/

/-- RENDER_FRAME, wherever it completes: the frame's length, and everything it leaves alone (R237). -/
theorem renderFrame_frame {n : Nat} {s t : State} {b : Frame} (h : renderFrame n s = .ok (b, t)) :
    b.length = n ∧ t.params = s.params ∧ t.engine.fs = s.engine.fs ∧ t.engine.ch.length = s.engine.ch.length ∧
      t.stop = s.stop ∧ t.refused = s.refused ∧ t.cmdq = [] ∧ t.outq = s.outq ∧ t.cur = s.cur ∧
      t.savePort = s.savePort ∧ t.result = s.result ∧ t.tap = s.tap ∧ t.inputs = s.inputs := by
  unfold renderFrame at h
  split at h
  · cases h
  · next u hu =>
    split at h
    · cases h
    · next hr =>
      cases h
      obtain ⟨k1, k2, k3, k4, k5, k6, k7, k8, k9, k10, k11, k12⟩ := drain_frame hu
      obtain ⟨hl, he⟩ := renderSamples_after hr
      subst he
      exact ⟨hl, k1, k2, by simpa using k3, k4, k5, k6, k7, k8, k9, k10, k11, k12⟩

/-- What a drain keeps, and ticking every channel keeps, a frame keeps. -/
theorem renderFrame_keeps {P : State → Prop} (hP : ∀ s t, P s → ApplyEffect s t → P t)
    (hq : ∀ s, P s → P { s with cmdq := [] })
    (hc : ∀ s n, P s → P { s with engine := { s.engine with ch := channelsAfter n s.engine.ch } })
    {n : Nat} {s t : State} {b : Frame} (hs : P s) (h : renderFrame n s = .ok (b, t)) : P t := by
  unfold renderFrame at h
  split at h
  · cases h
  · next u hu =>
    split at h
    · cases h
    · next hr =>
      cases h
      rw [(renderSamples_after hr).2]
      exact hc u n (drain_keeps hP hq hs hu)

/-- A frame renders (R237). -/
theorem renderFrame_ok {s : State} (h : Runs s) (n : Nat) : ∃ b t, renderFrame n s = .ok (b, t) ∧ b.length = n := by
  obtain ⟨u, hu, hr⟩ := drain_ok h
  obtain ⟨b, e, hb⟩ := renderSamples_ok (table := u.params.algTable) n hr.1.2 hr.2.2.2.2.2
  exact ⟨b, _, by simp only [renderFrame, hu, e]; rfl, hb⟩

end Sys2Proof.Machine
end

