-- ==== Sys2Proof/Laws/Pipeline.lean ====
section
/-! SUPPORT. The frame pipeline (45_pipeline.md): NEXT_SAMPLE takes the samples that are pending one by one, in
order, and is silent when none is (R265 to R268). -/

namespace Sys2Proof.Machine

/-- The part of CUR that is not emitted yet. -/
def curRest (c : Option CurBuffer) : List Num32 :=
  match c with
  | none => []
  | some c => c.buf.drop c.rd

theorem pendingSamples_eq (s : State) : pendingSamples s = curRest s.cur ++ s.outq.flatten := rfl

theorem curRest_of_some {c : Option CurBuffer} {x : Num32} (h : curSample c = some x) :
    curRest c = x :: curRest (curAdvance c) := by
  cases c with
  | none => cases h
  | some c =>
    simp only [curSample] at h
    obtain ⟨hlt, rfl⟩ := List.getElem?_eq_some_iff.mp h
    exact List.drop_eq_getElem_cons hlt

theorem curRest_of_none {c : Option CurBuffer} (h : curSample c = none) : curRest c = [] := by
  cases c with
  | none => rfl
  | some c =>
    simp only [curSample, List.getElem?_eq_none_iff] at h
    exact List.drop_eq_nil_of_le h

/-- The refill (R265): the first sample of the queued frames, if there is one, and all that follow it. -/
theorem refill_cases (q : List Frame) (cur : Option CurBuffer) :
    (q.flatten = [] ∧ (refill q cur).1 = none ∧ (refill q cur).2.1 = [] ∧
      ((q = [] ∧ (refill q cur).2.2 = cur) ∨ (q ≠ [] ∧ (refill q cur).2.2 = some { buf := [], rd := 0 }))) ∨
    (∃ x b q', q.flatten = x :: (b ++ q'.flatten) ∧ refill q cur = (some x, q', some { buf := x :: b, rd := 1 }) ∧
      q'.length < q.length ∧ (x :: b) ∈ q ∧ ∀ f ∈ q', f ∈ q) := by
  induction q generalizing cur with
  | nil => exact .inl ⟨rfl, rfl, rfl, .inl ⟨rfl, rfl⟩⟩
  | cons f q ih =>
    cases f with
    | nil =>
      rcases ih (some { buf := [], rd := 0 }) with ⟨h1, h2, h3, h4⟩ | ⟨x, b, q', h1, h2, h3, h4, h5⟩
      · refine .inl ⟨by simpa using h1, h2, h3, .inr ⟨by simp, ?_⟩⟩
        rcases h4 with ⟨-, h⟩ | ⟨-, h⟩ <;> exact h
      · exact .inr ⟨x, b, q', by simpa using h1, h2, by simp; omega, List.mem_cons_of_mem _ h4,
          fun f hf => List.mem_cons_of_mem _ (h5 f hf)⟩
    | cons x b => exact .inr ⟨x, b, q, rfl, rfl, by simp, List.mem_cons_self, fun f hf => List.mem_cons_of_mem _ hf⟩

/-- NEXT_SAMPLE (R265): the first pending sample, or silence and one event. Only CUR, OUTQ and LOG are written. -/
theorem nextSample_cases (s : State) :
    (∃ x ys, pendingSamples s = x :: ys ∧ (nextSample s).1 = x ∧ pendingSamples (nextSample s).2 = ys ∧
      (nextSample s).2 = { s with cur := (nextSample s).2.cur, outq := (nextSample s).2.outq }) ∨
    (pendingSamples s = [] ∧ (nextSample s).1 = F32.posZero ∧ pendingSamples (nextSample s).2 = [] ∧
      (nextSample s).2.outq = [] ∧
      ((s.cur = none ∧ s.outq = [] ∧ (nextSample s).2 = logStatus .starved s) ∨
       ((s.cur ≠ none ∨ s.outq ≠ []) ∧ (nextSample s).2.cur ≠ none ∧
        (nextSample s).2 = logStatus .noNextFrame { s with cur := (nextSample s).2.cur, outq := [] }))) := by
  cases hc : curSample s.cur with
  | some x =>
    left
    refine ⟨x, curRest (curAdvance s.cur) ++ s.outq.flatten, ?_, ?_, ?_, ?_⟩
    · rw [pendingSamples_eq, curRest_of_some hc]; rfl
    · simp [nextSample, hc]
    · simp [nextSample, hc, pendingSamples_eq]
    · simp [nextSample, hc]
  | none =>
    rcases refill_cases s.outq s.cur with ⟨h1, h2, h3, h4⟩ | ⟨x, b, q', h1, h2, -⟩
    · right
      have hr : refill s.outq s.cur = (none, [], (refill s.outq s.cur).2.2) := by rw [← h2, ← h3]
      have hn : nextSample s = (F32.posZero, logStatus (underrunStatus (refill s.outq s.cur).2.2)
          { s with outq := [], cur := (refill s.outq s.cur).2.2 }) := by
        simp only [nextSample, hc]
        rw [hr]
      have hrest : curRest (refill s.outq s.cur).2.2 = [] := by
        rcases h4 with ⟨-, h⟩ | ⟨-, h⟩ <;> rw [h]
        · exact curRest_of_none hc
        · rfl
      refine ⟨by rw [pendingSamples_eq, curRest_of_none hc, h1]; rfl, by rw [hn], ?_, by rw [hn]; rfl, ?_⟩
      · rw [hn, pendingSamples_eq]; simpa using hrest
      · rw [hn]
        rcases h4 with ⟨hq, h⟩ | ⟨hq, h⟩ <;> rw [h]
        · cases hcur : s.cur with
          | none =>
            refine .inl ⟨rfl, hq, ?_⟩
            obtain ⟨p, e, st, fa, lo, re, cq, oq, cu, sp, rs, tp, inp⟩ := s
            simp only at hq hcur
            subst hq; subst hcur; rfl
          | some c => exact .inr ⟨.inl (by simp), by simp, rfl⟩
        · exact .inr ⟨.inr hq, by simp, rfl⟩
    · left
      refine ⟨x, b ++ q'.flatten, by rw [pendingSamples_eq, curRest_of_none hc, h1]; rfl, ?_, ?_, ?_⟩
      · simp [nextSample, hc, h2]
      · simp [nextSample, hc, h2, pendingSamples_eq, curRest]
      · simp [nextSample, hc, h2]

/-- Everything NEXT_SAMPLE leaves alone. -/
theorem nextSample_frame (s : State) :
    (nextSample s).2 = { s with cur := (nextSample s).2.cur, outq := (nextSample s).2.outq, log := (nextSample s).2.log } := by
  rcases nextSample_cases s with ⟨x, ys, -, -, -, h⟩ | ⟨-, -, -, ho, h⟩
  · rw [h]
  · rcases h with ⟨hc, hq, h⟩ | ⟨-, -, h⟩
    · rw [h]
      obtain ⟨p, e, st, fa, lo, re, cq, oq, cu, sp, rs, tp, inp⟩ := s
      rfl
    · rw [h]; rfl

theorem pullSamples_succ (n : Nat) (s : State) :
    pullSamples (n + 1) s =
      ((nextSample s).1 :: (pullSamples n (nextSample s).2).1, (pullSamples n (nextSample s).2).2) := rfl

/-- Everything CALLBACK_PULL's slots leave alone (R264). -/
theorem pullSamples_frame (n : Nat) (s : State) :
    (pullSamples n s).2 = { s with cur := (pullSamples n s).2.cur, outq := (pullSamples n s).2.outq, log := (pullSamples n s).2.log } := by
  induction n generalizing s with
  | zero => rfl
  | succ n ih =>
    rw [pullSamples_succ]
    simp only
    have h := ih (nextSample s).2
    rw [nextSample_frame s] at h
    generalize hu : pullSamples n (nextSample s).2 = r at h ⊢
    rw [nextSample_frame s] at hu
    rw [hu] at h
    rw [h]

/-- Once a buffer has been loaded, CUR holds one for good (R35, R265). -/
theorem nextSample_loaded {s : State} (h : s.cur ≠ none) : (nextSample s).2.cur ≠ none := by
  cases hc : curSample s.cur with
  | some x =>
    simp only [nextSample, hc]
    cases hcur : s.cur with
    | none => exact absurd hcur h
    | some c => simp [curAdvance]
  | none =>
    rcases refill_cases s.outq s.cur with ⟨-, h2, h3, h4⟩ | ⟨x, b, q', -, h2, -⟩
    · have hr : refill s.outq s.cur = (none, [], (refill s.outq s.cur).2.2) := by rw [← h2, ← h3]
      have hn : (nextSample s).2.cur = (refill s.outq s.cur).2.2 := by
        simp only [nextSample, hc]
        rw [hr]
        rfl
      rw [hn]
      rcases h4 with ⟨-, h4⟩ | ⟨-, h4⟩ <;> rw [h4]
      · exact h
      · simp
    · simp [nextSample, hc, h2]

theorem pullSamples_loaded (n : Nat) {s : State} (h : s.cur ≠ none) : (pullSamples n s).2.cur ≠ none := by
  induction n generalizing s with
  | zero => exact h
  | succ n ih => rw [pullSamples_succ]; exact ih (nextSample_loaded h)

@[simp] theorem pullSamples_length (n : Nat) (s : State) : (pullSamples n s).1.length = n := by
  induction n generalizing s with
  | zero => rfl
  | succ n ih => rw [pullSamples_succ, List.length_cons, ih]

/-- CALLBACK_PULL emits the pending samples in order, each once, then silence (R267, R268). -/
theorem pullSamples_pending (n : Nat) (s : State) :
    (pullSamples n s).1 = (pendingSamples s).take n ++ List.replicate (n - (pendingSamples s).length) F32.posZero ∧
      pendingSamples (pullSamples n s).2 = (pendingSamples s).drop n := by
  induction n generalizing s with
  | zero => simp [pullSamples]
  | succ n ih =>
    obtain ⟨h1, h2⟩ := ih (nextSample s).2
    rw [pullSamples_succ]
    rcases nextSample_cases s with ⟨x, ys, hp, hx, ht, -⟩ | ⟨hp, hx, ht, -⟩
    · rw [ht] at h1 h2
      rw [hp]
      exact ⟨by simp [h1, hx], by simp [h2]⟩
    · rw [ht] at h1 h2
      rw [hp]
      refine ⟨?_, by simp [h2]⟩
      simp [h1, hx, List.replicate_succ]

/-- Each silent slot logs exactly one event, and nothing else is logged (R265, R285, R286). -/
theorem pullSamples_log (n : Nat) (s : State) :
    ∃ es : List StatusCode, (pullSamples n s).2.log = s.log ++ es.map Event.status ∧
      es.length = n - (pendingSamples s).length := by
  induction n generalizing s with
  | zero => exact ⟨[], by simp [pullSamples]⟩
  | succ n ih =>
    obtain ⟨es, he, hl⟩ := ih (nextSample s).2
    rw [pullSamples_succ]
    rcases nextSample_cases s with ⟨x, ys, hp, -, ht, hf⟩ | ⟨hp, -, ht, -, hf⟩
    · have hlog : (nextSample s).2.log = s.log := by rw [hf]
      rw [ht] at hl
      exact ⟨es, by rw [he, hlog], by rw [hp, hl]; simp⟩
    · rw [ht] at hl
      have : ∃ c, (nextSample s).2.log = s.log ++ [.status c] := by
        rcases hf with ⟨-, -, hf⟩ | ⟨-, -, hf⟩ <;> rw [hf] <;> exact ⟨_, rfl⟩
      obtain ⟨c, hc⟩ := this
      exact ⟨c :: es, by rw [he, hc]; simp, by rw [hp]; simp [hl]⟩

/-! ## What NEXT_SAMPLE keeps of the pipeline -/

/-- The pipeline invariant of a part of the state: at most OUTQ_CAP frames of `n` samples each. -/
def QueueInv (n : Nat) (q : List Frame) (c : Option CurBuffer) : Prop :=
  q.length ≤ Config.outqCap ∧ (∀ b ∈ q, b.length = n) ∧ ∀ b, c = some b → b.rd ≤ b.buf.length ∧ b.buf.length = n

theorem nextSample_queue {n : Nat} {s : State} (h : QueueInv n s.outq s.cur) :
    QueueInv n (nextSample s).2.outq (nextSample s).2.cur := by
  obtain ⟨h1, h2, h3⟩ := h
  cases hc : curSample s.cur with
  | some x =>
    cases hcur : s.cur with
    | none => rw [hcur] at hc; cases hc
    | some c =>
      have hlt : c.rd < c.buf.length := by
        rw [hcur] at hc
        exact (List.getElem?_eq_some_iff.mp hc).1
      rw [hcur] at hc
      simp only [nextSample, hcur, hc, curAdvance]
      refine ⟨h1, h2, ?_⟩
      rintro b ⟨⟩
      exact ⟨hlt, (h3 c hcur).2⟩
  | none =>
    rcases refill_cases s.outq s.cur with ⟨e1, e2, e3, e4⟩ | ⟨x, b, q', e1, e2, e3, e4, e5⟩
    · have hr : refill s.outq s.cur = (none, [], (refill s.outq s.cur).2.2) := by rw [← e2, ← e3]
      have hn : (nextSample s).2.outq = [] ∧ (nextSample s).2.cur = (refill s.outq s.cur).2.2 := by
        simp only [nextSample, hc]
        rw [hr]
        exact ⟨rfl, rfl⟩
      rw [hn.1, hn.2]
      refine ⟨by simp, by simp, ?_⟩
      rcases e4 with ⟨-, h⟩ | ⟨hq, h⟩ <;> rw [h]
      · exact h3
      · rintro b ⟨⟩
        obtain ⟨f, q, hfq⟩ := List.exists_cons_of_ne_nil hq
        have hf : f = [] := by rw [hfq] at e1; simp at e1; exact e1.1
        have := h2 f (by rw [hfq]; exact List.mem_cons_self)
        rw [hf] at this
        exact ⟨le_rfl, this⟩
    · simp only [nextSample, hc, e2]
      refine ⟨by omega, fun f hf => h2 f (e5 f hf), ?_⟩
      rintro c ⟨⟩
      have := h2 _ e4
      exact ⟨by simp, this⟩

theorem pullSamples_queue {n : Nat} (k : Nat) {s : State} (h : QueueInv n s.outq s.cur) :
    QueueInv n (pullSamples k s).2.outq (pullSamples k s).2.cur := by
  induction k generalizing s with
  | zero => exact h
  | succ k ih => rw [pullSamples_succ]; exact ih (nextSample_queue h)

theorem pipelineInv_iff (s : State) : PipelineInv s ↔ QueueInv (samplesPerFrame s.engine.fs) s.outq s.cur := Iff.rfl

end Sys2Proof.Machine
end

