-- ==== Sys2Proof/Laws/Noninterference.lean ====
section
/-! SUPPORT. What cannot influence what: the faults and events of the past influence nothing (60_exceptions.md R287),
and a frame is a function of the parameters, SoundEngineData and the queued words (44_engine.md R241). -/

namespace Sys2Proof.Machine

/-! ## The past (R287) -/

theorem withPast_raiseFault (f : BitVec 8) (l : List Event) (r : FaultRecord) (s : State) :
    raiseFault r (withPast f l s) = withPast f l (raiseFault r s) := by
  simp [raiseFault, withPast, BitVec.or_assoc]

theorem withPast_logStatus (f : BitVec 8) (l : List Event) (c : StatusCode) (s : State) :
    logStatus c (withPast f l s) = withPast f l (logStatus c s) := by
  simp [logStatus, withPast]

/-- An operation that answers a state commutes with a change of the past. -/
abbrev PastFree (op : State → Except Refusal State) : Prop :=
  ∀ f l s, op (withPast f l s) = (op s).map (withPast f l)

theorem startNote_past (w : Word) (note inst ch : Byte) (a : ActiveState) : PastFree (startNote w note inst ch a) := by
  intro f l s
  unfold startNote
  simp only [show (withPast f l s).params = s.params from rfl, show (withPast f l s).engine = s.engine from rfl,
    show instrumentAt (withPast f l s) inst.toNat = instrumentAt s inst.toNat from rfl]
  split
  · simp [Except.map, withPast_raiseFault]
  · split
    · simp [Except.map, withPast_raiseFault]
    · split <;> rfl

theorem releaseKey_past (w : Word) (ch : Byte) (f : BitVec 8) (l : List Event) (s : State) :
    releaseKey w ch (withPast f l s) = withPast f l (releaseKey w ch s) := by
  unfold releaseKey
  simp only [show (withPast f l s).params = s.params from rfl, show (withPast f l s).engine = s.engine from rfl]
  split
  · exact withPast_raiseFault _ _ _ _
  · split <;> rfl

theorem changeRom_past (w : Word) (slot : BitVec 24) (f : BitVec 8) (l : List Event) (s : State) :
    changeRom w slot (withPast f l s) = withPast f l (changeRom w slot s) := by
  unfold changeRom
  simp only [show (withPast f l s).params = s.params from rfl, show (withPast f l s).engine = s.engine from rfl]
  split
  · exact withPast_raiseFault _ _ _ _
  · split
    · exact withPast_raiseFault _ _ _ _
    · rfl

theorem applyWord_past (w : Word) : PastFree (applyWord w) := by
  intro f l s
  unfold applyWord
  split
  · simp [Except.map, withPast_raiseFault]
  · next c _ =>
    cases c with
    | pressed note inst ch => exact startNote_past _ _ _ _ _ f l s
    | released ch => simp [applyCommand, Except.map, releaseKey_past]
    | trigger note inst ch => exact startNote_past _ _ _ _ _ f l s
    | romChanged slot => simp [applyCommand, Except.map, changeRom_past]

theorem applyWords_past (ws : List Word) : PastFree (applyWords ws) := by
  induction ws with
  | nil => intro f l s; rfl
  | cons w ws ih =>
    intro f l s
    simp only [applyWords, applyWord_past w f l s]
    cases applyWord w s with
    | error r => rfl
    | ok t => exact ih f l t

theorem drain_past : PastFree drain := by
  intro f l s
  rw [drain_eq, drain_eq]
  exact applyWords_past _ f l { s with cmdq := [] }

theorem renderFrame_past (n : Nat) (f : BitVec 8) (l : List Event) (s : State) :
    renderFrame n (withPast f l s) = (renderFrame n s).map (fun bt => (bt.1, withPast f l bt.2)) := by
  unfold renderFrame
  rw [drain_past]
  cases drain s with
  | error r => rfl
  | ok t =>
    simp only [Except.map, show (withPast f l t).params = t.params from rfl, show (withPast f l t).engine = t.engine from rfl]
    cases renderSamples t.params.algTable n t.engine.ch with
    | error r => rfl
    | ok b => rfl

theorem producerStep_past (f : BitVec 8) (l : List Event) (s : State) :
    producerStep (withPast f l s) = (producerStep s).map (fun tr => (withPast f l tr.1, tr.2)) := by
  unfold producerStep
  rw [show (withPast f l s).stop = s.stop from rfl, show (withPast f l s).outq = s.outq from rfl,
    show (withPast f l s).engine = s.engine from rfl, renderFrame_past]
  split
  · rfl
  · split
    · rfl
    · cases renderFrame (samplesPerFrame s.engine.fs) s <;> rfl

theorem restore_past (d : SoundEngineData) : PastFree (restore d) := by
  intro f l s
  unfold restore
  rw [show restoreOk d (withPast f l s) = restoreOk d s from rfl]
  split <;> rfl

theorem nextSample_past (f : BitVec 8) (l : List Event) (s : State) :
    nextSample (withPast f l s) = ((nextSample s).1, withPast f l (nextSample s).2) := by
  unfold nextSample
  rw [show (withPast f l s).cur = s.cur from rfl, show (withPast f l s).outq = s.outq from rfl]
  split
  · rfl
  · split
    · rfl
    · next q c _ =>
      exact congrArg _ (withPast_logStatus f l (underrunStatus c) { s with outq := q, cur := c })

theorem pullSamples_past (n : Nat) (f : BitVec 8) (l : List Event) (s : State) :
    pullSamples n (withPast f l s) = ((pullSamples n s).1, withPast f l (pullSamples n s).2) := by
  induction n generalizing s with
  | zero => rfl
  | succ n ih => rw [pullSamples_succ, pullSamples_succ, nextSample_past, ih]

/-- `answer` under a change of the past. -/
theorem answer_past {α : Type} {r : Except Refusal α} {k : α → State} {k' : α → State} (p : State → State)
    (h : ∀ a, k' a = p (k a)) : answer r k' = mapNext p (answer r k) := by
  cases r with
  | ok a => simp [answer, mapNext, h]
  | error e => rfl

theorem answer_map {α β : Type} (r : Except Refusal α) (g : α → β) (k : β → State) :
    answer (r.map g) k = answer r (fun a => k (g a)) := by
  cases r <;> rfl

/-- No operation reads FAULT or LOG (R287). -/
theorem exec_past (i : Instr) (f : BitVec 8) (l : List Event) (s : State) :
    exec i (withPast f l s) = mapNext (withPast f l) (exec i s) := by
  cases i with
  | pianoKeyPressed note inst ch =>
    simp only [exec, execPianoKeyPressed, startNote_past _ _ _ _ _ f l s, answer_map]
    exact answer_past _ (fun _ => rfl)
  | pianoKeyReleased ch => simp only [exec, execPianoKeyReleased, releaseKey_past]; rfl
  | triggerNote note inst ch =>
    simp only [exec, execTriggerNote, startNote_past _ _ _ _ _ f l s, answer_map]
    exact answer_past _ (fun _ => rfl)
  | soundRomInstanceChanged slot => simp only [exec, execSoundRomInstanceChanged, changeRom_past]; rfl
  | renderFrame n =>
    simp only [exec, execRenderFrame, renderFrame_past, answer_map]
    exact answer_past _ (fun _ => rfl)
  | snapshot => rfl
  | restore =>
    simp only [exec, execRestore, show (withPast f l s).savePort = s.savePort from rfl, restore_past _ f l s, answer_map]
    exact answer_past _ (fun _ => rfl)
  | producerStep =>
    simp only [exec, execProducerStep, producerStep_past, answer_map]
    exact answer_past _ (fun _ => rfl)
  | callbackPull n => simp only [exec, execCallbackPull, pullSamples_past]; rfl
  | stop => rfl
  | enqueue w => rfl
  | setFrequency r hz => exact answer_past _ (fun _ => rfl)
  | wrap x len => exact answer_past _ (fun _ => rfl)
  | oscTick r => exact answer_past _ (fun _ => rfl)
  | lerp t q => exact answer_past _ (fun _ => rfl)
  | voiceTick c => exact answer_past _ (fun _ => rfl)
  | fmTick c => exact answer_past _ (fun _ => rfl)
  | envBuild d fs => rfl
  | envTick r a => exact answer_past _ (fun _ => rfl)
  | romValidate rom slot =>
    simp only [exec, execRomValidate, show (withPast f l s).params = s.params from rfl,
      show (withPast f l s).engine = s.engine from rfl]
    split
    · simp only [withPast_raiseFault]; rfl
    · rfl
  | voiceNew entry note a => exact answer_past _ (fun _ => rfl)
  | drain =>
    simp only [exec, execDrain, drain_past f l s, answer_map]
    exact answer_past _ (fun _ => rfl)
  | mixTick => exact answer_past _ (fun _ => rfl)
  | nextSample => simp only [exec, execNextSample, nextSample_past]; rfl

/-! ## What a frame depends on (R241) -/

/-- Two states with the same parameters, SoundEngineData and queued words. -/
def SameEngine (s t : State) : Prop := s.params = t.params ∧ s.engine = t.engine ∧ s.cmdq = t.cmdq

/-- Two answers that agree as far as the engine goes. -/
def SameAnswer (a b : Except Refusal State) : Prop :=
  match a, b with
  | .ok s, .ok t => SameEngine s t
  | .error r, .error r' => r = r'
  | _, _ => False

theorem startNote_same {s t : State} (h : SameEngine s t) (w : Word) (note inst ch : Byte) (a : ActiveState) :
    SameAnswer (startNote w note inst ch a s) (startNote w note inst ch a t) := by
  obtain ⟨hp, he, hq⟩ := h
  unfold startNote
  rw [show instrumentAt s inst.toNat = instrumentAt t inst.toNat by simp [instrumentAt, hp, he], hp, he]
  split
  · exact ⟨hp, he, hq⟩
  · split
    · exact ⟨hp, he, hq⟩
    · split
      · rfl
      · exact ⟨rfl, rfl, hq⟩

theorem applyWord_same {s t : State} (h : SameEngine s t) (w : Word) : SameAnswer (applyWord w s) (applyWord w t) := by
  obtain ⟨hp, he, hq⟩ := id h
  unfold applyWord
  split
  · exact ⟨hp, he, hq⟩
  · next c _ =>
    cases c with
    | pressed note inst ch => exact startNote_same h _ _ _ _ _
    | released ch =>
      simp only [applyCommand, releaseKey, hp, he]
      split
      · exact ⟨hp, he, hq⟩
      · split
        · exact ⟨hp, he, hq⟩
        · exact ⟨rfl, rfl, hq⟩
    | trigger note inst ch => exact startNote_same h _ _ _ _ _
    | romChanged slot =>
      simp only [applyCommand, changeRom, hp, he]
      split
      · exact ⟨hp, he, hq⟩
      · split
        · exact ⟨hp, he, hq⟩
        · exact ⟨rfl, rfl, hq⟩

theorem applyWords_same (ws : List Word) {s t : State} (h : SameEngine s t) :
    SameAnswer (applyWords ws s) (applyWords ws t) := by
  induction ws generalizing s t with
  | nil => exact h
  | cons w ws ih =>
    have hw := applyWord_same h w
    simp only [applyWords]
    cases hs : applyWord w s with
    | error r =>
      cases ht : applyWord w t with
      | error r' => rw [hs, ht] at hw; exact hw
      | ok t' => rw [hs, ht] at hw; exact hw.elim
    | ok s' =>
      cases ht : applyWord w t with
      | error r' => rw [hs, ht] at hw; exact hw.elim
      | ok t' => rw [hs, ht] at hw; exact ih hw

theorem drain_same {s t : State} (h : SameEngine s t) : SameAnswer (drain s) (drain t) := by
  rw [drain_eq, drain_eq, h.2.2]
  exact applyWords_same _ ⟨h.1, h.2.1, rfl⟩

/-- Two frames from states that agree as far as the engine goes (R241): the same refusal, or the same samples and
states that agree again. -/
theorem renderFrame_same {s t : State} (h : SameEngine s t) (n : Nat) :
    (∃ r, renderFrame n s = .error r ∧ renderFrame n t = .error r) ∨
    (∃ b s' t', renderFrame n s = .ok (b, s') ∧ renderFrame n t = .ok (b, t') ∧ SameEngine s' t') := by
  have hd := drain_same h
  unfold renderFrame
  cases hs : drain s with
  | error r =>
    cases ht : drain t with
    | error r' => rw [hs, ht] at hd; exact .inl ⟨r, rfl, by rw [show r = r' from hd]⟩
    | ok t' => rw [hs, ht] at hd; exact hd.elim
  | ok s' =>
    cases ht : drain t with
    | error r' => rw [hs, ht] at hd; exact hd.elim
    | ok t' =>
      rw [hs, ht] at hd
      obtain ⟨hp, he, hq⟩ := hd
      simp only [hp, he]
      cases hr : renderSamples t'.params.algTable n t'.engine.ch with
      | error r => exact .inl ⟨r, rfl, rfl⟩
      | ok b => exact .inr ⟨b.1, _, _, rfl, rfl, rfl, rfl, hq⟩

end Sys2Proof.Machine
end

