-- ==== Sys2Proof/Laws/Keeps.lean ====
section
/-! SUPPORT. The micro-operations a test drives on a voice in place keep every voice legal. -/

namespace Sys2Proof.Machine

theorem quadGet_legal {v : FMVoice} (h : FMVoiceLegal v) (i : Fin 4) : OperatorLegal (quadGet v.op i) := by
  obtain ⟨h0, h1, h2, h3⟩ := h
  fin_cases i <;> assumption

theorem quadSet_legal {v : FMVoice} (h : FMVoiceLegal v) (i : Fin 4) {p : FMOperator} (hp : OperatorLegal p) :
    FMVoiceLegal { v with op := quadSet v.op i p } := by
  obtain ⟨h0, h1, h2, h3⟩ := h
  fin_cases i
  · exact ⟨hp, h1, h2, h3⟩
  · exact ⟨h0, hp, h2, h3⟩
  · exact ⟨h0, h1, hp, h3⟩
  · exact ⟨h0, h1, h2, hp⟩

theorem wt_legal {d : SoundEngineData} (h : EngineLegal d) {c : Nat} {v : WaveVoice} (hc : channelAt d c = some (.wt v)) :
    WaveVoiceLegal v := h.2 _ (mem_of_channelAt hc)

theorem fm_legal {d : SoundEngineData} (h : EngineLegal d) {c : Nat} {v : FMVoice} (hc : channelAt d c = some (.fm v)) :
    FMVoiceLegal v := h.2 _ (mem_of_channelAt hc)

theorem oscOf_legal {r : UnitRef} {d : SoundEngineData} (h : EngineLegal d) {o : Osc} (ho : oscOf r d = some o) :
    OscLegal o := by
  unfold oscOf at ho
  split at ho
  · next v hc _ => cases ho; exact (wt_legal h hc).1
  · next v i hc _ => cases ho; exact (quadGet_legal (fm_legal h hc) i).1
  · cases ho

theorem engineLegal_setOsc {r : UnitRef} {d : SoundEngineData} (h : EngineLegal d) {o o' : Osc}
    (ho : oscOf r d = some o) (hl : OscLegal o') (hlen : o'.len = o.len) : EngineLegal (setOsc r o' d) := by
  unfold oscOf at ho
  split at ho
  · next v hc hr =>
    cases ho
    have hv := wt_legal h hc
    simp only [setOsc, hc, hr]
    exact ⟨h.1, forall_setChannel h.2 ⟨hl, hlen.trans hv.2.1, hv.2.2.1, hv.2.2.2⟩⟩
  · next v i hc hr =>
    cases ho
    have hv := fm_legal h hc
    have hi := quadGet_legal hv i
    simp only [setOsc, hc, hr]
    exact ⟨h.1, forall_setChannel h.2 (quadSet_legal hv i ⟨hl, hlen.trans hi.2.1, hi.2.2.1, hi.2.2.2.1, hi.2.2.2.2⟩)⟩
  · cases ho

theorem envOf_legal {r : UnitRef} {d : SoundEngineData} (h : EngineLegal d) {e : Env} (he : envOf r d = some e) :
    EnvLegal e := by
  unfold envOf at he
  split at he
  · next v hc _ => cases he; exact (wt_legal h hc).2.2.2
  · next v i hc _ => cases he; exact (quadGet_legal (fm_legal h hc) i).2.2.2.1
  · cases he

theorem engineLegal_setEnv {r : UnitRef} {d : SoundEngineData} (h : EngineLegal d) {e : Env} (hl : EnvLegal e) :
    EngineLegal (setEnv r e d) := by
  unfold setEnv
  split
  · next v hc hr =>
    have hv := wt_legal h hc
    exact ⟨h.1, forall_setChannel h.2 ⟨hv.1, hv.2.1, hv.2.2.1, hl⟩⟩
  · next v i hc hr =>
    have hv := fm_legal h hc
    have hi := quadGet_legal hv i
    exact ⟨h.1, forall_setChannel h.2 (quadSet_legal hv i ⟨hi.1, hi.2.1, hi.2.2.1, hl, hi.2.2.2.2⟩)⟩
  · exact h

theorem waveVoiceOf_some {c : Byte} {d : SoundEngineData} {v : WaveVoice} (h : waveVoiceOf c d = some v) :
    channelAt d c.toNat = some (.wt v) := by
  unfold waveVoiceOf at h
  split at h
  · next v' hc => cases h; exact hc
  · cases h

theorem fmVoiceOf_some {c : Byte} {d : SoundEngineData} {v : FMVoice} (h : fmVoiceOf c d = some v) :
    channelAt d c.toNat = some (.fm v) := by
  unfold fmVoiceOf at h
  split at h
  · next v' hc => cases h; exact hc
  · cases h

theorem engineLegal_channelsAfter {d : SoundEngineData} (h : EngineLegal d) (n : Nat) :
    EngineLegal { d with ch := channelsAfter n d.ch } :=
  ⟨h.1, channelsAfter_keeps (P := ChannelLegal) (fun _ => channelAfter_legal) n h.2⟩

theorem channelsAfter_one (cs : List Channel) : channelsAfter 1 cs = cs.map channelAfter := rfl

/-- RESTORE, where it takes a value, leaves the ROM binding and FS as they are (R245). -/
theorem restore_cases {d : SoundEngineData} {s t : State} (h : restore d s = .ok t) :
    restoreOk d s = true ∧ t = { s with engine := { s.engine with ch := d.ch } } ∧
      d.ch.length = s.params.numChannels := by
  unfold restore at h
  split at h
  · next hr =>
    cases h
    simp only [restoreOk, Bool.and_eq_true, beq_iff_eq, decide_eq_true_eq] at hr
    obtain ⟨⟨⟨h1, h2⟩, h3⟩, h4⟩ := hr
    refine ⟨by simp [restoreOk, h1, h2, h3, h4], by rw [h2, h3], h4⟩
  · cases h

end Sys2Proof.Machine
end

