-- ==== Sys2Proof/Laws/FaultLog.lean ====
section
/-! SUPPORT. What an operation can do to FAULT and LOG (10_state.md R32, 60_exceptions.md R282, R286, R288): it appends
events, and ORs in the bits of the faults among them. -/

namespace Sys2Proof.Machine

theorem faultBitsOf_append (a b : List Event) : faultBitsOf (a ++ b) = faultBitsOf a ||| faultBitsOf b := by
  induction a with
  | nil => simp [faultBitsOf]
  | cons e a ih => cases e <;> simp [faultBitsOf, ih, BitVec.or_assoc]

/-- The events of `t` are those of `s` and then some, and FAULT accounts for them. -/
def LogStep (s t : State) : Prop := ∃ es, t.log = s.log ++ es ∧ t.fault = s.fault ||| faultBitsOf es

theorem LogStep.refl {s t : State} (h1 : t.log = s.log) (h2 : t.fault = s.fault) : LogStep s t :=
  ⟨[], by simp [h1], by simp [h2, faultBitsOf]⟩

theorem LogStep.trans {s t u : State} (h1 : LogStep s t) (h2 : LogStep t u) : LogStep s u := by
  obtain ⟨es, hl, hf⟩ := h1
  obtain ⟨fs, kl, kf⟩ := h2
  exact ⟨es ++ fs, by rw [kl, hl, List.append_assoc], by rw [kf, hf, faultBitsOf_append, BitVec.or_assoc]⟩

/-- A state that differs elsewhere. -/
theorem LogStep.congr {s t u : State} (h : LogStep s t) (h1 : u.log = t.log) (h2 : u.fault = t.fault) : LogStep s u :=
  h.trans (.refl h1 h2)

theorem logStep_raise (f : FaultRecord) (s : State) : LogStep s (raiseFault f s) :=
  ⟨[.fault f], rfl, by simp [raiseFault, faultBitsOf]⟩

theorem logStep_status (c : StatusCode) (s : State) : LogStep s (logStatus c s) :=
  ⟨[.status c], rfl, by simp [logStatus, faultBitsOf]⟩

theorem ApplyEffect.logStep {s t : State} (h : ApplyEffect s t) : LogStep s t := by
  cases h with
  | fault f h => subst h; exact logStep_raise f s
  | note c n entry note active hc he hf h => subst h; exact .refl rfl rfl
  | release c v hv h => subst h; exact .refl rfl rfl
  | rom slot r hr hf h => subst h; exact .refl rfl rfl
  | nothing h => subst h; exact .refl rfl rfl

theorem drain_logStep {s t : State} (h : drain s = .ok t) : LogStep s t :=
  drain_keeps (P := LogStep s) (fun _ _ h1 h2 => h1.trans h2.logStep) (fun _ h => h.congr rfl rfl) (.refl rfl rfl) h

theorem renderFrame_logStep {n : Nat} {s t : State} {b : Frame} (h : renderFrame n s = .ok (b, t)) : LogStep s t :=
  renderFrame_keeps (P := LogStep s) (fun _ _ h1 h2 => h1.trans h2.logStep) (fun _ h => h.congr rfl rfl)
    (fun _ _ h => h.congr rfl rfl) (.refl rfl rfl) h

theorem nextSample_logStep (s : State) : LogStep s (nextSample s).2 := by
  rcases nextSample_cases s with ⟨x, ys, -, -, -, h⟩ | ⟨-, -, -, -, ⟨-, -, h⟩ | ⟨-, -, h⟩⟩ <;> rw [h]
  · exact .refl rfl rfl
  · exact logStep_status _ _
  · exact ⟨[.status .noNextFrame], rfl, by simp [logStatus, faultBitsOf]⟩

theorem pullSamples_logStep (n : Nat) (s : State) : LogStep s (pullSamples n s).2 := by
  induction n generalizing s with
  | zero => exact .refl rfl rfl
  | succ n ih => rw [pullSamples_succ]; exact (nextSample_logStep s).trans (ih _)

theorem startNote_logStep {w : Word} {note inst ch : Byte} {a : ActiveState} {s t : State}
    (h : startNote w note inst ch a s = .ok t) : LogStep s t := (startNote_effect h).logStep

/-- What PRODUCER_STEP did, by what it returned (R261). -/
theorem producerStep_cases {s t : State} {r : ProducerResult} (h : producerStep s = .ok (t, r)) :
    (s.stop = true ∧ t = s ∧ r = .stopped) ∨ (s.stop = false ∧ Config.outqCap ≤ s.outq.length ∧ t = s ∧ r = .deferred) ∨
    (s.stop = false ∧ s.outq.length < Config.outqCap ∧ r = .produced ∧
      ∃ b u, renderFrame (samplesPerFrame s.engine.fs) s = .ok (b, u) ∧ t = { u with outq := u.outq ++ [b], tap := some b }) := by
  unfold producerStep at h
  split at h
  · next hs => cases h; exact .inl ⟨hs, rfl, rfl⟩
  · next hs =>
    have hs' : s.stop = false := by simpa using hs
    split at h
    · next hq => cases h; exact .inr (.inl ⟨hs', hq, rfl, rfl⟩)
    · next hq =>
      split at h
      · cases h
      · next b u hu => cases h; exact .inr (.inr ⟨hs', by omega, rfl, b, u, hu, rfl⟩)

theorem producerStep_logStep {s t : State} {r : ProducerResult} (h : producerStep s = .ok (t, r)) : LogStep s t := by
  rcases producerStep_cases h with ⟨-, rfl, -⟩ | ⟨-, -, rfl, -⟩ | ⟨-, -, -, b, u, hu, rfl⟩
  · exact .refl rfl rfl
  · exact .refl rfl rfl
  · exact (renderFrame_logStep hu).congr rfl rfl

/-- What an operation that completes did to FAULT and LOG. -/
theorem exec_logStep {i : Instr} {s t : State} (h : exec i s = .next t) : LogStep s t := by
  cases i with
  | pianoKeyPressed note inst ch =>
    obtain ⟨u, hu, rfl⟩ := answer_next h
    exact (startNote_logStep hu).congr rfl rfl
  | pianoKeyReleased ch => cases h; exact (releaseKey_effect _ _ _).logStep.congr rfl rfl
  | triggerNote note inst ch =>
    obtain ⟨u, hu, rfl⟩ := answer_next h
    exact (startNote_logStep hu).congr rfl rfl
  | soundRomInstanceChanged slot => cases h; exact (changeRom_effect _ _ _).logStep.congr rfl rfl
  | renderFrame n =>
    obtain ⟨u, hu, rfl⟩ := answer_next h
    exact (renderFrame_logStep hu).congr rfl rfl
  | snapshot => cases h; exact .refl rfl rfl
  | restore =>
    obtain ⟨u, hu, rfl⟩ := answer_next h
    rw [(restore_cases hu).2.1]
    exact .refl rfl rfl
  | producerStep =>
    obtain ⟨u, hu, rfl⟩ := answer_next h
    exact (producerStep_logStep hu).congr rfl rfl
  | callbackPull n => cases h; exact (pullSamples_logStep _ _).congr rfl rfl
  | stop => cases h; exact .refl rfl rfl
  | enqueue w => cases h; exact .refl rfl rfl
  | setFrequency r hz => obtain ⟨u, hu, rfl⟩ := answer_next h; exact .refl rfl rfl
  | wrap x len => obtain ⟨u, hu, rfl⟩ := answer_next h; exact .refl rfl rfl
  | oscTick r => obtain ⟨u, hu, rfl⟩ := answer_next h; exact .refl rfl rfl
  | lerp t q => obtain ⟨u, hu, rfl⟩ := answer_next h; exact .refl rfl rfl
  | voiceTick c => obtain ⟨u, hu, rfl⟩ := answer_next h; exact .refl rfl rfl
  | fmTick c => obtain ⟨u, hu, rfl⟩ := answer_next h; exact .refl rfl rfl
  | envBuild d fs => cases h; exact .refl rfl rfl
  | envTick r a => obtain ⟨u, hu, rfl⟩ := answer_next h; exact .refl rfl rfl
  | romValidate rom slot =>
    simp only [exec, execRomValidate] at h
    split at h
    · cases h; exact (logStep_raise _ s).congr rfl rfl
    · cases h; exact .refl rfl rfl
  | voiceNew entry note a => obtain ⟨u, hu, rfl⟩ := answer_next h; exact .refl rfl rfl
  | drain =>
    obtain ⟨u, hu, rfl⟩ := answer_next h
    exact (drain_logStep hu).congr rfl rfl
  | mixTick => obtain ⟨u, hu, rfl⟩ := answer_next h; exact .refl rfl rfl
  | nextSample => cases h; exact (nextSample_logStep s).congr rfl rfl

/-- What a step that completes is: nothing, an operation, or a rejected word (R95, R96). -/
theorem step_cases {s t : State} (h : step s = .next t) :
    (s.inputs = [] ∧ t = s) ∨
    ∃ ev rest, s.inputs = ev :: rest ∧
      ((∃ i, resolve ev = .run i ∧ exec i (takeInput ev rest s) = .next t) ∨
       ∃ f, resolve ev = .reject f ∧ t = rejectWord f (takeInput ev rest s)) := by
  unfold step at h
  split at h
  · next hin => cases h; exact .inl ⟨hin, rfl⟩
  · next ev rest hin =>
    refine .inr ⟨ev, rest, hin, ?_⟩
    split at h
    · next i hi => exact .inl ⟨i, hi, h⟩
    · next f hf => cases h; exact .inr ⟨f, hf, rfl⟩
    · cases h

/-- What an observer sees of a step (R290). -/
theorem observe_next {s t : State} (h : step s = .next t) : observe s = t := by simp only [observe, h]

theorem observe_refused {s : State} {r : Refusal} (h : step s = .refused r) : observe s = { s with refused := true } := by
  simp only [observe, h]; rfl

end Sys2Proof.Machine
end

