-- ==== Sys2Proof/Laws/Rational.lean ====
section
/-! SUPPORT. The value of a number as a rational (00_scope.md R9), against its value in units of 2^-149; the checks of
ROM_VALIDATE (43_envelope.md R191) and SPF (R323) in terms of it; each rounding as the nearest value, ties to even
(R8); what min, max, clamp01 and fmod give. -/

namespace Sys2Proof.Machine

theorem toRat_nonneg (x : Num32) : 0 ≤ F32.toRat x ↔ 0 ≤ F32.toInt x := by
  unfold F32.toRat
  rw [div_nonneg_iff]
  constructor
  · rintro (⟨h, -⟩ | ⟨-, h⟩)
    · exact_mod_cast h
    · exact absurd h (by norm_num)
  · intro h; exact .inl ⟨by exact_mod_cast h, by positivity⟩

theorem toRat_le (x y : Num32) : F32.toRat x ≤ F32.toRat y ↔ F32.toInt x ≤ F32.toInt y := by
  unfold F32.toRat
  rw [div_le_div_iff_of_pos_right (by positivity)]
  exact_mod_cast Iff.rfl

theorem toRat_one : F32.toRat F32.one = 1 := by
  unfold F32.toRat; rw [F32.toInt_one]; norm_num
theorem toRat_zero : F32.toRat F32.posZero = 0 := by
  unfold F32.toRat; rw [F32.toInt_posZero]; norm_num

theorem floor_toRat (x : Num32) : ⌊F32.toRat x⌋ = F32.floor x := by
  unfold F32.toRat F32.floor
  have := Rat.floor_intCast_div_natCast (F32.toInt x) (2 ^ 149)
  push_cast at this
  exact this

theorem stageTimeOk_iff (t fs : Num32) : stageTimeOk t fs = true ↔ F32.isFinite t = true ∧ 0 ≤ F32.toRat t ∧
   F32.isFinite (F32.mul t fs) = true ∧ ⌊F32.toRat (F32.mul t fs)⌋ ≤ 2 ^ 32 - 1 := by
  simp only [stageTimeOk, Bool.and_eq_true, Bool.not_eq_true', decide_eq_true_eq, floor_toRat, toRat_nonneg]
  constructor
  · rintro ⟨⟨⟨h1, h2⟩, h3⟩, h4⟩
    refine ⟨h1, ?_, h3, by simpa [Config.nMax] using h4⟩
    have hn := F32.not_isNaN_of_isFinite h1
    rw [Bool.eq_false_iff, Ne, F32.lt_iff hn F32.isNaN_posZero, F32.toInt_posZero] at h2
    omega
  · rintro ⟨h1, h2, h3, h4⟩
    refine ⟨⟨⟨h1, ?_⟩, h3⟩, by simpa [Config.nMax] using h4⟩
    have hn := F32.not_isNaN_of_isFinite h1
    rw [Bool.eq_false_iff, Ne, F32.lt_iff hn F32.isNaN_posZero, F32.toInt_posZero]
    omega

theorem sustainOk_iff (x : Num32) : sustainOk x = true ↔ F32.isFinite x = true ∧ 0 ≤ F32.toRat x ∧ F32.toRat x ≤ 1 := by
  simp only [sustainOk, Bool.and_eq_true]
  rw [← toRat_one, toRat_le, toRat_nonneg, and_assoc]
  constructor
  · rintro ⟨h1, h2, h3⟩
    have hn := F32.not_isNaN_of_isFinite h1
    rw [F32.le_iff F32.isNaN_posZero hn, F32.toInt_posZero] at h2
    rw [F32.le_iff hn F32.isNaN_one] at h3
    exact ⟨h1, h2, h3⟩
  · rintro ⟨h1, h2, h3⟩
    have hn := F32.not_isNaN_of_isFinite h1
    rw [F32.le_iff F32.isNaN_posZero hn, F32.toInt_posZero, F32.le_iff hn F32.isNaN_one]
    exact ⟨h1, h2, h3⟩

theorem envOk_iff (d : EnvelopeDefinition) (fs : Num32) : envOk d fs = true ↔ stageTimeOk d.attackTime fs = true ∧
    stageTimeOk d.decayTime fs = true ∧ stageTimeOk d.releaseTime fs = true ∧ sustainOk d.sustainLevel = true := by
  simp [envOk, and_assoc]

end Sys2Proof.Machine

namespace Sys2Proof.Machine.F32

/-! ## Rounding to nearest, ties to even -/

/-- Of all magnitudes the one `roundMag` answers is the nearest, and the even one of two that are as near (R8). -/
theorem roundMag_nearest_even {n d : Nat} (hd : 0 < d) (hfin : roundMag n d < 0x7F800000) (c : Nat) :
    |((n : ℤ) - magVal (roundMag n d) * d)| < |((n : ℤ) - magVal c * d)| ∨
      (|((n : ℤ) - magVal (roundMag n d) * d)| = |((n : ℤ) - magVal c * d)| ∧ (c = roundMag n d ∨ roundMag n d % 2 = 0)) := by
  obtain ⟨a, r, w, hw, hr, hn, h1, hres⟩ := roundMag_spec n d hd
  have hlow : ∀ {c}, c < a → (magVal c : ℤ) * d < magVal a * d := fun h => by
    exact_mod_cast Nat.mul_lt_mul_of_pos_right (magVal_lt_iff.mpr h) hd
  have hhigh : ∀ {c}, a + 1 < c → (magVal (a + 1) : ℤ) * d < magVal c * d := fun h => by
    exact_mod_cast Nat.mul_lt_mul_of_pos_right (magVal_lt_iff.mpr h) hd
  have hnz : (n : ℤ) = magVal a * d + r := by exact_mod_cast hn
  have h1z : (magVal (a + 1) : ℤ) * d = magVal a * d + w := by exact_mod_cast h1
  have hrz : (r : ℤ) < w := by exact_mod_cast hr
  have hmin : roundMag n d = if 2 * r > w ∨ (2 * r = w ∧ a % 2 = 1) then a + 1 else a := by
    rw [hres] at hfin ⊢
    rcases Nat.le_total (if 2 * r > w ∨ (2 * r = w ∧ a % 2 = 1) then a + 1 else a) 0x7F800000 with hle | hle
    · exact min_eq_left hle
    · rw [min_eq_right hle] at hfin; omega
  have e1 : |((n : ℤ) - magVal a * d)| = r := by rw [hnz, abs_of_nonneg (by omega)]; omega
  have e2 : |((n : ℤ) - magVal (a + 1) * d)| = w - r := by rw [h1z, hnz, abs_of_nonpos (by omega)]; omega
  have e3 : ∀ {c}, c < a → (r : ℤ) < |((n : ℤ) - magVal c * d)| := fun h => by
    have := hlow h
    rw [hnz, abs_of_nonneg (by omega)]; omega
  have e4 : ∀ {c}, a + 1 < c → (w : ℤ) - r < |((n : ℤ) - magVal c * d)| := fun h => by
    have := hhigh h
    rw [hnz, abs_of_nonpos (by omega)]; omega
  have h3 : c < a ∨ c = a ∨ c = a + 1 ∨ a + 1 < c := by omega
  rw [hmin]
  split
  · next hup =>
    rw [e2]
    rcases h3 with h | h | h | h
    · have := e3 h; left; omega
    · subst h; rw [e1]; omega
    · subst h; rw [e2]; omega
    · left; exact e4 h
  · next hup =>
    rw [e1]
    rcases h3 with h | h | h | h
    · left; exact e3 h
    · subst h; rw [e1]; omega
    · subst h; rw [e2]; omega
    · have := e4 h; left; omega

/-- Rounding overflows from half a step above the largest finite magnitude on (R8). -/
theorem roundMag_finite_iff {n d : Nat} (hd : 0 < d) :
    roundMag n d < 0x7F800000 ↔ 2 * n < (magVal 0x7F7FFFFF + magVal 0x7F800000) * d := by
  obtain ⟨a, r, w, hw, hr, hn, h1, hres⟩ := roundMag_spec n d hd
  have hmono : ∀ {x y : Nat}, x ≤ y → magVal x * d ≤ magVal y * d := fun h => Nat.mul_le_mul_right d (magVal_le_iff.mpr h)
  have hstrict : magVal 0x7F7FFFFF * d < magVal 0x7F800000 * d :=
    Nat.mul_lt_mul_of_pos_right (magVal_lt_iff.mpr (by decide)) hd
  rw [hres, Nat.add_mul, min_lt_iff]
  simp only [Nat.lt_irrefl, or_false]
  have h3 : a + 1 < 0x7F800000 ∨ a = 0x7F7FFFFF ∨ 0x7F800000 ≤ a := by omega
  rcases h3 with h | h | h
  · have h4 := hmono (show a + 1 ≤ 0x7F7FFFFF by omega)
    constructor
    · intro _; omega
    · intro _; split <;> omega
  · subst h
    have : magVal 0x7F800000 * d = magVal 0x7F7FFFFF * d + w := h1
    split
    · next hup => constructor <;> intro h5 <;> omega
    · next hup => constructor <;> intro h5 <;> omega
  · have h4 := hmono h
    constructor
    · split <;> intro h5 <;> omega
    · intro h5; omega

theorem bits_of_roundInt {x : Num32} {n : Int} {d : Nat} (h : toInt x = roundInt n d) : bits x = roundMag n.natAbs d := by
  have := natAbs_roundInt n d
  rw [← h, natAbs_toInt] at this
  exact magVal_strictMono.injective this

theorem isFinite_of_roundInt {x : Num32} {n : Int} {d : Nat} (h : toInt x = roundInt n d) (hd : 0 < d) :
    isFinite x = true ↔ 2 * |n| < (magVal 0x7F7FFFFF + magVal 0x7F800000) * d := by
  rw [isFinite_eq, bits_of_roundInt h, decide_eq_true_iff, roundMag_finite_iff hd, ← Int.natCast_natAbs]
  exact_mod_cast Iff.rfl

theorem lsb_iff (x : Num32) : x.getLsbD 0 = false ↔ bits x % 2 = 0 := by
  have h1 : bits x % 2 = x.toNat % 2 := by unfold bits; omega
  rw [h1, BitVec.getLsbD, Nat.testBit_zero]
  simp

theorem roundInt_nearest_even {x c : Num32} {n : Int} {d : Nat} (h : toInt x = roundInt n d) (hd : 0 < d) (hf : isFinite x = true) :
    |toInt x * d - n| < |toInt c * d - n| ∨
      (|toInt x * d - n| = |toInt c * d - n| ∧ (toInt x = toInt c ∨ x.getLsbD 0 = false)) := by
  have hb := bits_of_roundInt h
  have hfin : roundMag n.natAbs d < 0x7F800000 := by rw [← hb]; rw [isFinite_eq, decide_eq_true_iff] at hf; exact hf
  have key := roundMag_nearest_even hd hfin
  rw [lsb_iff, hb]
  have hx : |toInt x * d - n| = |((n.natAbs : Int) - magVal (roundMag n.natAbs d) * d)| := by
    rw [h, roundInt]
    split
    · next hn => rw [Int.ofNat_natAbs_of_nonpos hn.le]; congr 1; ring
    · next hn => rw [Int.natAbs_of_nonneg (by omega), abs_sub_comm]
  have hsame : ∀ y : Num32, (if n < 0 then toInt y ≤ 0 else 0 ≤ toInt y) →
      |toInt y * d - n| = |((n.natAbs : Int) - magVal (bits y) * d)| := by
    intro y hy
    have hm : (magVal (bits y) : Int) = |toInt y| := by rw [← natAbs_toInt, Int.natCast_natAbs]
    rw [hm]
    split at hy
    · next hn => rw [abs_of_nonpos hy, Int.ofNat_natAbs_of_nonpos hn.le]; congr 1; ring
    · next hn => rw [abs_of_nonneg hy, Int.natAbs_of_nonneg (by omega), abs_sub_comm]
  by_cases hc : (if n < 0 then toInt c ≤ 0 else 0 ≤ toInt c)
  · rw [hx, hsame c hc]
    rcases key (bits c) with h1 | ⟨h1, h2 | h2⟩
    · exact .inl h1
    · refine .inr ⟨h1, .inl ?_⟩
      have hxs : (if n < 0 then toInt x ≤ 0 else 0 ≤ toInt x) := by
        rw [h, roundInt]; split <;> simp [*]
      have hmx : |toInt x| = |toInt c| := by
        rw [← Int.natCast_natAbs, ← Int.natCast_natAbs, natAbs_toInt, natAbs_toInt, hb, h2]
      split at hxs
      · next hn => rw [if_pos hn] at hc; rw [abs_of_nonpos hxs, abs_of_nonpos hc] at hmx; omega
      · next hn => rw [if_neg hn] at hc; rw [abs_of_nonneg hxs, abs_of_nonneg hc] at hmx; omega
    · exact .inr ⟨h1, .inr h2⟩
  · left
    rw [hx]
    have h0 : |((n.natAbs : Int) - magVal (roundMag n.natAbs d) * d)| ≤ |n| := by
      have := key 0
      rw [magVal_zero] at this
      simp only [Nat.cast_zero, zero_mul, sub_zero] at this
      rw [abs_of_nonneg (a := ((n.natAbs : Nat) : Int)) (by positivity), Int.natCast_natAbs] at this
      rcases this with h | h <;> simp only [Int.natCast_natAbs] at * <;> omega
    refine h0.trans_lt ?_
    have hdz : (0 : Int) < d := by exact_mod_cast hd
    split at hc
    · next hn =>
      have : 0 < toInt c * d := mul_pos (by omega) hdz
      rw [abs_of_neg hn, abs_of_pos (by omega)]; omega
    · next hn =>
      have : toInt c * d < 0 := mul_neg_of_neg_of_pos (by omega) hdz
      rw [abs_of_nonneg (by omega), abs_of_neg (by omega)]; omega

/-- One rounding, in rationals: nearest, ties to even, finite exactly below the overflow threshold (R8). -/
theorem rounds_of_roundInt {x : Num32} {n : Int} {d : Nat} (h : toInt x = roundInt n d) (hd : 0 < d) {e : ℚ}
    (he : e * (d * 2 ^ 149) = n) :
    (isFinite x = true ↔ |e| < 2 ^ 128 - 2 ^ 103) ∧
      (isFinite x = true → ∀ c : Num32, |toRat x - e| < |toRat c - e| ∨
        (|toRat x - e| = |toRat c - e| ∧ (toRat x = toRat c ∨ x.getLsbD 0 = false))) := by
  have hQ : (0 : ℚ) < 2 ^ 149 := by positivity
  have hdq : (0 : ℚ) < d := by exact_mod_cast hd
  have hval : ∀ y : Num32, |toRat y - e| * (d * 2 ^ 149) = ((|toInt y * d - n| : Int) : ℚ) := by
    intro y
    have hp : (0 : ℚ) < d * 2 ^ 149 := by positivity
    have h1 : (toRat y - e) * (d * 2 ^ 149) = ((toInt y * d - n : Int) : ℚ) := by
      rw [sub_mul, he]
      unfold toRat
      simp only [Int.cast_sub, Int.cast_mul, Int.cast_natCast]
      field_simp
    calc |toRat y - e| * (d * 2 ^ 149) = |toRat y - e| * |(d : ℚ) * 2 ^ 149| := by rw [abs_of_pos hp]
      _ = |(toRat y - e) * (d * 2 ^ 149)| := (abs_mul _ _).symm
      _ = _ := by rw [h1, Int.cast_abs]
  constructor
  · rw [isFinite_of_roundInt h hd]
    have hinf : (magVal 0x7F800000 : ℚ) = 2 ^ 128 * 2 ^ 149 := by
      have := infMag_eq
      rw [infMag] at this
      rw [this, Nat.cast_pow, Nat.cast_ofNat, ← pow_add]
    have hmax : (magVal 0x7F7FFFFF : ℚ) = 2 ^ 128 * 2 ^ 149 - 2 ^ 104 * 2 ^ 149 := by
      have := magVal_succ 0x7F7FFFFF
      have h2 : (magVal 0x7F7FFFFF : ℚ) + 2 ^ 104 * 2 ^ 149 = magVal 0x7F800000 := by
        rw [← this, Nat.cast_add, Nat.cast_pow, Nat.cast_ofNat, ← pow_add]
        congr 1
      rw [hinf] at h2
      linarith
    have habs : |e| * (d * 2 ^ 149) = ((|n| : Int) : ℚ) := by
      have hp : (0 : ℚ) < d * 2 ^ 149 := by positivity
      calc |e| * (d * 2 ^ 149) = |e| * |(d : ℚ) * 2 ^ 149| := by rw [abs_of_pos hp]
        _ = |e * (d * 2 ^ 149)| := (abs_mul _ _).symm
        _ = _ := by rw [he, Int.cast_abs]
    have hcast : (2 * |n| < (magVal 0x7F7FFFFF + magVal 0x7F800000) * d : Prop) ↔
        (2 * ((|n| : Int) : ℚ) < ((magVal 0x7F7FFFFF : ℚ) + magVal 0x7F800000) * d) := by exact_mod_cast Iff.rfl
    rw [hcast, ← habs, hinf, hmax]
    generalize (2 : ℚ) ^ 149 = Q at *
    have hpos : 0 < d * Q := by positivity
    have e1 : (2 ^ 128 * Q - 2 ^ 104 * Q + 2 ^ 128 * Q) * d = 2 * ((2 ^ 128 - 2 ^ 103) * (d * Q)) := by ring
    rw [e1, mul_lt_mul_iff_right₀ (by norm_num), mul_lt_mul_iff_left₀ hpos]
  · intro hf c
    have hpos : (0 : ℚ) < d * 2 ^ 149 := by positivity
    rcases roundInt_nearest_even (c := c) h hd hf with h1 | ⟨h1, h2⟩
    · left
      rw [← mul_lt_mul_iff_left₀ hpos, hval, hval]; exact_mod_cast h1
    · right
      refine ⟨?_, h2.imp (fun h => by unfold toRat; rw [h]) id⟩
      rw [← mul_left_inj' hpos.ne', hval, hval, h1]

theorem toRat_lt (x y : Num32) : toRat x < toRat y ↔ toInt x < toInt y := by
  rw [← not_le, toRat_le, not_le]
theorem toRat_eq (x y : Num32) : toRat x = toRat y ↔ toInt x = toInt y := by
  rw [le_antisymm_iff, toRat_le, toRat_le, ← le_antisymm_iff]

/-! ## min, max, clamp01, fmod -/

theorem toInt_min {a b : Num32} (ha : isNaN a = false) (hb : isNaN b = false) :
    toInt (min a b) = Min.min (toInt a) (toInt b) := by
  unfold F32.min
  split
  · next h => rw [lt_iff ha hb] at h; omega
  · next h => rw [lt_iff ha hb] at h; omega

theorem toInt_max {a b : Num32} (ha : isNaN a = false) (hb : isNaN b = false) :
    toInt (max a b) = Max.max (toInt a) (toInt b) := by
  unfold F32.max
  split
  · next h => rw [lt_iff hb ha] at h; omega
  · next h => rw [lt_iff hb ha] at h; omega

theorem isNaN_max {a b : Num32} (ha : isNaN a = false) (hb : isNaN b = false) : isNaN (max a b) = false := by
  unfold F32.max; split <;> assumption

theorem toRat_min {a b : Num32} (ha : isNaN a = false) (hb : isNaN b = false) :
    toRat (min a b) = Min.min (toRat a) (toRat b) := by
  unfold toRat; rw [toInt_min ha hb, Int.cast_min, min_div_div_right (by positivity)]

theorem toRat_max {a b : Num32} (ha : isNaN a = false) (hb : isNaN b = false) :
    toRat (max a b) = Max.max (toRat a) (toRat b) := by
  unfold toRat; rw [toInt_max ha hb, Int.cast_max, max_div_div_right (by positivity)]

/-- clamp01 of a finite value is the clamp of its value (R8). -/
theorem toRat_clamp01 {x : Num32} (h : isFinite x = true) :
    toRat (clamp01 x) = Min.min (Max.max (toRat x) 0) 1 := by
  have hn := not_isNaN_of_isFinite h
  unfold clamp01
  rw [if_pos h, toRat_min (isNaN_max hn isNaN_posZero) isNaN_one, toRat_max hn isNaN_posZero, toRat_zero, toRat_one]

/-- In [0, 1] clamp01 changes nothing but the sign of a zero (R197). -/
theorem clamp01_of_inUnit {x : Num32} (h : InUnit x) : toInt (clamp01 x) = toInt x ∧ (x ≠ negZero → clamp01 x = x) := by
  have hn := not_isNaN_of_isFinite h.1
  have hu := (inUnit_iff hn).mp h
  have hv : toInt (clamp01 x) = toInt x := by
    unfold clamp01
    rw [if_pos h.1, toInt_min (isNaN_max hn isNaN_posZero) isNaN_one, toInt_max hn isNaN_posZero, toInt_posZero, toInt_one]
    omega
  refine ⟨hv, fun hz => ?_⟩
  by_cases h0 : toInt x = 0
  · rw [eq_posZero h0 hz]; decide
  · exact toInt_inj hv (by rw [hv]; exact h0)

theorem clamp01_of_neg {x : Num32} (h : isFinite x = true) (h0 : lt x posZero = true) : clamp01 x = posZero := by
  have hn := not_isNaN_of_isFinite h
  rw [lt_iff hn isNaN_posZero, toInt_posZero] at h0
  have : max x posZero = posZero := by
    unfold F32.max
    rw [if_neg]
    rw [lt_iff isNaN_posZero hn, toInt_posZero]; omega
  unfold clamp01
  rw [if_pos h, this]; decide

theorem clamp01_of_one_lt {x : Num32} (h : isFinite x = true) (h1 : lt one x = true) : clamp01 x = one := by
  have hn := not_isNaN_of_isFinite h
  rw [lt_iff isNaN_one hn] at h1
  have h2 : (0 : Int) < toInt one := by rw [toInt_one]; positivity
  have : max x posZero = x := by
    unfold F32.max
    rw [if_pos]
    rw [lt_iff isNaN_posZero hn, toInt_posZero]; omega
  unfold clamp01
  rw [if_pos h, this]
  unfold F32.min
  rw [if_neg]
  rw [lt_iff hn isNaN_one]; omega

/-- `fmod` in rationals: x less a whole multiple of y, smaller than y, with the sign of x (R8). -/
theorem toRat_fmod {x y : Num32} (hx : isFinite x = true) (hy : isFinite y = true) (h0 : toRat y ≠ 0) :
    isFinite (fmod x y) = true ∧ sign (fmod x y) = sign x ∧ |toRat (fmod x y)| < |toRat y| ∧
      ∃ k : Int, toRat x - toRat (fmod x y) = k * toRat y := by
  have hy0 : toInt y ≠ 0 := by intro h; apply h0; unfold toRat; rw [h]; simp
  obtain ⟨-, h1, h2⟩ := fmod_spec hx hy hy0
  have hmod := Nat.mod_lt (toInt x).natAbs (Int.natAbs_pos.mpr hy0)
  have hsgn : toInt (fmod x y) = Int.tmod (toInt x) (toInt y) := by
    have e1 : (Int.tmod (toInt x) (toInt y)).natAbs = (toInt (fmod x y)).natAbs := by rw [h1, Int.natAbs_tmod]
    have e2 := toInt_eq (fmod x y)
    have e3 := toInt_eq x
    rw [h2] at e2
    cases hs : sign x
    · rw [hs] at e2 e3
      simp only [Bool.false_eq_true, if_false] at e2 e3
      have := Int.tmod_nonneg (toInt y) (a := toInt x) (by rw [e3]; positivity)
      omega
    · rw [hs] at e2 e3
      simp only [if_true] at e2 e3
      have h3 : 0 ≤ -toInt x := by rw [e3, neg_neg]; positivity
      have h4 := Int.tmod_nonneg (toInt y) h3
      rw [Int.neg_tmod] at h4
      omega
  refine ⟨?_, h2, ?_, Int.tdiv (toInt x) (toInt y), ?_⟩
  · rw [isFinite_iff_natAbs, h1]
    have := (isFinite_iff_natAbs y).mp hy
    omega
  · unfold toRat
    rw [abs_div, abs_div, div_lt_div_iff_of_pos_right (by positivity), ← Int.cast_abs, ← Int.cast_abs, Int.cast_lt,
      Int.abs_eq_natAbs, Int.abs_eq_natAbs, h1]
    exact_mod_cast hmod
  · have h3 := Int.mul_tdiv_add_tmod (toInt x) (toInt y)
    rw [← hsgn] at h3
    unfold toRat
    rw [← sub_div, mul_div_assoc']
    congr 1
    rw [← Int.cast_sub, ← Int.cast_mul]
    congr 1
    rw [mul_comm]; omega

end Sys2Proof.Machine.F32

namespace Sys2Proof.Machine

/-- SPF is the floor of the exact FS / 60 (R5, R323). -/
theorem samplesPerFrame_floor {fs : Num32} (h : F32.isFinite fs = true) (h0 : 0 ≤ F32.toRat fs) :
    (samplesPerFrame fs : Int) = ⌊F32.toRat fs / 60⌋ := by
  have h1 : 0 ≤ F32.toInt fs := (toRat_nonneg fs).mp h0
  unfold samplesPerFrame
  rw [if_pos h, Int.toNat_of_nonneg (Int.ediv_nonneg h1 (by decide))]
  unfold F32.toRat
  rw [div_div]
  rw [show (2 ^ 149 * 60 : ℚ) = ((2 ^ 149 * 60 : Nat) : ℚ) by norm_num, Rat.floor_intCast_div_natCast]
  congr 1

end Sys2Proof.Machine
end

