-- ==== Sys2Proof/Tests/Slice0.lean ====
section
/-! SUPPORT. The model's own tests. Expected values are those of 95_test_vectors.md and of the table in
30_encoding.md R100, named at each test; what the well-formedness check refuses; and, for each statement of
Certificates/Slice0/Obligations.lean that has hypotheses, states and operands that meet them. -/

namespace Sys2Proof.Tests

open Sys2Proof.Machine

set_option Elab.async false

/-! ## Fixtures of 95_test_vectors.md -/

def zero : Num32 := 0x00000000#32
def one : Num32 := 0x3F800000#32
def two : Num32 := 0x40000000#32
def half : Num32 := 0x3F000000#32
def quarter : Num32 := 0x3E800000#32
def fs8 : Num32 := 0x41000000#32
/-- 127/255 -/
def mid : Num32 := 0x3EFEFEFF#32
def inf : Num32 := 0x7F800000#32
def nan : Num32 := 0x7FC00000#32
/-- 2^127 -/
def huge : Num32 := 0x7F000000#32

def t4 : List Nat := [0, 127, 255, 127]
def t1 : List Nat := [255]
def ta : List Nat := [255, 0, 255, 0]
def eFlat : EnvelopeDefinition := { attackTime := zero, decayTime := zero, sustainLevel := one, releaseTime := zero }
def eRel4 : EnvelopeDefinition := { eFlat with releaseTime := half }
def eAdsr : EnvelopeDefinition := { attackTime := quarter, decayTime := quarter, sustainLevel := half, releaseTime := half }
def eBad : EnvelopeDefinition := { eFlat with sustainLevel := 0x3FC00000#32 }

def wt4 : WavetableDefinition := { data := t4, envelope := eRel4 }

/-- The FM definition of program P4, with another algorithm if asked. -/
def fmDef (algorithm : Byte) : FMDefinition where
  algorithm := algorithm
  op := { o0 := { table := ta, envelope := eFlat, modulationDepth := zero }
          o1 := { table := ta, envelope := eFlat, modulationDepth := one }
          o2 := { table := ta, envelope := eFlat, modulationDepth := one }
          o3 := { table := ta, envelope := eFlat, modulationDepth := half } }

def rom0 : RomInstance := [some (.wt wt4), none]
def rom1 : RomInstance := [some (.wt wt4), some (.fm (fmDef 0))]
def rom3 : RomInstance := [some (.fm (fmDef 12)), none]

/-- An algorithm table of these tests alone: operator 2 adds up operators 0 and 1. -/
def tableDouble : Vector AlgorithmDefinition 10 := Vector.replicate 10
  { carriers := { o0 := false, o1 := false, o2 := false, o3 := true }, m1 := .none, m2 := .double 0 1, m3 := .none }

def params (hz : Num32) : Params where
  numChannels := 2
  numInstruments := 2
  algTable := tableDouble
  noteHz := { rows := [], default := hz }
  roms := [(0, rom0), (1, rom1), (3, rom3)]
  rom0 := 0

/-- The engine fixture: FS = 8, NOTE_HZ = 2.0, both channels empty. -/
def machine : State := State.initial (params two) fs8 rom0

/-- As `machine`, but no note's increment is finite. -/
def loud : State := State.initial (params huge) fs8 rom0

def osc (len : Nat) (phase inc : Num32) : Osc := { phase := phase, freq := two, inc := inc, len := len, fs := fs8 }

def env (stage : Stage) (k : BitVec 32) (level start : Num32) (na nd nr : BitVec 32) (sus : Num32) : Env :=
  { stage := stage, k := k, level := level, start := start, na := na, nd := nd, nr := nr, sus := sus }

/-- T4 with E_REL4, INC = 1.0, at the second sample, held in Sustain. -/
def waveVoice : WaveVoice :=
  { defn := wt4, osc := osc 4 one one, env := env .sustain 0 one one 1 1 4 one, active := .On }

/-- NOTE_HZ = 0, so INC = 0. -/
def operator (depth : Num32) : FMOperator :=
  { osc := { osc 4 zero zero with freq := zero }, env := env .idle 0 zero zero 1 1 1 one, depth := depth, table := ta }

/-- The voice of V-FM-2 at its first tick. -/
def fmVoice : FMVoice :=
  { defn := fmDef 0, alg := 0, active := .Trigger
    op := { o0 := operator zero, o1 := operator one, o2 := operator one, o3 := operator half } }

def all (p : FMOperator) : Quad FMOperator := { o0 := p, o1 := p, o2 := p, o3 := p }

/-- An operator of V-SRC-2 before its second tick, in Decay to 0.25. -/
def decaying : FMOperator := { operator zero with env := env .decay 0 one one 1 1 1 quarter, table := t1, osc := { osc 1 zero zero with freq := zero } }

/-- A voice whose operator 2 has an offset of 2 × 2^127: it overflows. -/
def hugeVoice : FMVoice :=
  { fmVoice with alg := 1, op := { fmVoice.op with o1 := operator zero, o2 := operator huge } }

def ch0 : UnitRef := { channel := 0, operator := none }
def ch1 (i : Fin 4) : UnitRef := { channel := 1, operator := some i }

/-- A state with these two voices. -/
def withVoices (a b : Channel) (s : State) : State := { s with engine := { s.engine with ch := [a, b] } }

def playing : State := withVoices (.wt waveVoice) (.fm fmVoice) machine
def overflowing : State := withVoices .empty (.fm hugeVoice) machine

/-- What a step returned, and a part of the state it left. -/
def returned (o : Host.Outcome State Fault Refusal) : Option StepResult :=
  match o with
  | .next t => some t.result
  | .fault _ => none
  | .refused _ => none

def left {α : Type} (o : Host.Outcome State Fault Refusal) (f : State → α) : Option α :=
  match o with
  | .next t => some (f t)
  | .fault _ => none
  | .refused _ => none

def refusal (o : Host.Outcome State Fault Refusal) : Option Refusal :=
  match o with
  | .next _ => none
  | .fault _ => none
  | .refused r => some r

/-! ## Well-formedness: an ill-formed operation for each check -/

theorem test_wf_wrap_zero : (Instr.wrap one 0).wf = false := by decide
theorem test_wf_wrap_long : (Instr.wrap one (2 ^ 24 + 1)).wf = false := by decide
theorem test_wf_wrap_bounds : (Instr.wrap one 1).wf = true ∧ (Instr.wrap one (2 ^ 24)).wf = true := by decide
theorem test_wf_lerp_empty : (Instr.lerp [] zero).wf = false := by decide
theorem test_wf_lerp_wide : (Instr.lerp [256] zero).wf = false := by decide
theorem test_wf_envBuild : (Instr.envBuild eBad fs8).wf = false ∧ (Instr.envBuild eAdsr fs8).wf = true := by decide +kernel
theorem test_wf_romValidate : (Instr.romValidate (List.replicate 257 none) 0).wf = false := by decide +kernel
theorem test_wf_voiceNew_off : (Instr.voiceNew (.wt wt4) 60 .Off).wf = false := by decide
theorem test_wf_voiceNew_table : (Instr.voiceNew (.wt { wt4 with data := [] }) 60 .On).wf = false := by decide
theorem test_wf_voiceNew_algorithm : (Instr.voiceNew (.fm (fmDef 12)) 60 .On).wf = false := by decide

/-! ## Decoding: words of R100, of V-ENC and of V-ENG -/

theorem test_decode_pressed : decodeWord 0x0102053C#32 = some (.pianoKeyPressed 60 5 2) := by decide
theorem test_decode_released : decodeWord 0x02020000#32 = some (.pianoKeyReleased 2) := by decide
theorem test_decode_trigger : decodeWord 0x03010045#32 = some (.triggerNote 69 0 1) := by decide
theorem test_decode_romChanged : decodeWord 0x04000001#32 = some (.soundRomInstanceChanged 1) := by decide
theorem test_decode_renderFrame : decodeWord 0x10000320#32 = some (.renderFrame 800) := by decide
theorem test_decode_snapshot : decodeWord 0x11000000#32 = some .snapshot := by decide
theorem test_decode_restore : decodeWord 0x12000000#32 = some .restore := by decide
theorem test_decode_producerStep : decodeWord 0x13000000#32 = some .producerStep := by decide
theorem test_decode_callbackPull : decodeWord 0x14000100#32 = some (.callbackPull 256) := by decide
theorem test_decode_stop : decodeWord 0x15000000#32 = some .stop := by decide
/-- V-ENG-6, V-ENG-7, V-ENG-16, V-ENC-7, V-ENC-8, V-ENC-11. -/
theorem test_decode_rejects : decodeCmd 0x05000000#32 = none ∧ decodeCmd 0x02000001#32 = none ∧
    decodeCmd 0x10000004#32 = none ∧ decodeCtl 0x11000001#32 = none ∧ decodeCtl 0x0102053C#32 = none ∧
    decodeWord 0xFF000000#32 = none := by decide
theorem test_decode_table_word : decodeTableWord 32 0x0109003C = some (.pianoKeyPressed 60 0 9) := by decide
/-- A line of P1, with its agent; an operand that does not fit is an error (R98). -/
theorem test_assemble : assembleStep "E: PIANO_KEY_PRESSED 60, 0, 0 ; note".toList = some (.command 0x0100003C#32) ∧
    assembleStep "C: CALLBACK_PULL 3".toList = some (.control .callback 0x14000003#32 none) ∧
    assembleLine "TRIGGER_NOTE 256, 0, 0".toList = none ∧ assembleLine "STOP 1".toList = none := by decide +kernel

/-! ## One step of each operation -/

/-- V-ENG-1. -/
theorem test_pressed_fault : left (exec (.pianoKeyPressed 60 0 9) machine) (fun t => (t.fault, t.log, t.engine.ch)) =
    some (0x02#8, [.fault { cause := .badChannel, info := .word 0x0109003C#32 }], [.empty, .empty]) := by decide +kernel
/-- P1: the voice on channel 0 has INC = 1.0 and starts at phase 0. -/
theorem test_pressed : left (exec (.pianoKeyPressed 60 0 0) machine) (fun t => t.engine.ch) =
    some [.wt { defn := wt4, osc := osc 4 zero one, env := env .idle 0 zero zero 1 1 4 one, active := .On }, .empty] := by
  decide +kernel
/-- V-ENG-8. -/
theorem test_released_empty : left (exec (.pianoKeyReleased 1) machine) (fun t => (t.engine, t.log)) =
    some (machine.engine, []) := by decide +kernel
/-- V-ENG-5. -/
theorem test_released : left (exec (.pianoKeyReleased 0) playing) (fun t => t.engine.ch) =
    some [.wt { waveVoice with active := .Off }, .fm fmVoice] := by decide +kernel
/-- V-ENG-2, for TRIGGER_NOTE. -/
theorem test_trigger_fault : left (exec (.triggerNote 60 1 0) machine) (fun t => (t.fault, t.log, t.engine.ch)) =
    some (0x04#8, [.fault { cause := .badInstrument, info := .word 0x0300013C#32 }], [.empty, .empty]) := by decide +kernel
/-- V-ENG-4: the note replaces what the channel held. -/
theorem test_trigger : left (exec (.triggerNote 69 0 1) playing) (fun t => t.engine.ch) =
    some [.wt waveVoice,
      .wt { defn := wt4, osc := osc 4 zero one, env := env .idle 0 zero zero 1 1 4 one, active := .Trigger }] := by
  decide +kernel
/-- V-ENG-9. -/
theorem test_romChanged_fault : left (exec (.soundRomInstanceChanged 3) machine) (fun t => (t.fault, t.log, t.engine.romId)) =
    some (0x10#8, [.fault { cause := .badAlgorithm, info := .rom 3 0 0xFF }], 0) := by decide +kernel
/-- V-ENG-10; and P4's binding of ROM 1. -/
theorem test_romChanged : left (exec (.soundRomInstanceChanged 7) machine) (fun t => (t.fault, t.engine.romId)) =
      some (0x08#8, 0) ∧
    left (exec (.soundRomInstanceChanged 1) machine) (fun t => (t.engine.romId, t.engine.rom)) = some (1, rom1) := by
  decide +kernel
/-- P1 step 2. -/
theorem test_renderFrame : returned (exec (.renderFrame 4) { machine with cmdq := [0x0100003C#32] }) =
    some (.frame [zero, mid, one, mid]) := by decide +kernel
/-- V-ENG-12. -/
theorem test_renderFrame_zero : left (exec (.renderFrame 0) { machine with cmdq := [0x0100003C#32] })
    (fun t => (t.result, t.cmdq, t.engine.ch[1]?)) = some (.frame [], [], some .empty) := by decide +kernel
theorem test_snapshot : left (exec .snapshot playing) (fun t => (t.savePort, t.engine)) =
    some (playing.engine, playing.engine) := by decide +kernel
/-- P3 step 5. -/
theorem test_restore : left (exec .restore { machine with savePort := playing.engine }) (fun t => t.engine) =
    some playing.engine := by decide +kernel
/-- V-ENG-15. -/
theorem test_restore_mismatch :
    refusal (exec .restore { machine with savePort := { machine.engine with romId := 2 } }) = some .restoreMismatch := by
  decide +kernel
/-- V-SRC-3. -/
theorem test_producerStep_full : left (exec .producerStep { machine with outq := [[one], [half]], cmdq := [0x0100003C#32] })
    (fun t => (t.result, t.outq, t.cmdq)) = some (.producer .deferred, [[one], [half]], [0x0100003C#32]) := by decide +kernel
/-- P2 step 3: FS = 120, so the frame has two samples. -/
theorem test_producerStep : left (exec .producerStep { machine with engine := { machine.engine with fs := Config.resetFs } })
    (fun t => (t.result, t.outq, t.tap)) = some (.producer .produced, [[zero, zero]], some [zero, zero]) := by decide +kernel
/-- V-PIPE-3. -/
theorem test_callbackPull : left (exec (.callbackPull 3) { machine with outq := [[one, half], [quarter, two]] })
    (fun t => (t.result, t.cur, t.outq, t.log)) =
    some (.samples [one, half, quarter], some { buf := [quarter, two], rd := 1 }, [], []) := by decide +kernel
/-- V-SRC-4, step 2. -/
theorem test_callbackPull_dry : left (exec (.callbackPull 3) { machine with cur := some { buf := [half, half], rd := 2 } })
    (fun t => (t.result, t.log, t.fault)) = some (.samples [zero, zero, zero],
      [.status .noNextFrame, .status .noNextFrame, .status .noNextFrame], 0) := by decide +kernel
/-- V-PIPE-5. -/
theorem test_stop : left (exec .stop machine) (fun t => t.stop) = some true ∧
    left (exec .producerStep { machine with stop := true, cmdq := [0x0100003C#32] }) (fun t => (t.result, t.cmdq)) =
      some (.producer .stopped, [0x0100003C#32]) := by decide +kernel
/-- P1 step 1; the queue is first in, first out. -/
theorem test_enqueue : left (exec (.enqueue 0x02000000#32) { machine with cmdq := [0x0100003C#32] }) (fun t => t.cmdq) =
    some [0x0100003C#32, 0x02000000#32] := by decide +kernel
/-- V-OSC-1, in place: L = 4, FS = 8, hz = 2.0. -/
theorem test_setFrequency : left (exec (.setFrequency (ch1 2) two) playing) (fun t => oscOf (ch1 2) t.engine) =
    some (some (osc 4 zero one)) := by decide +kernel
/-- V-OSC-4. -/
theorem test_setFrequency_infinite : refusal (exec (.setFrequency ch0 inf) playing) = some .nonfiniteInput := by decide +kernel
/-- V-WRAP-1, V-WRAP-2, V-WRAP-6. -/
theorem test_wrap : returned (exec (.wrap 0x40900000#32 4) machine) = some (.num half) ∧
    returned (exec (.wrap 0xBF800000#32 4) machine) = some (.num 0x40400000#32) ∧
    returned (exec (.wrap 0xB0800000#32 4) machine) = some (.num zero) := by decide +kernel
/-- V-WRAP-4, V-WRAP-5, V-WRAP-7. -/
theorem test_wrap_zero : returned (exec (.wrap 0xC0800000#32 4) machine) = some (.num zero) ∧
    returned (exec (.wrap 0x80000000#32 4) machine) = some (.num zero) ∧
    refusal (exec (.wrap nan 4) machine) = some .nonfiniteInput := by decide +kernel
/-- V-OSC-9: INC above L. -/
theorem test_oscTick : left (exec (.oscTick ch0) (withVoices (.wt { waveVoice with osc := osc 4 half 0x41100000#32 }) .empty machine))
    (fun t => (t.result, (oscOf ch0 t.engine).map (fun o => o.phase))) = some (.num half, some 0x3FC00000#32) := by
  decide +kernel
/-- V-OSC-6: a negative increment. -/
theorem test_oscTick_down : left (exec (.oscTick ch0) (withVoices (.wt { waveVoice with osc := osc 4 zero 0xBF800000#32 }) .empty machine))
    (fun t => (t.result, (oscOf ch0 t.engine).map (fun o => o.phase))) = some (.num zero, some 0x40400000#32) := by
  decide +kernel
/-- V-LERP-2, V-LERP-3. -/
theorem test_lerp : returned (exec (.lerp t4 0x40100000#32) machine) = some (.num 0x3F5FDFE0#32) ∧
    returned (exec (.lerp t4 0x40600000#32) machine) = some (.num 0x3E7EFEFF#32) := by decide +kernel
/-- V-LERP-5, V-LERP-7. -/
theorem test_lerp_edge : returned (exec (.lerp [200] 0x3F400000#32) machine) = some (.num 0x3F48C8C9#32) ∧
    refusal (exec (.lerp t4 0x40800000#32) machine) = some .indexRange := by decide +kernel
/-- V-SRC-1, tick 2. -/
theorem test_voiceTick : left (exec (.voiceTick 0) playing)
    (fun t => (t.result, (oscOf ch0 t.engine).map (fun o => o.phase))) = some (.num mid, some two) := by decide +kernel
/-- V-WT-6: a silent voice advances. -/
theorem test_voiceTick_silent : left (exec (.voiceTick 0)
      (withVoices (.wt { waveVoice with osc := osc 4 zero one, env := env .idle 0 zero zero 1 1 4 one, active := .Off }) .empty machine))
    (fun t => (t.result, (oscOf ch0 t.engine).map (fun o => o.phase))) = some (.num zero, some one) := by decide +kernel
/-- V-FM-2 and V-SRC-5: the sample, and Trigger becomes Off. -/
theorem test_fmTick : left (exec (.fmTick 1) playing) (fun t => (t.result, (fmVoiceOf 1 t.engine).map (fun v => v.active))) =
    some (.num half, some .Off) := by decide +kernel
/-- V-SRC-2: algorithm 11 adds its carriers. -/
theorem test_fmTick_carriers :
    returned (exec (.fmTick 1) (withVoices .empty (.fm { fmVoice with alg := 11, op := all decaying, active := .On }) machine)) =
    some (.num one) := by decide +kernel
/-- V-ENV-9. -/
theorem test_envBuild : returned (exec (.envBuild eAdsr fs8) machine) = some (.env (env .idle 0 zero zero 2 2 4 half)) := by
  decide +kernel
/-- V-ENV-8, V-ENV-13: a stage is at least one tick long. -/
theorem test_envBuild_short : returned (exec (.envBuild { eFlat with attackTime := 0x80000000#32, decayTime := 0x358637BD#32 } 0x473B8000#32) machine) =
    some (.env (env .idle 0 zero zero 1 1 1 one)) := by decide +kernel
/-- V-ENV-1, tick 8: the third tick of a release from 0.5 over 4. -/
theorem test_envTick : returned (exec (.envTick ch0 .Off)
      (withVoices (.wt { waveVoice with env := env .release 2 quarter half 2 2 4 half }) .empty machine)) =
    some (.num 0x3E000000#32) := by decide +kernel
/-- V-ENV-3, tick 5: Trigger while releasing starts again at 0. -/
theorem test_envTick_trigger : left (exec (.envTick ch0 .Trigger)
      (withVoices (.wt { waveVoice with env := env .release 2 half one 2 2 4 half }) .empty machine))
    (fun t => envOf ch0 t.engine) = some (some (env .attack 1 half zero 2 2 4 half)) := by decide +kernel
/-- V-FM-10 and V-ENV-11, in the order of R226. -/
theorem test_romValidate : left (exec (.romValidate rom3 3) machine) (fun t => (t.fault, t.log)) =
      some (0x10#8, [.fault { cause := .badAlgorithm, info := .rom 3 0 0xFF }]) ∧
    left (exec (.romValidate [none, some (.wt { data := t1, envelope := eBad })] 5) machine) (fun t => t.log) =
      some [.fault { cause := .badEnvelope, info := .rom 5 1 0xFF }] := by decide +kernel
theorem test_romValidate_ok : left (exec (.romValidate rom1 1) machine) (fun t => (t.fault, t.log)) = some (0, []) := by
  decide +kernel
/-- The voice of V-FM-2, from P4's definition. -/
theorem test_voiceNew : returned (exec (.voiceNew (.fm (fmDef 0)) 0 .Trigger) (State.initial (params zero) fs8 rom0)) =
    some (.slot (.fm fmVoice)) := by decide +kernel
theorem test_voiceNew_algorithm : refusal (exec (.voiceNew (.fm (fmDef 12)) 0 .On) machine) = some .algorithmRange := by
  decide +kernel
/-- P4's drain: the ROM change first, then the notes; the bad channel does not stop it. -/
theorem test_drain : left (exec .drain { machine with cmdq := [0x01010100#32, 0x04000001#32, 0x01090000#32] })
    (fun t => (t.engine.romId, (fmVoiceOf 1 t.engine).map (fun v => v.active), t.log)) =
    some (1, some .On, [.fault { cause := .badChannel, info := .word 0x01090000#32 }]) := by decide +kernel
/-- V-ENG-11. -/
theorem test_drain_faults : left (exec .drain { machine with cmdq := [0x0109003C#32, 0x05000000#32] })
    (fun t => (t.fault, t.log)) = some (0x03#8, [.fault { cause := .badChannel, info := .word 0x0109003C#32 },
      .fault { cause := .badCommand, info := .word 0x05000000#32 }]) := by decide +kernel
/-- 127/255 + 0.5, as V-ENG-13: 0x1FEFEFF units of 2^-25, a tie that goes to the even 0xFF7F80 units of 2^-24. -/
theorem test_mixTick : returned (exec .mixTick playing) = some (.num 0x3F7F7F80#32) := by decide +kernel
/-- V-ENG-14. -/
theorem test_mixTick_empty : returned (exec .mixTick machine) = some (.num zero) := by decide +kernel
/-- V-PIPE-4: an empty frame is skipped without an event. -/
theorem test_nextSample : left (exec .nextSample { machine with outq := [[], [quarter]], cur := some { buf := [one], rd := 1 } })
    (fun t => (t.result, t.cur, t.outq, t.log)) = some (.num quarter, some { buf := [quarter], rd := 1 }, [], []) := by
  decide +kernel
/-- V-PIPE-1. -/
theorem test_nextSample_starved : left (exec .nextSample machine) (fun t => (t.result, t.log, t.fault)) =
    some (.num zero, [.status .starved], 0) := by decide +kernel

/-! ## The step -/

/-- V-ENC-9, V-ENC-10. -/
theorem test_step_wrong_context :
    refusal (step { machine with inputs := [.control .producer 0x14000001#32 none] }) = some .wrongContext ∧
    refusal (step { machine with inputs := [.control .callback 0x13000000#32 none] }) = some .wrongContext := by decide +kernel
/-- V-ENC-7: the word is ignored, and the step taken off. -/
theorem test_step_bad_word : left (step { machine with inputs := [.control .producer 0x11000001#32 none] })
    (fun t => (t.fault, t.log, t.inputs)) =
    some (0x01#8, [.fault { cause := .badCommand, info := .word 0x11000001#32 }], []) := by decide +kernel
/-- The first step after reset, of a placed word. -/
theorem test_step_fetched : left (step (State.reset.withFetchWord 32 0x14000002)) (fun t => (t.result, t.log)) =
    some (.samples [zero, zero], [.status .starved, .status .starved]) := by decide +kernel
/-- RESTORE takes the value an agent puts on the port with it (R90). -/
theorem test_step_restore : left (step { machine with inputs := [.control .producer 0x12000000#32 (some playing.engine)] })
    (fun t => t.engine) = some playing.engine := by decide +kernel
/-- No other word, and no other agent, reaches the port: an illegal word of the Producer, a pull (R96, R296). -/
theorem test_step_port : left (step { machine with inputs := [.control .producer 0x12000001#32 (some playing.engine)] })
    (fun t => t.savePort) = some machine.savePort ∧
    left (step { machine with inputs := [.control .callback 0x14000001#32 (some playing.engine)] })
      (fun t => t.savePort) = some machine.savePort := by decide +kernel
/-- A refused step leaves the mark and nothing else (R290). -/
theorem test_observe : (observe { machine with inputs := [.control .producer 0x14000001#32 none] }).refused = true := by
  decide +kernel
/-- R290: a sample rate of 0 or infinity is no construction. -/
theorem test_construct : refusal (construct (params two) zero) = some .badConstruction ∧
    refusal (construct (params two) inf) = some .badConstruction ∧
    left (construct (params two) fs8) (fun t => t.engine) = some machine.engine := by decide +kernel

/-! ## Witnesses: states and operands that meet the hypotheses of each statement -/

theorem legal_fmVoice : FMVoiceLegal fmVoice := ⟨by decide +kernel, by decide +kernel, by decide +kernel, by decide +kernel⟩
theorem legal_hugeVoice : FMVoiceLegal hugeVoice := ⟨by decide +kernel, by decide +kernel, by decide +kernel, by decide +kernel⟩

/-- Voices that no operation refuses, on a valid ROM (EngineLegal, RomInv, TameInv, ShapeInv, PipelineInv). -/
theorem witness_engine : EngineLegal playing.engine := by
  refine ⟨by decide +kernel, ?_⟩
  intro c hc
  rcases List.mem_cons.mp hc with rfl | hc
  · show WaveVoiceLegal waveVoice
    decide +kernel
  · rw [List.mem_singleton.mp hc]
    exact legal_fmVoice

theorem witness_rom : RomInv playing := by unfold RomInv; decide +kernel

theorem witness_channels : ∀ c ∈ playing.engine.ch, ChannelTame c := by
  intro c hc
  rcases List.mem_cons.mp hc with rfl | hc
  · trivial
  · rw [List.mem_singleton.mp hc]
    show Tame fmVoice.op.o0.depth ∧ Tame fmVoice.op.o1.depth ∧ Tame fmVoice.op.o2.depth ∧ Tame fmVoice.op.o3.depth
    decide +kernel

theorem tame_fmDef (a : Byte) : InstrumentTame (.fm (fmDef a)) := by
  show Tame zero ∧ Tame one ∧ Tame one ∧ Tame half
  decide +kernel

theorem witness_tame : TameInv playing := by
  refine ⟨⟨(fun r hr => by cases hr), by decide +kernel, by decide +kernel⟩, ?_, ?_, witness_channels⟩
  · intro i hi
    simp only [playing, withVoices, machine, State.initial, rom0, List.mem_cons, List.mem_nil_iff, or_false, Option.some.injEq,
      reduceCtorEq] at hi
    subst hi
    trivial
  · intro e he i hi
    simp only [playing, withVoices, machine, State.initial, params, List.mem_cons, List.mem_nil_iff, or_false] at he
    rcases he with rfl | rfl | rfl <;>
      simp only [rom0, rom1, rom3, List.mem_cons, List.mem_nil_iff, or_false, Option.some.injEq, reduceCtorEq] at hi
    · subst hi; trivial
    · rcases hi with rfl | rfl
      · trivial
      · exact tame_fmDef 0
    · subst hi; exact tame_fmDef 12

theorem witness_shape : ShapeInv playing ∧ playing.params.wf := by unfold ShapeInv; decide +kernel

theorem witness_voices : VoiceInv playing := by
  refine ⟨witness_engine, witness_rom, ⟨by decide +kernel, ?_⟩, ?_⟩
  · intro c hc
    have hc' : c ∈ List.replicate 2 Channel.empty := hc
    rw [List.eq_of_mem_replicate hc']
    trivial
  · intro w d h
    cases h

/-- DecodeEncodeAgree: operations of both ports, and words that decode. -/
theorem witness_DecodeEncodeAgree : encode (.pianoKeyPressed 255 0 255) = some 0x01FF00FF#32 ∧ encode .stop = some 0x15000000#32 ∧
    decodeCmd 0x04FFFFFF#32 = some (.romChanged 0xFFFFFF) ∧ decodeCtl 0x10000000#32 = some (.renderFrame 0) := by decide

/-- CommandWordDecoding: both sides of each opcode's range, and of the reserved bits. -/
theorem witness_CommandWordDecoding : decodeCmd 0x02FF0000#32 = some (.released 0xFF) ∧ decodeCmd 0x02000100#32 = none ∧
    decodeCmd 0x02000001#32 = none ∧ decodeCmd 0x00000000#32 = none ∧ decodeCmd 0x05000000#32 = none := by decide

/-- ControlWordStep: a control word at the head of the order of steps, and the edges of the opcode range. -/
theorem witness_ControlWordStep :
    ({ machine with inputs := [.control .producer ((0x15#8 : Byte) ++ 0#24) none] } : State).inputs =
      [.control .producer 0x15000000#32 none] ∧
    left (step { machine with inputs := [.control .producer 0x15000000#32 none] }) (fun t => t.stop) = some true ∧
    left (step { machine with inputs := [.control .producer 0x0F000000#32 none] }) (fun t => t.fault) = some 0x01#8 ∧
    left (step { machine with inputs := [.control .producer 0x16000000#32 none] }) (fun t => t.fault) = some 0x01#8 := by
  decide +kernel

/-- AssemblerFits: the last operand that fits and the first that does not. -/
theorem witness_AssemblerFits : assemble "PIANO_KEY_PRESSED".toList [255, 255, 255] = some 0x01FFFFFF#32 ∧
    assemble "PIANO_KEY_RELEASED".toList [256] = none ∧ assemble "RENDER_FRAME".toList [2 ^ 24 - 1] = some 0x10FFFFFF#32 ∧
    assemble "CALLBACK_PULL".toList [2 ^ 24] = none := by decide +kernel

/-- StepRunsDecoded: each kind of step at the head of the order, and none. -/
theorem witness_StepRunsDecoded : decodeCtl 0x11000000#32 = some .snapshot ∧ decodeCmd 0x02000000#32 = some (.released 0) ∧
    ({ machine with inputs := [.control Control.snapshot.agent 0x11000000#32 none] } : State).inputs =
      [.control .producer 0x11000000#32 none] ∧
    ({ machine with inputs := [.apply 0x02000000#32, .command 5, .drive .drain] } : State).inputs.length = 3 ∧
    machine.inputs = [] := by decide +kernel

theorem witness_FetchedWordRuns : decodeTableWord 32 0x15000000 = some .stop ∧ decodeTableWord 32 0x02FF0000 = some (.pianoKeyReleased 0xFF) := by
  decide

/-- FaultLogKept, FaultSticky: a step that raises a fault, from a state with one. -/
theorem witness_faults : FaultLogInv { machine with fault := 0x02#8, log := [.fault { cause := .badChannel, info := .word 0 }] } ∧
    left (step { machine with fault := 0x02#8, log := [.fault { cause := .badChannel, info := .word 0 }],
                              inputs := [.apply 0x05000000#32] }) (fun t => t.fault) = some 0x03#8 := by
  unfold FaultLogInv; decide +kernel

/-- ConstructionState: inputs that are accepted, and each way they are not. -/
theorem witness_ConstructionState : RateLegal fs8 ∧ romAt (params two).roms (params two).rom0 = some rom0 ∧
    romFault (params two).numInstruments fs8 rom0 (params two).rom0 = none ∧ ¬ RateLegal zero ∧
    romAt ({ params two with rom0 := 2 } : Params).roms 2 = none ∧
    romAt ({ params two with rom0 := 3 } : Params).roms 3 = some rom3 ∧ romFault 2 fs8 rom3 3 ≠ none := by decide +kernel

/-- KeyPressed and NoteTriggered: a channel just out of range, both bad instruments, a note that fits, one that does not. -/
theorem witness_notes : machine.params.numChannels ≤ (2 : Byte).toNat ∧ (1 : Byte).toNat < machine.params.numChannels ∧
    machine.params.numInstruments ≤ (2 : Byte).toNat ∧ romEntry machine.engine.rom (1 : Byte).toNat = none ∧
    romEntry machine.engine.rom (0 : Byte).toNat = some (.wt wt4) ∧ (0 : Byte).toNat < machine.params.numInstruments := by
  decide +kernel
theorem witness_note_fits : VoiceFits machine.params machine.engine.fs (.wt wt4) 60 := by
  show OscFits 4 fs8 two
  decide +kernel
theorem witness_fm_fits : VoiceFits machine.params machine.engine.fs (.fm (fmDef 11)) 60 := by
  show (fmDef 11).algorithm.toNat ≤ 11 ∧ OscFits 4 fs8 two ∧ OscFits 4 fs8 two ∧ OscFits 4 fs8 two ∧ OscFits 4 fs8 two
  decide +kernel
theorem witness_note_overflows : ¬ VoiceFits loud.params loud.engine.fs (.wt wt4) 60 := by
  show ¬ OscFits 4 fs8 huge
  decide +kernel

/-- KeyReleased: an empty channel, either kind of voice, and a reserved bit that is set. -/
theorem witness_KeyReleased : machine.params.numChannels ≤ (2 : Byte).toNat ∧
    machine.engine.ch[(1 : Byte).toNat]? = some .empty ∧ playing.engine.ch[(0 : Byte).toNat]? = some (.wt waveVoice) ∧
    playing.engine.ch[(1 : Byte).toNat]? = some (.fm fmVoice) ∧ (0x8000#16 : BitVec 16) ≠ 0#16 := by decide +kernel

/-- RomChanged: no such slot, an invalid instance, a valid one. -/
theorem witness_RomChanged : romAt machine.params.roms 2 = none ∧ romAt machine.params.roms 3 = some rom3 ∧
    romFault 2 fs8 rom3 3 = some { cause := .badAlgorithm, info := .rom 3 0 0xFF } ∧
    romAt machine.params.roms 1 = some rom1 ∧ romFault 2 fs8 rom1 1 = none := by decide +kernel

/-- VoiceNewBuilds: the four cases. -/
theorem witness_VoiceNewBuilds : VoiceFits machine.params machine.engine.fs (.wt wt4) 0 ∧
    VoiceFits machine.params machine.engine.fs (.fm (fmDef 11)) 60 ∧ ¬ VoiceFits loud.params loud.engine.fs (.wt wt4) 60 ∧
    11 < (fmDef 12).algorithm.toNat :=
  ⟨witness_note_fits, witness_fm_fits, witness_note_overflows, by decide⟩

theorem witness_TameNotesFit : NotesTame playing ∧ RateLegal playing.engine.fs ∧ RomInv playing ∧
    0 < playing.params.numInstruments ∧ romEntry playing.engine.rom 0 = some (.wt wt4) :=
  ⟨witness_tame.1, witness_engine.1, witness_rom, by decide +kernel, by decide +kernel⟩

/-- RomValidity: a valid instance, and one with an algorithm just above the last. -/
theorem witness_RomValidity : romFault 2 fs8 rom1 1 = none ∧ romFault 1 fs8 rom3 3 ≠ none := by decide +kernel

/-- RomValidateFirst: no fault; the first fault at an index above 0; each kind of entry. -/
theorem witness_RomValidateFirst : (∀ k < 2, instrumentFault fs8 0 k (romEntry rom1 k) = none) ∧
    (∀ j < 1, instrumentFault fs8 3 j (romEntry [none, some (.fm (fmDef 12))] j) = none) ∧
    instrumentFault fs8 3 1 (romEntry [none, some (.fm (fmDef 12))] 1) = some { cause := .badAlgorithm, info := .rom 3 1 0xFF } ∧
    romEntry rom1 0 = some (.wt wt4) ∧ romEntry rom1 1 = some (.fm (fmDef 0)) ∧ romEntry rom3 1 = none ∧
    (fmDef 11).algorithm.toNat ≤ 11 ∧ 11 < (fmDef 12).algorithm.toNat := by decide +kernel
/-- The same, of an operator: a bad table before a bad envelope, and a depth that is not finite last. -/
theorem witness_operator_faults : let d := (fmDef 0).op.o1
    tableOk ({ d with table := [256] }).table = false ∧ envOk ({ d with envelope := eBad }).envelope fs8 = false ∧
      F32.isFinite ({ d with modulationDepth := inf }).modulationDepth = false := by decide +kernel

/-- DrainTwoPass, DrainCompletes, RenderFrameRuns: a queue of both kinds of word, and a drain that is refused. -/
theorem witness_DrainTwoPass :
    left (exec .drain { playing with cmdq := [0x0100003C#32, 0x04000001#32] }) (fun t => (t.engine.romId, t.cmdq)) = some (1, []) ∧
    refusal (exec .drain { loud with cmdq := [0x0100003C#32] }) = some .nonfiniteInput := by decide +kernel
theorem witness_DrainCompletes : EngineLegal playing.engine ∧ RomInv playing ∧ TameInv playing :=
  ⟨witness_engine, witness_rom, witness_tame⟩

/-- DrainTwoPass, FaultConfined: words that apply, with no fault, and one that is refused. -/
theorem witness_words : applyWord 0x02000000#32 machine = .ok machine ∧
    (∃ t, applyWord 0x0100003C#32 machine = .ok t ∧ t.engine ≠ machine.engine ∧ t.log = machine.log) ∧
    applyWord 0x0100003C#32 loud = .error .nonfiniteInput := by
  refine ⟨by decide +kernel, ?_, by decide +kernel⟩
  cases h : applyWord 0x0100003C#32 machine with
  | ok t =>
    refine ⟨t, rfl, ?_, ?_⟩
    · have : (applyWord 0x0100003C#32 machine).map (fun t => decide (t.engine = machine.engine)) = .ok false := by decide +kernel
      rw [h] at this; simpa [Except.map] using this
    · have : (applyWord 0x0100003C#32 machine).map (fun t => decide (t.log = machine.log)) = .ok true := by decide +kernel
      rw [h] at this; simpa [Except.map] using this
  | error r =>
    have : (applyWord 0x0100003C#32 machine).map (fun _ => ()) = .ok () := by decide +kernel
    rw [h] at this; cases this

/-- AppliedWordIsCommand, FaultConfined: a word that decodes, one that does not decode, and one that faults. -/
theorem witness_applied : decodeCmd 0x0109003C#32 = some (.pressed 60 0 9) ∧ decodeCmd 0x05000000#32 = none ∧
    ∃ t, applyWord 0x05000000#32 machine = .ok t ∧ t.log ≠ machine.log :=
  ⟨by decide, by decide, raiseFault { cause := .badCommand, info := .word 0x05000000#32 } machine, rfl, by decide +kernel⟩

theorem witness_MixTickSums : EngineLegal playing.engine ∧ (∀ c ∈ playing.engine.ch, ChannelTame c) :=
  ⟨witness_engine, witness_channels⟩
theorem witness_fmTick_refused : fmTick tableDouble hugeVoice = .error .nonfiniteInput := by rfl
theorem witness_mixTick_refused : overflowing.engine.ch = [Channel.empty] ++ Channel.fm hugeVoice :: [] ∧
    (∀ d ∈ [Channel.empty], ChannelLegal d ∧ ChannelTame d) ∧
    ∃ v, Channel.fm hugeVoice = .fm v ∧ fmTick overflowing.params.algTable v = .error .nonfiniteInput := by
  refine ⟨rfl, ?_, hugeVoice, rfl, witness_fmTick_refused⟩
  intro d hd
  rw [List.mem_singleton.mp hd]
  exact ⟨trivial, trivial⟩

theorem witness_MixRange : EngineLegal playing.engine ∧ (∀ c ∈ playing.engine.ch, ChannelTame c) ∧ ShapeInv playing ∧
    playing.params.wf ∧ returned (exec .mixTick playing) = some (.num 0x3F7F7F80#32) :=
  ⟨witness_engine, witness_channels, witness_shape.1, witness_shape.2, test_mixTick⟩

/-- RenderFrameRuns: a tick that is refused after a drain that is not. -/
theorem witness_RenderFrameRuns : returned (exec .drain overflowing) = some .none ∧
    refusal (exec .mixTick overflowing) = some .nonfiniteInput ∧ 0 < (1 : BitVec 24).toNat := by decide +kernel

theorem witness_FrameDeterminism : playing.params = ({ playing with fault := 0xFF#8, stop := true } : State).params ∧
    playing.engine = ({ playing with fault := 0xFF#8, stop := true } : State).engine ∧
    playing.cmdq = ({ playing with fault := 0xFF#8, stop := true } : State).cmdq := ⟨rfl, rfl, rfl⟩

/-- RestoreReplaces: a value that is taken, and each way one is not. -/
theorem witness_RestoreReplaces : F32.eq playing.savePort.fs playing.engine.fs = true ∧
    playing.savePort.romId = playing.engine.romId ∧ playing.savePort.rom = playing.engine.rom ∧
    playing.savePort.ch.length = playing.params.numChannels ∧ F32.eq one playing.engine.fs = false ∧
    (1 : BitVec 24) ≠ playing.engine.romId ∧ rom1 ≠ playing.engine.rom ∧ ([] : List Channel).length ≠ playing.params.numChannels := by
  decide +kernel

/-- SnapshotRoundTrip, its first law. -/
theorem witness_SnapshotRoundTrip : ShapeInv playing ∧ RateLegal playing.engine.fs := ⟨witness_shape.1, witness_engine.1⟩

/-- The state a frame of one sample leaves. -/
def afterFrame (s : State) : State :=
  match exec (.renderFrame 1) s with
  | .next t => t
  | .fault _ => s
  | .refused _ => s
theorem afterFrame_eq {s : State} (h : returned (exec (.renderFrame 1) s) ≠ none) :
    exec (.renderFrame 1) s = .next (afterFrame s) := by
  unfold afterFrame
  cases he : exec (.renderFrame 1) s with
  | next t => rfl
  | fault f => rw [he] at h; exact absurd rfl h
  | refused r => rw [he] at h; exact absurd rfl h

/-- A frame, a word queued, and a frame, from a state. -/
def frames (s : State) : Nat → State
  | 0 => s
  | 1 => { afterFrame s with cmdq := [0x02000000#32] }
  | _ => afterFrame { afterFrame s with cmdq := [0x02000000#32] }
def snapped : State := { playing with savePort := playing.engine, result := .data playing.engine }
def rolledBack : State := { snapped with engine := { playing.engine with ch := [.empty, .empty] }, tap := some [half] }
def restored : State := { rolledBack with engine := playing.engine, result := .none }

/-- SnapshotRoundTrip, its second law: a snapshot, other channels since, then the restore and two frames, a release
queued between them. -/
theorem witness_SnapshotRoundTrip_frames : exec .snapshot playing = .next snapped ∧ exec .restore rolledBack = .next restored ∧
    (∀ i < 2, (frames restored i).cmdq = (frames snapped i).cmdq) ∧
    (∀ i < 2, exec (.renderFrame 1) (frames snapped i) = .next (afterFrame (frames snapped i)) ∧
      (frames snapped (i + 1)).params = (afterFrame (frames snapped i)).params ∧
      (frames snapped (i + 1)).engine = (afterFrame (frames snapped i)).engine) ∧
    (∀ i < 2, ∀ g, exec (.renderFrame 1) (frames restored i) = .next g →
      (frames restored (i + 1)).params = g.params ∧ (frames restored (i + 1)).engine = g.engine) := by
  have h1 : ∀ i < 2, returned (exec (.renderFrame 1) (frames snapped i)) ≠ none := by decide +kernel
  have h2 : ∀ i < 2, returned (exec (.renderFrame 1) (frames restored i)) ≠ none := by decide +kernel
  have next : ∀ (s : State) (i : Nat), i < 2 → (frames s (i + 1)).params = (afterFrame (frames s i)).params ∧
      (frames s (i + 1)).engine = (afterFrame (frames s i)).engine := by
    intro s i hi
    interval_cases i <;> exact ⟨rfl, rfl⟩
  have h3 : restoreOk rolledBack.savePort rolledBack = true := by decide +kernel
  have h4 : exec .restore rolledBack = .next restored := by simp only [exec, execRestore, restore, h3, if_true]; rfl
  refine ⟨rfl, h4, by decide +kernel, fun i hi => ⟨afterFrame_eq (h1 i hi), next _ i hi⟩, fun i hi g hg => ?_⟩
  rw [afterFrame_eq (h2 i hi)] at hg
  cases hg
  exact next _ i hi

/-- ProducerSteps: stopped, full, one place left, refused. -/
theorem witness_ProducerSteps : ({ machine with stop := true } : State).stop = true ∧ machine.stop = false ∧
    2 ≤ ({ machine with outq := [[], []] } : State).outq.length ∧ ({ machine with outq := [[]] } : State).outq.length < 2 ∧
    refusal (exec .producerStep { loud with cmdq := [0x0100003C#32] }) = some .nonfiniteInput := by decide +kernel
/-- Its clause on SPF: rates that are a multiple of 60 and that are not; R323 at a rate near which the quotient rounds up. -/
theorem witness_spf : RateLegal (F32.ofNat 120) ∧ RateLegal (F32.ofNat 134217776) ∧
    F32.toInt (F32.ofNat 120) = 60 * 2 * 2 ^ 149 ∧ F32.toInt (F32.ofNat 134217776) = (60 * 2236962 + 56) * 2 ^ 149 ∧
    samplesPerFrame (F32.ofNat 134217776) = 2236962 := by decide +kernel

/-- NextSampleForms: the five cases. -/
theorem witness_NextSampleForms : [one, half][1]? = some half ∧
    (∀ c, some ({ buf := [one], rd := 1 } : CurBuffer) = some c → c.buf.length ≤ c.rd) ∧
    ([[], [], [one, half]] : List Frame) = List.replicate 2 [] ++ (one :: [half]) :: [] ∧ machine.cur = none ∧
    machine.outq = [] ∧ ([[], []] : List Frame) = List.replicate (1 + 1) [] := by
  refine ⟨by decide, ?_, by decide, rfl, rfl, by decide⟩
  intro c hc
  cases hc
  decide

theorem witness_ProducerDelivers : returned (exec .producerStep machine) = some (.producer .produced) := by decide +kernel

theorem witness_PipelineKept : PipelineInv { machine with outq := [[], []], cur := some { buf := [], rd := 0 } } ∧
    returned (step { machine with inputs := [.drive .nextSample] }) = some (.num zero) := by
  refine ⟨⟨by decide, by decide +kernel, ?_⟩, by decide +kernel⟩
  intro c hc
  cases hc
  decide +kernel

theorem witness_BindingKept : ShapeInv playing ∧ RomInv playing ∧
    left (step { playing with inputs := [.apply 0x04000001#32] }) (fun t => t.engine.romId) = some 1 :=
  ⟨witness_shape.1, witness_rom, by decide +kernel⟩

theorem witness_VoicesKept : VoiceInv playing ∧ returned (step { playing with inputs := [.drive .mixTick] }) = some (.num 0x3F7F7F80#32) :=
  ⟨witness_voices, by decide +kernel⟩

/-- WhoWrites: an operation that completes, a step that does, and a step that is refused. -/
theorem witness_WhoWrites : returned (exec .stop playing) = some .none ∧ (Instr.stop ≠ .snapshot) ∧
    left (step playing) (fun t => t.refused) = some false ∧
    returned (step { playing with inputs := [.control .callback 0x14000000#32 none] }) = some (.samples []) ∧
    returned (step { playing with inputs := [.control .editor 0x00000000#32 none] }) = some .none ∧
    returned (step { playing with inputs := [.command 0x00000000#32] }) = some .none ∧
    refusal (step { playing with inputs := [.control .producer 0x14000001#32 none] }) = some .wrongContext := by
  decide +kernel

theorem witness_AbsentOperandRefused : oscOf ch0 machine.engine = none ∧ envOf ch0 machine.engine = none ∧
    oscOf { channel := 0, operator := some 0 } playing.engine = none ∧
    (∀ v, machine.engine.ch[(0 : Byte).toNat]? ≠ some (.wt v)) ∧ (∀ v, machine.engine.ch[(0 : Byte).toNat]? ≠ some (.fm v)) := by
  refine ⟨by decide +kernel, by decide +kernel, by decide +kernel, ?_, ?_⟩ <;> intro v h <;> cases h

/-- SetFrequencyWrites: a wavetable and an FM oscillator, a frequency that fits and two that do not. -/
theorem witness_SetFrequencyWrites : oscOf ch0 playing.engine = some waveVoice.osc ∧
    oscOf (ch1 3) playing.engine = some fmVoice.op.o3.osc ∧ F32.isFinite two = true ∧
    F32.isFinite (F32.div (F32.mul (F32.ofNat 4) two) fs8) = true ∧ F32.isFinite inf = false ∧
    F32.isFinite (F32.div (F32.mul (F32.ofNat 4) huge) fs8) = false := by decide +kernel

/-- WrapReduces: the ends of the range of L, a negative phase, one that is not finite, one already in range. -/
theorem witness_WrapReduces : F32.isFinite 0xC0800000#32 = true ∧ 1 ≤ 1 ∧ 2 ^ 24 ≤ 2 ^ 24 ∧ F32.isFinite inf = false ∧
    PhaseLegal half 1 ∧ ¬ PhaseLegal F32.negZero 1 := by decide +kernel

theorem witness_OscTickAdvances : oscOf ch0 playing.engine = some waveVoice.osc ∧ OscLegal waveVoice.osc ∧
    F32.isFinite (F32.add waveVoice.osc.phase waveVoice.osc.inc) = true ∧
    F32.isFinite (F32.add huge 0x7F7FFFFF#32) = false := by decide +kernel

/-- ExactTicks: a whole turn less one tick. -/
theorem witness_ExactTicks : 1 ≤ 4 ∧ (0 : ℚ) ≤ 0 ∧ (0 : ℚ) < (4 : Nat) := ⟨by decide, le_refl 0, by norm_num⟩

/-- LerpReads: an index between two entries, a whole one, and the first one past the end. -/
theorem witness_LerpReads : tableOk t4 = true ∧ F32.isFinite 0x40600000#32 = true ∧ F32.le F32.posZero 0x40600000#32 = true ∧
    F32.lt 0x40600000#32 (F32.ofNat t4.length) = true ∧ F32.toInt two = F32.toInt (F32.ofNat 2) ∧
    F32.lt 0x40800000#32 (F32.ofNat t4.length) = false ∧ F32.le F32.posZero 0xBF800000#32 = false := by decide +kernel

theorem witness_VoiceTicks : playing.engine.ch[(0 : Byte).toNat]? = some (.wt waveVoice) ∧ WaveVoiceLegal waveVoice := by
  decide +kernel

/-- ModulationSums: outputs that agree below an operator and not at it. -/
theorem witness_ModulationSums : ∀ i : Fin 4, i.val < 1 →
    quadGet ({ o0 := one, o1 := zero, o2 := zero, o3 := zero } : Quad Num32) i =
      quadGet ({ o0 := one, o1 := half, o2 := zero, o3 := zero } : Quad Num32) i := by decide +kernel

theorem witness_FmTicks : playing.engine.ch[(1 : Byte).toNat]? = some (.fm fmVoice) ∧ FMVoiceLegal fmVoice ∧
    ChannelTame (.fm fmVoice) :=
  ⟨by decide +kernel, legal_fmVoice, witness_channels _ (by simp [playing, withVoices])⟩
/-- Its refusal: operator 2 overflows once operators 0 and 1 have given 1.0 each. -/
theorem witness_FmTicks_refused : overflowing.engine.ch[(1 : Byte).toNat]? = some (.fm hugeVoice) ∧ FMVoiceLegal hugeVoice ∧
    algDef overflowing.params.algTable hugeVoice.alg = tableDouble[0] ∧
    refusal (exec (.fmTick 1) overflowing) = some .nonfiniteInput :=
  ⟨by decide +kernel, legal_hugeVoice, by decide +kernel, by decide +kernel⟩

/-- EnvBuilds: a definition that is accepted; one that is not. -/
theorem witness_EnvBuilds : envOk eAdsr fs8 = true ∧ envOk eBad fs8 = false := by decide +kernel

/-- EnvTicks: an envelope of either kind of voice; every stage and activity is one of its cases. -/
theorem witness_EnvTicks : envOf ch0 playing.engine = some waveVoice.env ∧ envOf (ch1 0) playing.engine = some fmVoice.op.o0.env ∧
    waveVoice.env.stage = .sustain ∧ fmVoice.op.o0.env.stage = .idle := by decide +kernel

/-- LevelRange, its clamp: a level in range after the tick, one below it, one above it. -/
theorem witness_LevelRange_clamp : InUnit (envTick (env .sustain 0 one one 1 1 4 quarter) .On).2.level ∧
    F32.lt (envTick (env .sustain 0 one one 1 1 4 0xBF800000#32) .On).2.level F32.posZero = true ∧
    F32.lt F32.one (envTick (env .sustain 0 one one 1 1 4 two) .On).2.level = true := by decide +kernel
/-- LevelRange: a release in its last tick. -/
theorem witness_LevelRange : EnvLegal (env .release 3 quarter one 1 1 4 one) ∧ LevelLegal (env .release 3 quarter one 1 1 4 one) ∧
    (env .release 3 quarter one 1 1 4 one).nr.toNat ≤ 2 ^ 24 := by decide +kernel

/-- AdsrPath, TriggerPath: E_ADSR at rest and held; stages of one tick too. -/
theorem witness_paths : let e := env .idle 0 zero zero 2 2 4 half
    1 ≤ e.na.toNat ∧ 1 ≤ e.nd.toNat ∧ 1 ≤ e.nr.toNat ∧ e.stage = .idle ∧ 1 < e.na.toNat ∧ 3 < e.nr.toNat ∧
      (env .sustain 0 half half 1 1 1 half).stage = .sustain := by decide +kernel

/-- ArithmeticRounds: finite operands, a divisor that is not 0, the largest exact integer. -/
theorem witness_ArithmeticRounds : F32.isFinite 0x7F7FFFFF#32 = true ∧ F32.isFinite 0x00000001#32 = true ∧
    F32.toRat 0x00000001#32 ≠ 0 ∧ 2 ^ 24 ≤ 2 ^ 24 := by
  refine ⟨by decide, by decide, ?_, le_refl _⟩
  unfold F32.toRat
  have : F32.toInt 0x00000001#32 = 1 := by decide +kernel
  rw [this]
  norm_num

end Sys2Proof.Tests
end

section
/-! PROOFS. The arithmetic of binary32 against its rational values (00_scope.md R8): each operation on finite operands is
one rounding of the exact result; the comparisons and `num` are exact. -/

namespace Sys2Proof.Machine.F32

/-- `x` is the binary32 result of the exact value `e`: finite exactly below the overflow threshold, and then no finite
number is nearer, an even one being taken of two as near (R8). -/
def RoundsTo (x : Num32) (e : ℚ) : Prop :=
  (isFinite x = true ↔ |e| < 2 ^ 128 - 2 ^ 103) ∧
    (isFinite x = true → ∀ c, isFinite c = true →
      |toRat x - e| < |toRat c - e| ∨ (|toRat x - e| = |toRat c - e| ∧ (toRat x = toRat c ∨ x.getLsbD 0 = false)))

/-- A number whose units are one rounding of `n / d` is the result of any exact value that is `n / d` units. -/
theorem roundsTo_of_toInt_eq_roundInt {x : Num32} {n : Int} {d : Nat} {e : ℚ} (h : toInt x = roundInt n d) (hd : 0 < d)
    (he : e * (d * 2 ^ 149) = n) : RoundsTo x e := by
  obtain ⟨hfin, hnear⟩ := rounds_of_roundInt h hd he
  exact ⟨hfin, fun hf c _ => hnear hf c⟩

/-- The value counted in units of 2^-149. -/
theorem toRat_mul_units (x : Num32) : toRat x * 2 ^ 149 = toInt x :=
  div_mul_cancel₀ _ (by positivity)

theorem toRat_ne_zero_iff (x : Num32) : toRat x ≠ 0 ↔ toInt x ≠ 0 := by
  rw [← toRat_zero, Ne, toRat_eq, toInt_posZero]

/-! ## The four operations -/

section
variable {a b : Num32} (ha : isFinite a = true) (hb : isFinite b = true)
include ha hb

theorem add_roundsTo : RoundsTo (add a b) (toRat a + toRat b) := by
  refine roundsTo_of_toInt_eq_roundInt (toInt_add ha hb).1 one_pos ?_
  rw [Nat.cast_one, one_mul, add_mul, toRat_mul_units, toRat_mul_units, Int.cast_add]

theorem sub_roundsTo : RoundsTo (sub a b) (toRat a - toRat b) := by
  refine roundsTo_of_toInt_eq_roundInt (toInt_sub ha hb).1 one_pos ?_
  rw [Nat.cast_one, one_mul, sub_mul, toRat_mul_units, toRat_mul_units, Int.cast_sub]

theorem mul_roundsTo : RoundsTo (mul a b) (toRat a * toRat b) := by
  refine roundsTo_of_toInt_eq_roundInt (toInt_mul ha hb).1 (by positivity) ?_
  rw [Nat.cast_pow, Nat.cast_ofNat, mul_mul_mul_comm, toRat_mul_units, toRat_mul_units, Int.cast_mul]

/-- The divisor enters `roundInt` by its magnitude, so its sign is moved to the dividend. -/
theorem div_roundsTo (h0 : toRat b ≠ 0) : RoundsTo (div a b) (toRat a / toRat b) := by
  have hb0 : toInt b ≠ 0 := (toRat_ne_zero_iff b).mp h0
  refine roundsTo_of_toInt_eq_roundInt (toInt_div ha hb hb0).1 (Int.natAbs_pos.mpr hb0) ?_
  have hquot : toRat a / toRat b * ((toInt b : ℚ) * 2 ^ 149) = ((toInt a * 2 ^ 149 : Int) : ℚ) := by
    rw [Int.cast_mul, Int.cast_pow, Int.cast_ofNat, ← toRat_mul_units a, ← toRat_mul_units b]
    field_simp
  rw [Nat.cast_natAbs]
  split
  case isTrue hneg => rw [abs_of_neg hneg, Int.cast_neg, neg_mul, mul_neg, hquot, Int.cast_neg]
  case isFalse hpos => rw [abs_of_nonneg (not_lt.mp hpos), hquot]

/-! ## The comparisons -/

theorem lt_iff_toRat : lt a b = true ↔ toRat a < toRat b := by
  rw [lt_iff (not_isNaN_of_isFinite ha) (not_isNaN_of_isFinite hb), toRat_lt]

theorem le_iff_toRat : le a b = true ↔ toRat a ≤ toRat b := by
  rw [le_iff (not_isNaN_of_isFinite ha) (not_isNaN_of_isFinite hb), toRat_le]

theorem eq_iff_toRat : eq a b = true ↔ toRat a = toRat b := by
  rw [eq_iff (not_isNaN_of_isFinite ha) (not_isNaN_of_isFinite hb), toRat_eq]

end

theorem min_eq_or (a b : Num32) : min a b = a ∨ min a b = b := ite_eq_or_eq _ _ _

theorem max_eq_or (a b : Num32) : max a b = a ∨ max a b = b := ite_eq_or_eq _ _ _

/-! ## num -/

theorem toRat_ofNat {n : Nat} (h : n ≤ 2 ^ 24) : toRat (ofNat n) = n := by
  rw [toRat, toInt_ofNat_exact h, Int.cast_mul, Int.cast_pow, Int.cast_ofNat, Int.cast_natCast]
  exact mul_div_cancel_right₀ _ (by positivity)

/-- Settles O60: each of the four operations is one `roundInt` of the exact result, which rounds to nearest even; the
other operations are read off the units of their operands. -/
theorem arithmeticRounds : Obligations.ArithmeticRounds := by
  unfold Obligations.ArithmeticRounds
  refine ⟨fun a b ha hb => ?_, fun n hn => ⟨isFinite_ofNat (hn.trans (by decide)), toRat_ofNat hn⟩⟩
  have hna := not_isNaN_of_isFinite ha
  have hnb := not_isNaN_of_isFinite hb
  exact ⟨add_roundsTo ha hb, sub_roundsTo ha hb, mul_roundsTo ha hb, div_roundsTo ha hb,
    (floor_toRat a).symm, lt_iff_toRat ha hb, le_iff_toRat ha hb, eq_iff_toRat ha hb,
    min_eq_or a b, toRat_min hna hnb, max_eq_or a b, toRat_max hna hnb,
    (clamp01_inUnit a).1, toRat_clamp01 ha, toRat_fmod ha hb⟩

end Sys2Proof.Machine.F32
end

section
/-! PROOFS. FAULT against LOG (10_state.md R32, 60_exceptions.md R282, R288): whatever a step appends to LOG, the bits of
the faults among it are ORed into FAULT, so the two go on agreeing. -/

namespace Sys2Proof.Machine

/-- What a step that completes did to FAULT and LOG. -/
theorem step_logStep {s t : State} (h : step s = .next t) : LogStep s t := by
  rcases step_cases h with ⟨-, rfl⟩ | ⟨ev, rest, -, ⟨i, -, hexec⟩ | ⟨f, -, rfl⟩⟩
  · exact .refl rfl rfl
  · exact (LogStep.refl (takeInput_log ev rest s) (takeInput_fault ev rest s)).trans (exec_logStep hexec)
  · exact (LogStep.refl (takeInput_log ev rest s) (takeInput_fault ev rest s)).trans (logStep_raise f _)

theorem LogStep.faultLogInv {s t : State} (h : LogStep s t) (hs : FaultLogInv s) : FaultLogInv t := by
  obtain ⟨es, hlog, hfault⟩ := h
  calc t.fault = s.fault ||| faultBitsOf es := hfault
    _ = faultBitsOf s.log ||| faultBitsOf es := congrArg (· ||| faultBitsOf es) hs
    _ = faultBitsOf t.log := by rw [hlog, faultBitsOf_append]

/-- Settles O10: a step only appends to LOG, and FAULT takes the bits of what it appends. -/
theorem faultLogKept : Obligations.FaultLogKept := by
  intro s t hs hstep
  exact (step_logStep hstep).faultLogInv hs

end Sys2Proof.Machine
end

section
/-! PROOFS. Which operation may write which register (10_state.md R31 to R35, 60_exceptions.md R290, R296): one table of
what each operation can write, which every operation that completes keeps to; the register-by-register rules are read
off the table. -/

namespace Sys2Proof.Machine

/-! ## The table -/

/-- `s` with FAULT, LOG and the returned value of `t`, which belong to no one operation (R32, R282). -/
def withRecord (s t : State) : State := { s with fault := t.fault, log := t.log, result := t.result }

/-- `s` with `r` as the value returned. -/
def returning (r : StepResult) (s : State) : State := { s with result := r }

/-- `s` with the registers that operation `i` may write taken from `t`. -/
def writtenBy (i : Instr) (s t : State) : State :=
  match i with
  | .stop => { withRecord s t with stop := true }
  | .snapshot => { withRecord s t with savePort := t.savePort }
  | .enqueue _ => { withRecord s t with cmdq := t.cmdq }
  | .drain | .renderFrame _ => { withRecord s t with engine := { t.engine with fs := s.engine.fs }, cmdq := t.cmdq }
  | .producerStep =>
    { withRecord s t with
      engine := { t.engine with fs := s.engine.fs }, cmdq := t.cmdq, outq := t.outq, tap := t.tap }
  | .callbackPull _ | .nextSample => { s with log := t.log, cur := t.cur, outq := t.outq, result := t.result }
  | .soundRomInstanceChanged _ => { withRecord s t with engine := { t.engine with ch := s.engine.ch, fs := s.engine.fs } }
  | .wrap _ _ | .lerp _ _ | .envBuild _ _ | .romValidate _ _ | .voiceNew _ _ _ => withRecord s t
  | .pianoKeyPressed _ _ _ | .pianoKeyReleased _ | .triggerNote _ _ _ | .restore | .setFrequency _ _ | .oscTick _
  | .voiceTick _ | .fmTick _ | .envTick _ _ | .mixTick => { withRecord s t with engine := { s.engine with ch := t.engine.ch } }

/-! ## Every operation keeps to the table -/

theorem setOsc_eq_ch (r : UnitRef) (o : Osc) (d : SoundEngineData) : setOsc r o d = { d with ch := (setOsc r o d).ch } := by
  unfold setOsc; split <;> rfl

theorem setEnv_eq_ch (r : UnitRef) (e : Env) (d : SoundEngineData) : setEnv r e d = { d with ch := (setEnv r e d).ch } := by
  unfold setEnv; split <;> rfl

/-- A note command writes a channel or raises a fault (R228, R230). -/
theorem startNote_writes {w : Word} {note inst ch : Byte} {active : ActiveState} {s t : State}
    (h : startNote w note inst ch active s = .ok t) :
    t = { withRecord s t with engine := { s.engine with ch := t.engine.ch } } := by
  unfold startNote at h
  split at h
  · cases h; rfl
  · split at h
    · cases h; rfl
    · split at h
      · cases h
      · cases h; rfl

/-- A release writes a channel or raises a fault (R231). -/
theorem releaseKey_writes (w : Word) (ch : Byte) (s : State) :
    releaseKey w ch s = { withRecord s (releaseKey w ch s) with
      engine := { s.engine with ch := (releaseKey w ch s).engine.ch } } := by
  unfold releaseKey
  split
  · rfl
  · split <;> rfl

/-- A ROM change writes the ROM binding or raises a fault (R232). -/
theorem changeRom_writes (w : Word) (slot : BitVec 24) (s : State) :
    changeRom w slot s = { withRecord s (changeRom w slot s) with
      engine := { (changeRom w slot s).engine with ch := s.engine.ch, fs := s.engine.fs } } := by
  unfold changeRom
  split
  · rfl
  · split <;> rfl

theorem drain_writes {s t : State} (h : drain s = .ok t) : t = writtenBy .drain s t := by
  obtain ⟨hparams, hfs, -, hstop, hrefused, -, houtq, hcur, hport, -, htap, hinputs⟩ := drain_frame h
  simp only [writtenBy, withRecord]
  rw [← hparams, ← hfs, ← hstop, ← hrefused, ← houtq, ← hcur, ← hport, ← htap, ← hinputs]

theorem renderFrame_writes {n : Nat} {s t : State} {b : Frame} (h : renderFrame n s = .ok (b, t)) :
    t = writtenBy .drain s t := by
  obtain ⟨-, hparams, hfs, -, hstop, hrefused, -, houtq, hcur, hport, -, htap, hinputs⟩ := renderFrame_frame h
  simp only [writtenBy, withRecord]
  rw [← hparams, ← hfs, ← hstop, ← hrefused, ← houtq, ← hcur, ← hport, ← htap, ← hinputs]

theorem producerStep_writes {s t : State} {r : ProducerResult} (h : producerStep s = .ok (t, r)) :
    t = writtenBy .producerStep s t := by
  rcases producerStep_cases h with ⟨-, rfl, -⟩ | ⟨-, -, rfl, -⟩ | ⟨-, -, -, b, u, hu, rfl⟩
  · rfl
  · rfl
  · exact congrArg (fun v : State => { v with outq := u.outq ++ [b], tap := some b }) (renderFrame_writes hu)

/-- An operation that completes writes nothing but what the table lists for it. -/
theorem exec_writes {i : Instr} {s t : State} (h : exec i s = .next t) : t = writtenBy i s t := by
  cases i with
  | pianoKeyPressed note inst ch =>
    obtain ⟨u, hu, rfl⟩ := answer_next h
    exact congrArg (returning .none) (startNote_writes hu)
  | pianoKeyReleased ch =>
    cases h
    exact congrArg (returning .none) (releaseKey_writes _ ch s)
  | triggerNote note inst ch =>
    obtain ⟨u, hu, rfl⟩ := answer_next h
    exact congrArg (returning .none) (startNote_writes hu)
  | soundRomInstanceChanged slot =>
    cases h
    exact congrArg (returning .none) (changeRom_writes _ slot s)
  | renderFrame n =>
    obtain ⟨⟨b, u⟩, hu, rfl⟩ := answer_next h
    exact congrArg (returning (.frame b)) (renderFrame_writes hu)
  | snapshot => cases h; rfl
  | restore =>
    obtain ⟨u, hu, rfl⟩ := answer_next h
    rw [(restore_cases hu).2.1]
    rfl
  | producerStep =>
    obtain ⟨⟨u, r⟩, hu, rfl⟩ := answer_next h
    exact congrArg (returning (.producer r)) (producerStep_writes hu)
  | callbackPull n =>
    cases h
    exact congrArg (returning (.samples (pullSamples n.toNat s).1)) (pullSamples_frame n.toNat s)
  | stop => cases h; rfl
  | enqueue w => cases h; rfl
  | setFrequency r hz =>
    obtain ⟨o, -, rfl⟩ := answer_next h
    exact congrArg (fun d => { s with engine := d, result := .none }) (setOsc_eq_ch r o s.engine)
  | wrap x len => obtain ⟨y, -, rfl⟩ := answer_next h; rfl
  | oscTick r =>
    obtain ⟨⟨p, o⟩, -, rfl⟩ := answer_next h
    exact congrArg (fun d => { s with engine := d, result := .num p }) (setOsc_eq_ch r o s.engine)
  | lerp table q => obtain ⟨y, -, rfl⟩ := answer_next h; rfl
  | voiceTick ch => obtain ⟨yv, -, rfl⟩ := answer_next h; rfl
  | fmTick ch => obtain ⟨yv, -, rfl⟩ := answer_next h; rfl
  | envBuild defn fs => cases h; rfl
  | envTick r active =>
    obtain ⟨e, -, rfl⟩ := answer_next h
    exact congrArg (fun d => { s with engine := d, result := .num (envTick e active).1 })
      (setEnv_eq_ch r (envTick e active).2 s.engine)
  | romValidate rom slot =>
    simp only [exec, execRomValidate] at h
    split at h
    · cases h; rfl
    · cases h; rfl
  | voiceNew entry note active => obtain ⟨c, -, rfl⟩ := answer_next h; rfl
  | drain =>
    obtain ⟨u, hu, rfl⟩ := answer_next h
    exact congrArg (returning .none) (drain_writes hu)
  | mixTick => obtain ⟨yc, -, rfl⟩ := answer_next h; rfl
  | nextSample =>
    cases h
    exact congrArg (returning (.num (nextSample s).1)) (nextSample_frame s)

/-! ## The table, register by register -/

section
variable (i : Instr) (s t : State)

@[simp] theorem writtenBy_params : (writtenBy i s t).params = s.params := by cases i <;> rfl
@[simp] theorem writtenBy_fs : (writtenBy i s t).engine.fs = s.engine.fs := by cases i <;> rfl
@[simp] theorem writtenBy_refused : (writtenBy i s t).refused = s.refused := by cases i <;> rfl
@[simp] theorem writtenBy_inputs : (writtenBy i s t).inputs = s.inputs := by cases i <;> rfl

end

section
variable {i : Instr} {s t : State}

theorem writtenBy_stop (h : i ≠ .stop) : (writtenBy i s t).stop = s.stop := by
  cases i with
  | stop => exact absurd rfl h
  | _ => rfl

/-- STOP is never taken back (R247). -/
theorem writtenBy_stop_sticky (h : s.stop = true) : (writtenBy i s t).stop = true := by
  cases i with
  | stop => rfl
  | _ => exact h

theorem writtenBy_savePort (h : i ≠ .snapshot) : (writtenBy i s t).savePort = s.savePort := by
  cases i with
  | snapshot => exact absurd rfl h
  | _ => rfl

theorem writtenBy_tap (h : i ≠ .producerStep) : (writtenBy i s t).tap = s.tap := by
  cases i with
  | producerStep => exact absurd rfl h
  | _ => rfl

theorem writtenBy_cmdq (he : ∀ w, i ≠ .enqueue w) (hd : i ≠ .drain) (hr : ∀ n, i ≠ .renderFrame n)
    (hp : i ≠ .producerStep) : (writtenBy i s t).cmdq = s.cmdq := by
  cases i with
  | enqueue w => exact absurd rfl (he w)
  | drain => exact absurd rfl hd
  | renderFrame n => exact absurd rfl (hr n)
  | producerStep => exact absurd rfl hp
  | _ => rfl

theorem writtenBy_cur (hc : ∀ n, i ≠ .callbackPull n) (hn : i ≠ .nextSample) : (writtenBy i s t).cur = s.cur := by
  cases i with
  | callbackPull n => exact absurd rfl (hc n)
  | nextSample => exact absurd rfl hn
  | _ => rfl

theorem writtenBy_outq (hc : ∀ n, i ≠ .callbackPull n) (hn : i ≠ .nextSample) (hp : i ≠ .producerStep) :
    (writtenBy i s t).outq = s.outq := by
  cases i with
  | callbackPull n => exact absurd rfl (hc n)
  | nextSample => exact absurd rfl hn
  | producerStep => exact absurd rfl hp
  | _ => rfl

theorem writtenBy_rom (hc : ∀ k, i ≠ .soundRomInstanceChanged k) (hd : i ≠ .drain) (hr : ∀ n, i ≠ .renderFrame n)
    (hp : i ≠ .producerStep) :
    (writtenBy i s t).engine.romId = s.engine.romId ∧ (writtenBy i s t).engine.rom = s.engine.rom := by
  cases i with
  | soundRomInstanceChanged k => exact absurd rfl (hc k)
  | drain => exact absurd rfl hd
  | renderFrame n => exact absurd rfl (hr n)
  | producerStep => exact absurd rfl hp
  | _ => exact ⟨rfl, rfl⟩

theorem writtenBy_ch (h : i = .snapshot ∨ i = .stop ∨ (∃ w, i = .enqueue w) ∨ (∃ n, i = .callbackPull n) ∨
    i = .nextSample ∨ (∃ x l, i = .wrap x l) ∨ (∃ x q, i = .lerp x q) ∨ (∃ d f, i = .envBuild d f) ∨
    (∃ r k, i = .romValidate r k) ∨ (∃ e n a, i = .voiceNew e n a) ∨ ∃ k, i = .soundRomInstanceChanged k) :
    (writtenBy i s t).engine.ch = s.engine.ch := by
  rcases h with rfl | rfl | ⟨_, rfl⟩ | ⟨_, rfl⟩ | rfl | ⟨_, _, rfl⟩ | ⟨_, _, rfl⟩ | ⟨_, _, rfl⟩ | ⟨_, _, rfl⟩ |
    ⟨_, _, _, rfl⟩ | ⟨_, rfl⟩ <;> rfl

end

/-- CUR never returns to None (R35). -/
theorem exec_cur_loaded {i : Instr} {s t : State} (h : exec i s = .next t) (hs : s.cur ≠ none) : t.cur ≠ none := by
  cases i with
  | callbackPull n => cases h; exact pullSamples_loaded n.toNat hs
  | nextSample => cases h; exact nextSample_loaded hs
  | _ => rw [exec_writes h]; exact hs

/-! ## Whole steps -/

/-- Only CALLBACK_PULL belongs to an agent other than the Producer (R95). -/
theorem eq_callbackPull_of_agent_ne_producer {c : Control} (h : c.agent ≠ .producer) : ∃ n, c = .callbackPull n := by
  cases c with
  | callbackPull n => exact ⟨n, rfl⟩
  | _ => exact absurd rfl h

/-- A control word of another agent runs only as CALLBACK_PULL (R95, R296). -/
theorem resolve_control_run {a : Agent} {w : Word} {save : Option SoundEngineData} {i : Instr} (ha : a ≠ .producer)
    (h : resolve (.control a w save) = .run i) : ∃ n, i = .callbackPull n := by
  simp only [resolve] at h
  split at h
  · cases h
  · next c _ =>
    split at h
    · next hagent =>
      cases h
      obtain ⟨n, rfl⟩ := eq_callbackPull_of_agent_ne_producer (hagent ▸ ha)
      exact ⟨n, rfl⟩
    · cases h

/-- What a step with `ev` pending is: the operation `ev` resolves to, or a rejected word. -/
theorem step_pending {s t : State} {ev : PortEvent} {rest : List PortEvent} (hin : s.inputs = ev :: rest)
    (h : step s = .next t) :
    (∃ i, resolve ev = .run i ∧ exec i (takeInput ev rest s) = .next t) ∨
      ∃ f, resolve ev = .reject f ∧ t = rejectWord f (takeInput ev rest s) := by
  rcases step_cases h with ⟨hnil, -⟩ | ⟨ev', rest', hcons, hstep⟩
  · rw [hin] at hnil; cases hnil
  · rw [hin] at hcons; cases hcons; exact hstep

/-- A control word of the Callback or the Editor writes CUR, OUTQ, what it records and what it returns (R296). -/
theorem step_control_writes {s t : State} {a : Agent} {w : Word} {save : Option SoundEngineData}
    {rest : List PortEvent} (hin : s.inputs = .control a w save :: rest) (ha : a ≠ .producer) (h : step s = .next t) :
    t = { withRecord s t with inputs := rest, cur := t.cur, outq := t.outq } := by
  have htake : takeInput (.control a w save) rest s = { s with inputs := rest } := by
    simp [takeInput, portValue_control, ha]
  rcases step_pending hin h with ⟨i, hrun, hexec⟩ | ⟨f, -, rfl⟩
  · obtain ⟨n, rfl⟩ := resolve_control_run ha hrun
    rw [htake] at hexec
    rw [exec_writes hexec]
    rfl
  · rw [htake]
    rfl

/-- The Editor's command word is appended to CMDQ (R222). -/
theorem step_command {s t : State} {w : Word} {rest : List PortEvent} (hin : s.inputs = .command w :: rest)
    (h : step s = .next t) : t = { s with inputs := rest, cmdq := s.cmdq ++ [w], result := .none } := by
  rcases step_pending hin h with ⟨i, hrun, hexec⟩ | ⟨f, hreject, -⟩
  · cases hrun; cases hexec; rfl
  · cases hreject

/-- A step that completes leaves REFUSED alone (R290). -/
theorem step_refused {s t : State} (h : step s = .next t) : t.refused = s.refused := by
  rcases step_cases h with ⟨-, rfl⟩ | ⟨ev, rest, -, ⟨i, -, hexec⟩ | ⟨f, -, rfl⟩⟩
  · rfl
  · rw [exec_writes hexec, writtenBy_refused, takeInput_refused]
  · rfl

/-- Settles O42: the clauses on one operation are the table `writtenBy`, register by register; those on a whole step
come down to the operation its word resolves to. -/
theorem whoWrites : Obligations.WhoWrites := by
  unfold Obligations.WhoWrites
  refine ⟨fun s t a w save rest hin ha h => step_control_writes hin ha h, fun s t w rest hin h => step_command hin h,
    fun s r h => observe_refused h, fun s t h => ⟨observe_next h, step_refused h⟩, fun i s t h => ?_⟩
  have hcur := exec_cur_loaded h
  rw [exec_writes h] at hcur ⊢
  exact ⟨writtenBy_params i s t, writtenBy_fs i s t, writtenBy_refused i s t, writtenBy_inputs i s t,
    writtenBy_stop, writtenBy_stop_sticky, writtenBy_savePort, writtenBy_tap, writtenBy_cmdq, writtenBy_cur, hcur,
    writtenBy_outq, writtenBy_rom, writtenBy_ch⟩

end Sys2Proof.Machine
end

section
/-! PROOFS. The transport of words as bytes (20_memory.md R67): the four bytes of a word, low byte first, give the word
back. -/

namespace Sys2Proof

/-- Reading the bytes of a word gives the word, since every word is its four fields. -/
theorem wordOfBytes_bytesOfWord (w : Word) (rest : List Byte) :
    wordOfBytes (bytesOfWord w ++ rest) = some (w, rest) :=
  calc wordOfBytes (bytesOfWord w ++ rest)
    _ = some (opc w ++ fieldCh w ++ fieldInst w ++ fieldNote w, rest) := rfl
    _ = some (w, rest) := by rw [word_of_bytes]

/-- A byte stream decodes as the word at its head. -/
theorem decodeBytes_of_wordOfBytes {bs rest : List Byte} {w : Word} (h : wordOfBytes bs = some (w, rest)) :
    decodeBytes bs = (decodeWord w).map (fun i => (i, rest)) := by
  simp only [decodeBytes, h]

/-- Settles O5: the word is put together again from its four fields. -/
theorem wordTransport : Obligations.WordTransport := by
  intro w rest
  exact ⟨rfl, wordOfBytes_bytesOfWord w rest, decodeBytes_of_wordOfBytes (wordOfBytes_bytesOfWord w rest)⟩

end Sys2Proof
end

section
/-! PROOFS. Every step keeps one slot per channel and a valid bound ROM (10_state.md R29, R31; 20_memory.md R64). The table
`writtenBy` leaves only the operations that write CH, or the ROM binding, to look at. -/

namespace Sys2Proof.Machine

/-! ## One slot per channel -/

theorem mixTick_length {table : Vector AlgorithmDefinition 10} {cs cs' : List Channel} {y : Num32}
    (h : mixTick table cs = .ok (y, cs')) : cs'.length = cs.length := by
  rw [mixChannels_after h, List.length_map]

theorem producerStep_length {s t : State} {r : ProducerResult} (h : producerStep s = .ok (t, r)) :
    t.engine.ch.length = s.engine.ch.length := by
  rcases producerStep_cases h with ⟨-, rfl, -⟩ | ⟨-, -, rfl, -⟩ | ⟨-, -, -, b, u, hu, rfl⟩
  · rfl
  · rfl
  · obtain ⟨-, -, -, hlen, -⟩ := renderFrame_frame hu
    exact hlen

theorem ApplyEffect.length {s t : State} (h : ApplyEffect s t) : t.engine.ch.length = s.engine.ch.length := by
  obtain ⟨-, -, hlen, -⟩ := h.frame
  exact hlen

/-- An operation writes channels in place, but for RESTORE, which takes only a value with NUM_CHANNELS slots (R245). -/
theorem exec_slots {i : Instr} {s t : State} (hs : s.engine.ch.length = s.params.numChannels)
    (h : exec i s = .next t) : t.engine.ch.length = s.params.numChannels := by
  cases i with
  | restore =>
    obtain ⟨u, hu, rfl⟩ := answer_next h
    obtain ⟨-, rfl, hlen⟩ := restore_cases hu
    exact hlen
  | pianoKeyPressed note inst ch =>
    obtain ⟨u, hu, rfl⟩ := answer_next h
    exact (startNote_effect hu).length.trans hs
  | pianoKeyReleased ch => cases h; exact (releaseKey_effect _ ch s).length.trans hs
  | triggerNote note inst ch =>
    obtain ⟨u, hu, rfl⟩ := answer_next h
    exact (startNote_effect hu).length.trans hs
  | renderFrame n =>
    obtain ⟨⟨b, u⟩, hu, rfl⟩ := answer_next h
    obtain ⟨-, -, -, hlen, -⟩ := renderFrame_frame hu
    exact hlen.trans hs
  | producerStep =>
    obtain ⟨⟨u, r⟩, hu, rfl⟩ := answer_next h
    exact (producerStep_length hu).trans hs
  | drain =>
    obtain ⟨u, hu, rfl⟩ := answer_next h
    obtain ⟨-, -, hlen, -⟩ := drain_frame hu
    exact hlen.trans hs
  | mixTick =>
    obtain ⟨⟨y, cs⟩, hu, rfl⟩ := answer_next h
    exact (mixTick_length hu).trans hs
  | setFrequency r hz =>
    obtain ⟨o, -, rfl⟩ := answer_next h
    exact (setOsc_length r o s.engine).trans hs
  | oscTick r =>
    obtain ⟨⟨p, o⟩, -, rfl⟩ := answer_next h
    exact (setOsc_length r o s.engine).trans hs
  | envTick r active =>
    obtain ⟨e, -, rfl⟩ := answer_next h
    exact (setEnv_length r _ s.engine).trans hs
  | voiceTick ch => obtain ⟨yv, -, rfl⟩ := answer_next h; exact List.length_set.trans hs
  | fmTick ch => obtain ⟨yv, -, rfl⟩ := answer_next h; exact List.length_set.trans hs
  | _ => rw [exec_writes h]; exact hs

theorem exec_shapeInv {i : Instr} {s t : State} (hs : ShapeInv s) (h : exec i s = .next t) : ShapeInv t := by
  obtain ⟨hslots, hrefused⟩ := hs
  have hlen := exec_slots hslots h
  have hw := exec_writes h
  refine ⟨?_, ?_⟩
  · rw [hlen, hw, writtenBy_params]
  · rw [hw, writtenBy_refused, hrefused]

/-! ## The ROM binding -/

/-- The binding is read from the parameters, ROM_ID, ROM and FS alone. -/
theorem RomInv.congr {s t : State} (hs : RomInv s) (hp : t.params = s.params) (hid : t.engine.romId = s.engine.romId)
    (hrom : t.engine.rom = s.engine.rom) (hfs : t.engine.fs = s.engine.fs) : RomInv t := by
  unfold RomInv
  rw [hp, hid, hrom, hfs]
  exact hs

theorem drain_romInv {s t : State} (hs : RomInv s) (h : drain s = .ok t) : RomInv t :=
  drain_keeps (P := RomInv) (fun _ _ => romInv_apply) (fun _ hu => hu) hs h

theorem renderFrame_romInv {n : Nat} {s t : State} {b : Frame} (hs : RomInv s) (h : renderFrame n s = .ok (b, t)) :
    RomInv t :=
  renderFrame_keeps (P := RomInv) (fun _ _ => romInv_apply) (fun _ hu => hu) (fun _ _ hu => hu) hs h

theorem producerStep_romInv {s t : State} {r : ProducerResult} (hs : RomInv s) (h : producerStep s = .ok (t, r)) :
    RomInv t := by
  rcases producerStep_cases h with ⟨-, rfl, -⟩ | ⟨-, -, rfl, -⟩ | ⟨-, -, -, b, u, hu, rfl⟩
  · exact hs
  · exact hs
  · exact (renderFrame_romInv hs hu).congr rfl rfl rfl rfl

/-- The ROM binding changes only by SOUND_ROM_INSTANCE_CHANGED, driven or in a drain, which checks the new one (R232). -/
theorem exec_romInv {i : Instr} {s t : State} (hs : RomInv s) (h : exec i s = .next t) : RomInv t := by
  cases i with
  | soundRomInstanceChanged slot =>
    cases h
    exact (romInv_apply hs (changeRom_effect _ slot s)).congr rfl rfl rfl rfl
  | drain =>
    obtain ⟨u, hu, rfl⟩ := answer_next h
    exact (drain_romInv hs hu).congr rfl rfl rfl rfl
  | renderFrame n =>
    obtain ⟨⟨b, u⟩, hu, rfl⟩ := answer_next h
    exact (renderFrame_romInv hs hu).congr rfl rfl rfl rfl
  | producerStep =>
    obtain ⟨⟨u, r⟩, hu, rfl⟩ := answer_next h
    exact (producerStep_romInv hs hu).congr rfl rfl rfl rfl
  | _ => rw [exec_writes h]; exact hs.congr rfl rfl rfl rfl

/-! ## Whole steps -/

/-- What taking a step off the order, every operation and the rejection of a word keep, a step keeps. -/
theorem step_keeps {P : State → Prop} (htake : ∀ ev rest s, P s → P (takeInput ev rest s))
    (hexec : ∀ i s t, P s → exec i s = .next t → P t) (hreject : ∀ f s, P s → P (rejectWord f s)) {s t : State}
    (hs : P s) (h : step s = .next t) : P t := by
  rcases step_cases h with ⟨-, rfl⟩ | ⟨ev, rest, -, ⟨i, -, he⟩ | ⟨f, -, rfl⟩⟩
  · exact hs
  · exact hexec i _ t (htake ev rest s hs) he
  · exact hreject f _ (htake ev rest s hs)

/-- Settles O43: no operation changes the number of slots to another than NUM_CHANNELS, and the one that changes the ROM
binding validates the ROM it names. -/
theorem bindingKept : Obligations.BindingKept := by
  rintro s t ⟨hshape, hrom⟩ hstep
  have hshape' : ShapeInv t :=
    step_keeps (P := ShapeInv) (fun _ _ _ hu => hu) (fun _ _ _ => exec_shapeInv) (fun _ _ hu => hu) hshape hstep
  have hrom' : RomInv t :=
    step_keeps (P := RomInv) (fun _ _ _ hu => hu) (fun _ _ _ => exec_romInv) (fun _ _ hu => hu) hrom hstep
  exact ⟨hshape', hrom'⟩

end Sys2Proof.Machine
end

section
/-! PROOFS. A step runs what the step at the head of the order resolves to (20_memory.md R70; 30_encoding.md R90, R97). -/

namespace Sys2Proof.Machine

/-- A step that resolves to an operation is that operation. -/
theorem step_of_resolve_run {s : State} {ev : PortEvent} {rest : List PortEvent} {i : Instr}
    (hin : s.inputs = ev :: rest) (hrun : resolve ev = .run i) : step s = exec i (takeInput ev rest s) := by
  simp only [step, hin, hrun]

theorem step_of_no_inputs {s : State} (h : s.inputs = []) : step s = .next s := by
  simp only [step, h]

/-- A control word written by its agent resolves to its operation (R95). -/
theorem resolve_control {w : Word} {c : Control} (h : decodeCtl w = some c) (save : Option SoundEngineData) :
    resolve (.control c.agent w save) = .run c.toInstr := by
  simp only [resolve, h, if_true]

/-- An applied word resolves to its command (R94). -/
theorem resolve_apply {w : Word} {c : Command} (h : decodeCmd w = some c) : resolve (.apply w) = .run c.toInstr := by
  simp only [resolve, h]

/-- A control word written by its agent brings a value to the state-save port only where it is RESTORE (R245). -/
theorem portValue_agent {w : Word} {c : Control} (h : decodeCtl w = some c) (save : Option SoundEngineData) (s : State) :
    portValue (.control c.agent w save) s = if c = .restore then save.getD s.savePort else s.savePort := by
  have hrestore : (c.agent = .producer ∧ decodeCtl w = some .restore) ↔ c = .restore := by
    rw [h, Option.some_inj]
    exact ⟨And.right, fun hc => ⟨by rw [hc]; rfl, hc⟩⟩
  rw [portValue_control]
  exact if_congr hrestore rfl rfl

/-- Settles O7: the step at the head resolves to the operation, and only a RESTORE word changes the state-save port. -/
theorem stepRunsDecoded : Obligations.StepRunsDecoded := by
  intro s rest w
  refine ⟨fun c save hdec hin => ?_, fun c hdec hin => ?_, fun hin => ?_, fun i hin => ?_, step_of_no_inputs⟩
  · rw [step_of_resolve_run hin (resolve_control hdec save), takeInput, portValue_agent hdec]
  · exact step_of_resolve_run hin (resolve_apply hdec)
  · exact step_of_resolve_run hin rfl
  · exact step_of_resolve_run hin rfl

end Sys2Proof.Machine
end

section
/-! PROOFS. The decoders and the encoder (30_encoding.md R91 to R96): each decoder is the inverse of its encoder, and the
two ports share no opcode. -/

namespace Sys2Proof

/-! ## The command port -/

theorem decodeCmd_encodeCmd (c : Command) : decodeCmd (encodeCmd c) = some c := by
  cases c with
  | pressed note inst ch =>
    obtain ⟨hop, hch, hinst, hnote⟩ := fields_of_bytes 0x01#8 ch inst note
    simp [encodeCmd, wordN, decodeCmd, hop, hch, hinst, hnote]
  | released ch =>
    obtain ⟨hop, hch, hrsv⟩ := fields_of_channel 0x02#8 ch 0#16
    simp [encodeCmd, wordC, decodeCmd, hop, hch, hrsv]
  | trigger note inst ch =>
    obtain ⟨hop, hch, hinst, hnote⟩ := fields_of_bytes 0x03#8 ch inst note
    simp [encodeCmd, wordN, decodeCmd, hop, hch, hinst, hnote]
  | romChanged slot =>
    obtain ⟨hop, himm⟩ := fields_of_imm 0x04#8 slot
    simp [encodeCmd, wordI, decodeCmd, hop, himm]

/-- A word that decodes is the encoding of its command, since it is its fields put together. -/
theorem encodeCmd_of_decodeCmd {w : Word} {c : Command} (h : decodeCmd w = some c) : encodeCmd c = w := by
  unfold decodeCmd at h
  split_ifs at h with h1 h2 hrsv h3 h4 <;> cases h
  · rw [encodeCmd, wordN, ← h1, word_of_bytes]
  · rw [encodeCmd, wordC, ← h2, ← hrsv, word_of_channel]
  · rw [encodeCmd, wordN, ← h3, word_of_bytes]
  · rw [encodeCmd, wordI, ← h4, word_of_imm]

/-! ## The control port -/

theorem decodeCtl_encodeCtl (c : Control) : decodeCtl (encodeCtl c) = some c := by
  cases c <;> simp only [encodeCtl, wordI, decodeCtl, fields_of_imm] <;> rfl

/-- A word that decodes is the encoding of its operation, since it is its fields put together. -/
theorem encodeCtl_of_decodeCtl {w : Word} {c : Control} (h : decodeCtl w = some c) : encodeCtl c = w := by
  unfold decodeCtl at h
  split_ifs at h with h0 h1 himm h2 himm h3 himm h4 h5 himm <;> cases h
  · rw [encodeCtl, wordI, ← h0, word_of_imm]
  · rw [encodeCtl, wordI, ← h1, ← himm, word_of_imm]
  · rw [encodeCtl, wordI, ← h2, ← himm, word_of_imm]
  · rw [encodeCtl, wordI, ← h3, ← himm, word_of_imm]
  · rw [encodeCtl, wordI, ← h4, word_of_imm]
  · rw [encodeCtl, wordI, ← h5, ← himm, word_of_imm]

/-! ## Both ports -/

theorem opc_lt_of_decodeCmd {w : Word} {c : Command} (h : decodeCmd w = some c) : (opc w).toNat < 0x10 := by
  unfold decodeCmd at h
  split_ifs at h <;> simp_all

theorem opc_bounds_of_decodeCtl {w : Word} {c : Control} (h : decodeCtl w = some c) :
    0x10 ≤ (opc w).toNat ∧ (opc w).toNat ≤ 0x15 := by
  unfold decodeCtl at h
  split_ifs at h <;> simp_all

/-- No word is legal on both ports: the opcodes of the control port begin at 0x10 (R93). -/
theorem decodeCmd_eq_none_of_decodeCtl {w : Word} {c : Control} (h : decodeCtl w = some c) : decodeCmd w = none := by
  rw [Option.eq_none_iff_forall_ne_some]
  intro d hd
  have hlt := opc_lt_of_decodeCmd hd
  have hbounds := opc_bounds_of_decodeCtl h
  omega

theorem decodeWord_of_decodeCmd {w : Word} {c : Command} (h : decodeCmd w = some c) : decodeWord w = some c.toInstr := by
  simp only [decodeWord, h]

theorem decodeWord_of_decodeCtl {w : Word} {c : Control} (h : decodeCtl w = some c) : decodeWord w = some c.toInstr := by
  simp only [decodeWord, decodeCmd_eq_none_of_decodeCtl h, h, Option.map_some]

/-- The operations that have a word are the commands and the control operations (R93, R97). -/
theorem encode_cases {i : Instr} {w : Word} (h : encode i = some w) :
    (∃ c : Command, i = c.toInstr ∧ encodeCmd c = w) ∨ ∃ c : Control, i = c.toInstr ∧ encodeCtl c = w := by
  cases i with
  | pianoKeyPressed note inst ch => exact .inl ⟨.pressed note inst ch, rfl, Option.some.inj h⟩
  | pianoKeyReleased ch => exact .inl ⟨.released ch, rfl, Option.some.inj h⟩
  | triggerNote note inst ch => exact .inl ⟨.trigger note inst ch, rfl, Option.some.inj h⟩
  | soundRomInstanceChanged slot => exact .inl ⟨.romChanged slot, rfl, Option.some.inj h⟩
  | renderFrame count => exact .inr ⟨.renderFrame count, rfl, Option.some.inj h⟩
  | snapshot => exact .inr ⟨.snapshot, rfl, Option.some.inj h⟩
  | restore => exact .inr ⟨.restore, rfl, Option.some.inj h⟩
  | producerStep => exact .inr ⟨.producerStep, rfl, Option.some.inj h⟩
  | callbackPull count => exact .inr ⟨.callbackPull count, rfl, Option.some.inj h⟩
  | stop => exact .inr ⟨.stop, rfl, Option.some.inj h⟩
  | _ => cases h

theorem decodeWord_of_encode {i : Instr} {w : Word} (h : encode i = some w) : decodeWord w = some i := by
  rcases encode_cases h with ⟨c, rfl, rfl⟩ | ⟨c, rfl, rfl⟩
  · exact decodeWord_of_decodeCmd (decodeCmd_encodeCmd c)
  · exact decodeWord_of_decodeCtl (decodeCtl_encodeCtl c)

/-- Settles O1: each decoder is the inverse of its encoder, and the opcodes of the two ports are disjoint. -/
theorem decodeEncodeAgree : Obligations.DecodeEncodeAgree := by
  refine ⟨decodeCmd_encodeCmd, decodeCtl_encodeCtl, fun i w => decodeWord_of_encode, fun w =>
    ⟨fun c => encodeCmd_of_decodeCmd, fun c => encodeCtl_of_decodeCtl, ?_⟩⟩
  cases hctl : decodeCtl w with
  | none => exact .inr rfl
  | some c => exact .inl (decodeCmd_eq_none_of_decodeCtl hctl)

end Sys2Proof
end

section
/-! PROOFS. What every command word decodes to, by its four bytes, and what a drain does with one that does not
(30_encoding.md R94, R96). -/

namespace Sys2Proof

/-- A release is legal exactly with its reserved field at 0 (R94). -/
theorem decodeCmd_released (ch inst note : Byte) :
    decodeCmd (0x02#8 ++ ch ++ inst ++ note) = if inst = 0#8 ∧ note = 0#8 then some (.released ch) else none := by
  obtain ⟨hop, hch, -, -⟩ := fields_of_bytes 0x02#8 ch inst note
  simp [decodeCmd, hop, hch, fieldRsv_of_bytes, rsv_zero_iff]

theorem decodeCmd_romChanged (ch inst note : Byte) :
    decodeCmd (0x04#8 ++ ch ++ inst ++ note) = some (.romChanged (ch ++ inst ++ note)) := by
  obtain ⟨hop, -, -, -⟩ := fields_of_bytes 0x04#8 ch inst note
  simp [decodeCmd, hop, fieldImm_of_bytes]

theorem decodeCmd_of_other_opcode {w : Word} (h1 : opc w ≠ 0x01#8) (h2 : opc w ≠ 0x02#8) (h3 : opc w ≠ 0x03#8)
    (h4 : opc w ≠ 0x04#8) : decodeCmd w = none := by
  simp only [decodeCmd, h1, h2, h3, h4, if_false]

end Sys2Proof

namespace Sys2Proof.Machine

/-- A word that does not decode leaves the one fault BAD_COMMAND (R96, R235). -/
theorem applyWord_of_decodeCmd_none {w : Word} (h : decodeCmd w = none) (s : State) :
    applyWord w s = .ok (raiseFault { cause := .badCommand, info := .word w } s) := by
  simp only [applyWord, h]

/-- Settles O2: a note is the inverse of its encoding, the other opcodes are read by their fields. -/
theorem commandWordDecoding : Obligations.CommandWordDecoding := by
  refine ⟨fun op ch inst note => ⟨?_, ?_, ?_, ?_, ?_⟩, fun w s h => applyWord_of_decodeCmd_none h s⟩
  · rintro rfl; exact decodeCmd_encodeCmd (.pressed note inst ch)
  · rintro rfl; exact decodeCmd_released ch inst note
  · rintro rfl; exact decodeCmd_encodeCmd (.trigger note inst ch)
  · rintro rfl; exact decodeCmd_romChanged ch inst note
  · intro h1 h2 h3 h4
    obtain ⟨hop, -, -, -⟩ := fields_of_bytes op ch inst note
    rw [← hop] at h1 h2 h3 h4
    exact decodeCmd_of_other_opcode h1 h2 h3 h4

end Sys2Proof.Machine
end

section
/-! PROOFS. The step of a control word (30_encoding.md R93, R95, R96): its operation for its own agent, WRONG_CONTEXT for
another, BAD_COMMAND where the word does not decode. -/

namespace Sys2Proof

/-- A word of format I determines its opcode and its immediate. -/
theorem append_imm_inj {op op' : Byte} {imm imm' : BitVec 24} : op ++ imm = op' ++ imm' ↔ op = op' ∧ imm = imm' := by
  constructor
  · intro h
    obtain ⟨hop, himm⟩ := fields_of_imm op imm
    obtain ⟨hop', himm'⟩ := fields_of_imm op' imm'
    exact ⟨by rw [← hop, h, hop'], by rw [← himm, h, himm']⟩
  · rintro ⟨rfl, rfl⟩; rfl

/-- Only the word with the opcode of RESTORE and a zero immediate is RESTORE. -/
theorem decodeCtl_eq_restore_iff {op : Byte} {imm : BitVec 24} :
    decodeCtl (op ++ imm) = some .restore ↔ op = 0x12#8 ∧ imm = 0#24 := by
  constructor
  · intro h
    exact append_imm_inj.mp (encodeCtl_of_decodeCtl h).symm
  · rintro ⟨rfl, rfl⟩; exact decodeCtl_encodeCtl .restore

/-- An operation without an operand is illegal with a nonzero immediate (R95). -/
theorem decodeCtl_of_imm_ne_zero {op : Byte} {imm : BitVec 24} (hcount : op ≠ 0x10#8 ∧ op ≠ 0x14#8)
    (himm : imm ≠ 0#24) : decodeCtl (op ++ imm) = none := by
  simp only [decodeCtl, fields_of_imm, hcount, himm, if_false, ite_self]

/-- An opcode that is not the control port's is illegal (R96). -/
theorem decodeCtl_of_other_opcode {w : Word} (h : (opc w).toNat < 0x10 ∨ 0x15 < (opc w).toNat) : decodeCtl w = none := by
  rw [Option.eq_none_iff_forall_ne_some]
  intro c hc
  have hbounds := opc_bounds_of_decodeCtl hc
  omega

end Sys2Proof

namespace Sys2Proof.Machine

section
variable {s : State} {a : Agent} {w : Word} {save : Option SoundEngineData} {rest : List PortEvent}

/-- A control word that decodes runs for its own agent and is refused to every other (R95, R290). -/
theorem step_control_of_decodeCtl (hin : s.inputs = .control a w save :: rest) {c : Control} (h : decodeCtl w = some c) :
    step s = if a = c.agent then exec c.toInstr (takeInput (.control a w save) rest s) else .refused .wrongContext := by
  split
  · next ha => subst ha; exact step_of_resolve_run hin (resolve_control h save)
  · next ha => simp only [step, hin, resolve, h, if_neg (Ne.symm ha)]

/-- A control word that does not decode is rejected, whoever wrote it (R96, R282). -/
theorem step_control_of_decodeCtl_none (hin : s.inputs = .control a w save :: rest) (h : decodeCtl w = none) :
    step s = .next (rejectWord { cause := .badCommand, info := .word w } (takeInput (.control a w save) rest s)) := by
  simp only [step, hin, resolve, h]

end

/-- Settles O3: the word decodes to the operation or to none, and a RESTORE word alone brings its operand to the port. -/
theorem controlWordStep : Obligations.ControlWordStep := by
  intro s t a op imm save rest hin ht bad by'
  have htake : takeInput (.control a (op ++ imm) save) rest s = t := by
    rw [ht, takeInput, portValue_control]
    simp only [decodeCtl_eq_restore_iff]
  have hrun : ∀ c, encodeCtl c = op ++ imm → step s = by' c.agent c.toInstr := by
    intro c hc
    rw [step_control_of_decodeCtl hin (hc ▸ decodeCtl_encodeCtl c), htake]
  have hbad : decodeCtl (op ++ imm) = none → step s = bad := by
    intro hnone
    rw [step_control_of_decodeCtl_none hin hnone, htake]; subst ht; rfl
  have hplain : ∀ c, encodeCtl c = op ++ 0#24 → op ≠ 0x10#8 ∧ op ≠ 0x14#8 →
      step s = if imm = 0#24 then by' c.agent c.toInstr else bad := by
    intro c hc hcount
    split
    · next himm => exact hrun c (himm ▸ hc)
    · next himm => exact hbad (decodeCtl_of_imm_ne_zero hcount himm)
  refine ⟨?_, ?_, ?_, ?_, ?_, ?_, ?_⟩
  · rintro rfl; exact hrun (.renderFrame imm) rfl
  · rintro rfl; exact hplain .snapshot rfl (by decide)
  · rintro rfl; exact hplain .restore rfl (by decide)
  · rintro rfl; exact hplain .producerStep rfl (by decide)
  · rintro rfl; exact hrun (.callbackPull imm) rfl
  · rintro rfl; exact hplain .stop rfl (by decide)
  · intro hop
    refine hbad (decodeCtl_of_other_opcode ?_)
    obtain ⟨hopc, -⟩ := fields_of_imm op imm
    rwa [hopc]

end Sys2Proof.Machine
end

section
/-! PROOFS. The textual form of a word (30_encoding.md R98, R100). -/

namespace Sys2Proof.Machine

/-- Settles O4: each word is the encoding of its operation, so it decodes to it; each text is run through the assembler. -/
theorem encodingExamples : Obligations.EncodingExamples := by
  refine ⟨decodeWord_of_encode (by decide), ?_, decodeWord_of_encode (by decide), ?_, decodeWord_of_encode (by decide), ?_,
    decodeWord_of_encode (by decide), ?_, decodeWord_of_encode (by decide), ?_, decodeWord_of_encode (by decide), ?_,
    decodeWord_of_encode (by decide), ?_, decodeWord_of_encode (by decide), ?_, decodeWord_of_encode (by decide), ?_,
    decodeWord_of_encode (by decide), ?_⟩ <;> decide

/-- Settles O6: the mnemonics differ from one another, so each selects its own word, behind its own test of the fields. -/
theorem assemblerFits : Obligations.AssemblerFits := by
  intro note inst ch n
  refine ⟨?_, ?_, ?_, ?_, ?_, ?_⟩ <;> simp [assemble, encodeCmd, encodeCtl, wordN, wordC, wordI]

end Sys2Proof.Machine
end

section
/-! PROOFS. A word placed as the next step is what the step runs (30_encoding.md R90; log 1). -/

namespace Sys2Proof

/-- What a table row decodes to is what the word it stands for decodes to. -/
theorem decodeWord_of_decodeTableWord {nbits w : Nat} {i : Instr} (h : decodeTableWord nbits w = some i) :
    decodeWord (BitVec.ofNat 32 (w % 2 ^ nbits)) = some i := by
  unfold decodeTableWord at h
  split at h
  · have hbytes := decodeBytes_of_wordOfBytes (wordOfBytes_bytesOfWord (BitVec.ofNat 32 (w % 2 ^ nbits)) [])
    rw [List.append_nil] at hbytes
    simpa [hbytes] using h
  · cases h

end Sys2Proof

namespace Sys2Proof.Machine

/-- A word is placed on the port, and with the agent, that its opcode belongs to. -/
theorem resolve_fetchEvent {w : Word} {i : Instr} (h : decodeWord w = some i) : resolve (fetchEvent w) = .run i := by
  cases hctl : decodeCtl w with
  | some c =>
    obtain rfl : c.toInstr = i := by rw [decodeWord_of_decodeCtl hctl] at h; exact Option.some.inj h
    simp only [fetchEvent, hctl, resolve_control hctl]
  | none =>
    cases hcmd : decodeCmd w with
    | some c =>
      obtain rfl : c.toInstr = i := by rw [decodeWord_of_decodeCmd hcmd] at h; exact Option.some.inj h
      simp only [fetchEvent, hctl, resolve_apply hcmd]
    | none => simp [decodeWord, hcmd, hctl] at h

/-- A placed word brings no value to the state-save port. -/
theorem portValue_fetchEvent (w : Word) (s : State) : portValue (fetchEvent w) s = s.savePort := by
  unfold fetchEvent
  split <;> rfl

/-- Taking off the word just placed gives the state it was placed in. -/
theorem takeInput_placeWord (w : Word) (s : State) : takeInput (fetchEvent w) s.inputs (placeWord w s) = s := by
  rw [takeInput, portValue_fetchEvent]
  rfl

/-- Settles O8: the step resolves the placed word to its operation, in the state before the placing. -/
theorem fetchedWordRuns : Obligations.FetchedWordRuns := by
  intro s nbits w i h
  rw [State.withFetchWord, step_of_resolve_run rfl (resolve_fetchEvent (decodeWord_of_decodeTableWord h)),
    takeInput_placeWord]

end Sys2Proof.Machine
end

section
/-! PROOFS. A micro-operation on something that is not there is refused (log 15). -/

namespace Sys2Proof.Machine

/-- An operation whose operand is not there is refused before it runs. -/
theorem answer_absent {α β : Type} {o : Option α} (h : o = none) (f : α → Except Refusal β) (k : β → State) :
    answer ((operand o).bind f) k = .refused .absentOperand := by
  subst h; rfl

theorem waveVoiceOf_eq_none {c : Byte} {d : SoundEngineData} (h : ∀ v, d.ch[c.toNat]? ≠ some (.wt v)) :
    waveVoiceOf c d = none := by
  rw [Option.eq_none_iff_forall_ne_some]
  exact fun v hv => h v (waveVoiceOf_some hv)

theorem fmVoiceOf_eq_none {c : Byte} {d : SoundEngineData} (h : ∀ v, d.ch[c.toNat]? ≠ some (.fm v)) :
    fmVoiceOf c d = none := by
  rw [Option.eq_none_iff_forall_ne_some]
  exact fun v hv => h v (fmVoiceOf_some hv)

/-- Settles O45: each of them asks for its operand first. -/
theorem absentOperandRefused : Obligations.AbsentOperandRefused := by
  intro s r ch
  refine ⟨fun hosc => ⟨fun hz => ?_, ?_⟩, fun henv a => ?_, fun hwt => ?_, fun hfm => ?_⟩
  · exact answer_absent hosc _ _
  · exact answer_absent hosc _ _
  · simp only [exec, execEnvTick, henv, operand_none, answer_error]
  · exact answer_absent (waveVoiceOf_eq_none hwt) _ _
  · exact answer_absent (fmVoiceOf_eq_none hfm) _ _

end Sys2Proof.Machine
end

section
/-! PROOFS. Every step keeps every voice legal (40_oscillator.md R123; 10_state.md R24, R25): a voice is built from a valid
instrument of the bound ROM, ticked or retuned in place, released, or brought by RESTORE from the state-save port, which
holds only legal ones. -/

namespace Sys2Proof.Machine

/-! ## The operations that change voices -/

/-- The voices of a state, with the binding that new ones are built from. -/
def VoicesBound (s : State) : Prop := EngineLegal s.engine ∧ RomInv s

theorem voicesBound_apply {s t : State} (h : VoicesBound s) (he : ApplyEffect s t) : VoicesBound t :=
  ⟨engineLegal_apply h.1 h.2 he, romInv_apply h.2 he⟩

theorem drain_voicesBound {s t : State} (hs : VoicesBound s) (h : drain s = .ok t) : VoicesBound t :=
  drain_keeps (P := VoicesBound) (fun _ _ => voicesBound_apply) (fun _ hu => hu) hs h

theorem renderFrame_voicesBound {n : Nat} {s t : State} {b : Frame} (hs : VoicesBound s)
    (h : renderFrame n s = .ok (b, t)) : VoicesBound t :=
  renderFrame_keeps (P := VoicesBound) (fun _ _ => voicesBound_apply) (fun _ hu => hu)
    (fun _ k hu => ⟨engineLegal_channelsAfter hu.1 k, hu.2⟩) hs h

theorem producerStep_voicesBound {s t : State} {r : ProducerResult} (hs : VoicesBound s)
    (h : producerStep s = .ok (t, r)) : VoicesBound t := by
  refine ⟨?_, producerStep_romInv hs.2 h⟩
  rcases producerStep_cases h with ⟨-, rfl, -⟩ | ⟨-, -, rfl, -⟩ | ⟨-, -, -, b, u, hu, rfl⟩
  · exact hs.1
  · exact hs.1
  · exact (renderFrame_voicesBound hs hu).1

theorem setFrequency_len {o o' : Osc} {hz : Num32} (h : setFrequency o hz = .ok o') : o'.len = o.len := by
  rcases setFrequency_cases o hz with ⟨-, -, e⟩ | ⟨-, e⟩ <;> rw [e] at h <;> cases h
  rfl

theorem setFrequency_engineLegal {r : UnitRef} {hz : Num32} {d : SoundEngineData} {o : Osc} (hd : EngineLegal d)
    (h : (operand (oscOf r d)).bind (fun o => setFrequency o hz) = .ok o) : EngineLegal (setOsc r o d) := by
  obtain ⟨o₀, ho, hset⟩ := bind_ok h
  have hnamed := operand_ok ho
  exact engineLegal_setOsc hd hnamed (setFrequency_legal (oscOf_legal hd hnamed) hset) (setFrequency_len hset)

theorem oscTick_engineLegal {r : UnitRef} {d : SoundEngineData} {p : Num32} {o : Osc} (hd : EngineLegal d)
    (h : (operand (oscOf r d)).bind oscTick = .ok (p, o)) : EngineLegal (setOsc r o d) := by
  obtain ⟨o₀, ho, htick⟩ := bind_ok h
  have hnamed := operand_ok ho
  obtain ⟨heq, hlegal⟩ := oscTick_ok (oscOf_legal hd hnamed)
  rw [heq] at htick
  cases htick
  exact engineLegal_setOsc hd hnamed hlegal rfl

theorem envTick_engineLegal {r : UnitRef} {active : ActiveState} {d : SoundEngineData} {e : Env} (hd : EngineLegal d)
    (h : operand (envOf r d) = .ok e) : EngineLegal (setEnv r (envTick e active).2 d) :=
  engineLegal_setEnv hd (envTick_legal (envOf_legal hd (operand_ok h)) active)

/-- A channel replaced by what a tick leaves of it. -/
theorem engineLegal_setChannel_after {d : SoundEngineData} {c : Nat} {v : Channel} (hd : EngineLegal d)
    (hv : channelAt d c = some v) : EngineLegal (setChannel d c (channelAfter v)) :=
  ⟨hd.1, forall_setChannel hd.2 (channelAfter_legal (hd.2 v (mem_of_channelAt hv)))⟩

theorem voiceTick_engineLegal {c : Byte} {d : SoundEngineData} {y : Num32} {v : WaveVoice} (hd : EngineLegal d)
    (h : (operand (waveVoiceOf c d)).bind voiceTick = .ok (y, v)) : EngineLegal (setChannel d c.toNat (.wt v)) := by
  obtain ⟨v₀, hv, htick⟩ := bind_ok h
  rw [voiceTick_after htick]
  exact engineLegal_setChannel_after hd (waveVoiceOf_some (operand_ok hv))

theorem fmTick_engineLegal {table : Vector AlgorithmDefinition 10} {c : Byte} {d : SoundEngineData} {y : Num32}
    {v : FMVoice} (hd : EngineLegal d) (h : (operand (fmVoiceOf c d)).bind (fmTick table) = .ok (y, v)) :
    EngineLegal (setChannel d c.toNat (.fm v)) := by
  obtain ⟨v₀, hv, htick⟩ := bind_ok h
  rw [fmTick_after htick]
  exact engineLegal_setChannel_after hd (fmVoiceOf_some (operand_ok hv))

theorem mixTick_engineLegal {table : Vector AlgorithmDefinition 10} {d : SoundEngineData} {y : Num32} {cs : List Channel}
    (hd : EngineLegal d) (h : mixTick table d.ch = .ok (y, cs)) : EngineLegal { d with ch := cs } := by
  rw [mixChannels_after h]
  exact engineLegal_channelsAfter hd 1

/-! ## Every operation -/

/-- RESTORE alone takes its voices from the state-save port; every other operation makes legal voices of legal ones. -/
theorem exec_engineLegal {i : Instr} {s t : State} (hs : VoicesBound s) (hport : EngineLegal s.savePort)
    (h : exec i s = .next t) : EngineLegal t.engine := by
  have hd := hs.1
  cases i with
  | restore =>
    obtain ⟨u, hu, rfl⟩ := answer_next h
    obtain ⟨-, rfl, -⟩ := restore_cases hu
    exact ⟨hd.1, hport.2⟩
  | pianoKeyPressed note inst ch =>
    obtain ⟨u, hu, rfl⟩ := answer_next h
    exact (voicesBound_apply hs (startNote_effect hu)).1
  | pianoKeyReleased ch => cases h; exact (voicesBound_apply hs (releaseKey_effect _ ch s)).1
  | triggerNote note inst ch =>
    obtain ⟨u, hu, rfl⟩ := answer_next h
    exact (voicesBound_apply hs (startNote_effect hu)).1
  | soundRomInstanceChanged slot => cases h; exact (voicesBound_apply hs (changeRom_effect _ slot s)).1
  | renderFrame n =>
    obtain ⟨⟨b, u⟩, hu, rfl⟩ := answer_next h
    exact (renderFrame_voicesBound hs hu).1
  | producerStep =>
    obtain ⟨⟨u, r⟩, hu, rfl⟩ := answer_next h
    exact (producerStep_voicesBound hs hu).1
  | drain =>
    obtain ⟨u, hu, rfl⟩ := answer_next h
    exact (drain_voicesBound hs hu).1
  | mixTick =>
    obtain ⟨⟨y, cs⟩, hu, rfl⟩ := answer_next h
    exact mixTick_engineLegal hd hu
  | setFrequency r hz =>
    obtain ⟨o, ho, rfl⟩ := answer_next h
    exact setFrequency_engineLegal hd ho
  | oscTick r =>
    obtain ⟨⟨p, o⟩, ho, rfl⟩ := answer_next h
    exact oscTick_engineLegal hd ho
  | envTick r active =>
    obtain ⟨e, he, rfl⟩ := answer_next h
    exact envTick_engineLegal hd he
  | voiceTick ch =>
    obtain ⟨⟨y, v⟩, hv, rfl⟩ := answer_next h
    exact voiceTick_engineLegal hd hv
  | fmTick ch =>
    obtain ⟨⟨y, v⟩, hv, rfl⟩ := answer_next h
    exact fmTick_engineLegal hd hv
  | _ => rw [exec_writes h]; exact hd

/-- SNAPSHOT alone writes the state-save port, with the engine's own voices (R244). -/
theorem exec_savePort_legal {i : Instr} {s t : State} (hd : EngineLegal s.engine) (hport : EngineLegal s.savePort)
    (h : exec i s = .next t) : EngineLegal t.savePort := by
  by_cases hi : i = .snapshot
  · subst hi; cases h; exact hd
  · rw [exec_writes h, writtenBy_savePort hi]; exact hport

theorem exec_voiceInv {i : Instr} {s t : State} (hs : VoiceInv s) (h : exec i s = .next t) : VoiceInv t := by
  obtain ⟨hd, hrom, hport, hpending⟩ := hs
  refine ⟨exec_engineLegal ⟨hd, hrom⟩ hport h, exec_romInv hrom h, exec_savePort_legal hd hport h, ?_⟩
  rw [exec_writes h, writtenBy_inputs]
  exact hpending

/-! ## Whole steps -/

/-- Taking a step off the order brings to the port only a value that stood in the order. -/
theorem takeInput_voiceInv {s : State} {ev : PortEvent} {rest : List PortEvent} (hs : VoiceInv s)
    (hin : s.inputs = ev :: rest) : VoiceInv (takeInput ev rest s) := by
  obtain ⟨hd, hrom, hport, hpending⟩ := hs
  refine ⟨hd, hrom, ?_, fun w d hmem => hpending w d (hin ▸ List.mem_cons_of_mem ev hmem)⟩
  rw [takeInput_savePort]
  rcases portValue_cases ev s with he | ⟨w, d, rfl, -, he⟩ <;> rw [he]
  · exact hport
  · exact hpending w d (hin ▸ List.mem_cons_self)

/-- Settles O44: taking the step off the order, every operation and the rejection of a word keep `VoiceInv`. -/
theorem voicesKept : Obligations.VoicesKept := by
  intro s t hs hstep
  rcases step_cases hstep with ⟨-, rfl⟩ | ⟨ev, rest, hin, ⟨i, -, hexec⟩ | ⟨f, -, rfl⟩⟩
  · exact hs
  · exact exec_voiceInv (takeInput_voiceInv hs hin) hexec
  · exact takeInput_voiceInv hs hin

end Sys2Proof.Machine
end

section
/-! PROOFS. A tame note on an instrument of a valid ROM can be played (40_oscillator.md R121; 44_engine.md R229). -/

namespace Sys2Proof.Machine

/-- Settles O20: an instrument of a valid ROM is valid, so its tables are short enough for `oscFits_of_tame`. -/
theorem tameNotesFit : Obligations.TameNotesFit := by
  intro s n entry note htame hfs hrom hn hentry
  have hvalid : InstrumentValid s.engine.fs entry := romFault_none.mp hrom.2 n hn entry hentry
  exact voiceFits_of_tame htame hfs hvalid note

end Sys2Proof.Machine
end

section
/-! PROOFS. The oscillator's operations on the oscillator they name (40_oscillator.md R121, R124): what is written to it, and
that nothing else is. -/

namespace Sys2Proof.Machine

open F32

/-! ## Writing one oscillator -/

/-- The oscillator of a wavetable voice is replaced in its channel. -/
theorem setOsc_ch_wt {r : UnitRef} {d : SoundEngineData} {o : Osc} (ho : oscOf r d = some o) (o' : Osc) {v : WaveVoice}
    (hv : d.ch[r.channel.toNat]? = some (.wt v)) :
    (setOsc r o' d).ch = d.ch.set r.channel.toNat (.wt { v with osc := o' }) := by
  have hc : channelAt d r.channel.toNat = some (.wt v) := hv
  cases hop : r.operator with
  | none => simp only [setOsc, hc, hop, setChannel_ch]
  | some i => simp [oscOf, hc, hop] at ho

/-- The oscillator of one FM operator is replaced in its channel. -/
theorem setOsc_ch_fm {r : UnitRef} {d : SoundEngineData} (o' : Osc) {v : FMVoice} {i : Fin 4}
    (hv : d.ch[r.channel.toNat]? = some (.fm v)) (hop : r.operator = some i) :
    (setOsc r o' d).ch =
      d.ch.set r.channel.toNat (.fm { v with op := quadSet v.op i { quadGet v.op i with osc := o' } }) := by
  have hc : channelAt d r.channel.toNat = some (.fm v) := hv
  simp only [setOsc, hc, hop, setChannel_ch]

/-- An oscillator that is there is written in place, whichever kind of voice has it, and nothing else is. -/
theorem setOsc_writes {r : UnitRef} {d : SoundEngineData} {o : Osc} (ho : oscOf r d = some o) (o' : Osc) :
    oscOf r (setOsc r o' d) = some o' ∧ (setOsc r o' d).romId = d.romId ∧ (setOsc r o' d).rom = d.rom ∧
      (setOsc r o' d).fs = d.fs ∧
      (∀ v, d.ch[r.channel.toNat]? = some (.wt v) →
        (setOsc r o' d).ch = d.ch.set r.channel.toNat (.wt { v with osc := o' })) ∧
      (∀ v i, d.ch[r.channel.toNat]? = some (.fm v) → r.operator = some i →
        (setOsc r o' d).ch =
          d.ch.set r.channel.toNat (.fm { v with op := quadSet v.op i { quadGet v.op i with osc := o' } })) :=
  ⟨oscOf_setOsc ho, setOsc_romId r o' d, setOsc_rom r o' d, setOsc_fs r o' d, fun _ => setOsc_ch_wt ho o',
    fun _ _ => setOsc_ch_fm o'⟩

/-! ## SET_FREQUENCY -/

/-- SET_FREQUENCY of an oscillator that is there is `setFrequency` of it (R121). -/
theorem exec_setFrequency {r : UnitRef} {s : State} {o : Osc} (ho : oscOf r s.engine = some o) (hz : Num32) :
    exec (.setFrequency r hz) s =
      answer (setFrequency o hz) (fun o' => { s with engine := setOsc r o' s.engine, result := .none }) := by
  simp only [exec, execSetFrequency, ho, operand_some]
  rfl

/-- Settles O46: `setFrequency` writes FREQ and INC or refuses, and the oscillator is written in place. -/
theorem setFrequencyWrites : Obligations.SetFrequencyWrites := by
  intro r hz s o ho inc
  rw [exec_setFrequency ho]
  rcases setFrequency_cases o hz with ⟨hfreq, hinc, e⟩ | ⟨hbad, e⟩ <;> rw [e]
  · exact ⟨fun _ _ => ⟨_, rfl, setOsc_writes ho _⟩,
      fun h => h.elim (fun hf => nomatch hfreq.symm.trans hf) (fun hi => nomatch hinc.symm.trans hi)⟩
  · exact ⟨fun hf hi => hbad.elim (fun h => nomatch hf.symm.trans h) (fun h => nomatch hi.symm.trans h), fun _ => rfl⟩

/-! ## OSC_TICK -/

theorem exec_wrap_of_finite {x : Num32} (h : isFinite x = true) (len : Nat) (s : State) :
    exec (.wrap x len) s = .next { s with result := .num (wrapFinite x len) } := by
  simp only [exec, execWrap, wrap, h, if_true, answer_ok]

/-- OSC_TICK of an oscillator that is there is `oscTick` of it (R124). -/
theorem exec_oscTick {r : UnitRef} {s : State} {o : Osc} (ho : oscOf r s.engine = some o) :
    exec (.oscTick r) s =
      answer (oscTick o) (fun po => { s with engine := setOsc r po.2 s.engine, result := .num po.1 }) := by
  simp only [exec, execOscTick, ho, operand_some]
  rfl

/-- Settles O48: `oscTick` writes WRAP's result to PHASE or refuses, and the oscillator is written in place. -/
theorem oscTickAdvances : Obligations.OscTickAdvances := by
  intro r s o ho
  rw [exec_oscTick ho]
  refine ⟨isFinite_phase_add_inc, ?_⟩
  rcases oscTick_cases o with ⟨hfin, e⟩ | ⟨hinf, e⟩ <;> rw [e]
  · exact ⟨fun _ => ⟨_, _, exec_wrap_of_finite hfin o.len s, rfl, setOsc_writes ho _⟩,
      fun h => nomatch hfin.symm.trans h⟩
  · exact ⟨fun h => (nomatch hinf.symm.trans h), fun _ => rfl⟩

end Sys2Proof.Machine
end

section
/-! PROOFS. WRAP (40_oscillator.md R122): its value is the floored remainder, rounded once, with L taken to 0. Each of the
three corrections after `fmod` is one step of that sentence. -/

namespace Sys2Proof.Machine

open F32

/-! ## The four steps of WRAP, in units of 2^-149 -/

/-- `fmod` is the remainder toward zero (R8). -/
theorem toInt_fmod {x y : Num32} (hx : isFinite x = true) (hy : isFinite y = true) (h0 : toInt y ≠ 0) :
    toInt (fmod x y) = (toInt x).tmod (toInt y) := by
  obtain ⟨-, habs, hsign⟩ := fmod_spec hx hy h0
  rw [← Int.natAbs_tmod] at habs
  have hr := toInt_eq (fmod x y)
  have hx' := toInt_eq x
  rw [hsign] at hr
  cases hs : sign x
  case false =>
    simp only [hs, Bool.false_eq_true, if_false] at hr hx'
    have := Int.tmod_nonneg (toInt y) (a := toInt x) (by omega)
    omega
  case true =>
    simp only [hs, if_true] at hr hx'
    have := Int.tmod_nonneg (toInt y) (a := -toInt x) (by omega)
    rw [Int.neg_tmod] at this
    omega

/-- The remainder toward zero, brought up by the divisor where it is negative, is the floored one. -/
theorem emod_eq_ite_tmod {a b : Int} (hb : 0 < b) : a % b = if a.tmod b < 0 then a.tmod b + b else a.tmod b := by
  have hlt := Int.emod_lt_of_pos a hb
  have hnn := Int.emod_nonneg a hb.ne'
  rw [Int.tmod_eq_emod]
  split <;> split <;> omega

/-- The first correction gives the floored remainder, rounded once. -/
theorem toInt_wrapLift_fmod {x l : Num32} (hx : isFinite x = true) (hl : isFinite l = true) (h0 : 0 < toInt l) :
    isNaN (wrapLift (fmod x l) l) = false ∧ toInt (wrapLift (fmod x l) l) = roundInt (toInt x % toInt l) 1 := by
  obtain ⟨hn, habs, -⟩ := fmod_spec hx hl h0.ne'
  have hr := toInt_fmod hx hl h0.ne'
  have hmod := emod_eq_ite_tmod (a := toInt x) h0
  rw [← hr] at hmod
  rcases wrapLift_cases l hn with ⟨hneg, e⟩ | ⟨hnn, e⟩ <;> rw [e]
  · have hf : isFinite (fmod x l) = true := by
      rw [isFinite_iff_natAbs] at hl ⊢
      have := Nat.mod_lt (toInt x).natAbs (Int.natAbs_pos.mpr h0.ne')
      omega
    obtain ⟨hadd, hna⟩ := toInt_add hf hl
    rw [if_pos hneg] at hmod
    exact ⟨hna, by rw [hadd, hmod]⟩
  · rw [if_neg (not_lt.mpr hnn)] at hmod
    have := roundInt_exact (d := 1) one_pos hn
    rw [Nat.cast_one, mul_one] at this
    exact ⟨hn, by rw [hmod, this]⟩

/-- The second correction takes L to 0. -/
theorem toInt_wrapCap {r l : Num32} (hn : isNaN r = false) (hl : isNaN l = false) (h0 : 0 ≤ toInt r)
    (hle : toInt r ≤ toInt l) : isNaN (wrapCap r l) = false ∧ toInt (wrapCap r l) = toInt r % toInt l := by
  rcases wrapCap_cases hn hl with ⟨heq, e⟩ | ⟨hne, e⟩ <;> rw [e]
  · exact ⟨isNaN_posZero, by rw [heq, Int.emod_self, toInt_posZero]⟩
  · exact ⟨hn, (Int.emod_eq_of_lt h0 (lt_of_le_of_ne hle hne)).symm⟩

/-- The last correction changes only the sign of a zero. -/
theorem toInt_wrapZero {r : Num32} (hn : isNaN r = false) : toInt (wrapZero r) = toInt r := by
  rcases wrapZero_cases hn with ⟨hz, e⟩ | ⟨-, e⟩ <;> rw [e]
  rw [hz, toInt_posZero]

/-- Rounding does not leave the interval from 0 to a number. -/
theorem roundInt_between {c : Num32} {n : Int} (hc : isNaN c = false) (h0 : 0 ≤ n) (h : n ≤ toInt c) :
    0 ≤ roundInt n 1 ∧ roundInt n 1 ≤ toInt c := by
  refine ⟨?_, roundInt_le one_pos hc (by simpa using h)⟩
  have := le_roundInt (c := posZero) (n := n) (d := 1) one_pos isNaN_posZero (by simpa using h0)
  rwa [toInt_posZero] at this

/-- WRAP of a finite x is the floored remainder of x by L, rounded once, with L taken to 0 (R122). -/
theorem toInt_wrapFinite_round {x : Num32} {len : Nat} (hx : isFinite x = true) (h1 : 1 ≤ len)
    (h2 : len ≤ Config.lMax) :
    toInt (wrapFinite x len) = roundInt (toInt x % (len * 2 ^ 149)) 1 % (len * 2 ^ 149) := by
  obtain ⟨hL, hLf, hLn⟩ := toInt_len h2
  have hpos : (0 : Int) < toInt (ofNat len) := by rw [hL]; positivity
  obtain ⟨hn, hlift⟩ := toInt_wrapLift_fmod hx hLf hpos
  obtain ⟨h0, hle⟩ := roundInt_between hLn (Int.emod_nonneg (toInt x) hpos.ne') (Int.emod_lt_of_pos _ hpos).le
  obtain ⟨hn', hcap⟩ := toInt_wrapCap hn hLn (hlift ▸ h0) (hlift ▸ hle)
  rw [wrapFinite, toInt_wrapZero hn', hcap, hlift, hL]

/-- The rounding of a value that is not negative, as a number. -/
theorem toInt_pack_roundMag {n : Int} (h : 0 ≤ n) : toInt (pack false (roundMag n.toNat 1)) = roundInt n 1 := by
  have habs : n.toNat = n.natAbs := by omega
  rw [toInt_pack _ (roundMag_lt _ _), roundInt, if_neg (not_lt.mpr h), if_neg Bool.false_ne_true, habs]

/-! ## WRAP over the rationals -/

/-- A remainder of units is the exact WRAP of the value they count. -/
theorem toRat_eq_exactWrap {x y : Num32} {len : Nat} (h : toInt y = toInt x % (len * 2 ^ 149)) :
    toRat y = exactWrap (toRat x) len := by
  have hfloor : ⌊toRat x / len⌋ = toInt x / (len * 2 ^ 149) := by
    have := Rat.floor_intCast_div_natCast (toInt x) (2 ^ 149 * len)
    simp only [Nat.cast_mul, Nat.cast_pow, Nat.cast_ofNat] at this
    rw [toRat, div_div, this, mul_comm]
  have hmod := Int.emod_def (toInt x) (len * 2 ^ 149)
  rw [exactWrap, hfloor, toRat, toRat, h, hmod]
  push_cast
  ring

/-- Settles O47: `wrapFinite` is the rounded remainder; it is legal, exact where nothing was rounded, and leaves a legal
phase alone. -/
theorem wrapReduces : Obligations.WrapReduces := by
  intro x len s
  refine ⟨fun hx h1 h2 => ⟨wrapFinite x len, exec_wrap_of_finite hx len s, wrapFinite_legal hx h1 h2, ?_, ?_,
    wrapFinite_of_legal h1 h2⟩, fun hx => ?_⟩
  · rw [toInt_pack_roundMag (Int.emod_nonneg _ (by positivity)), toInt_wrapFinite_round hx h1 h2]
  · intro h0
    exact toRat_eq_exactWrap (toInt_wrapFinite hx h1 h2 ((toRat_nonneg x).mp h0))
  · simp only [exec, execWrap, wrap, hx, Bool.false_eq_true, if_false, answer_error]

end Sys2Proof.Machine
end

section
/-! PROOFS. The oscillator over the rationals (40_oscillator.md R125): WRAP is reduction modulo L, so the increments of k
ticks add up under one WRAP. -/

namespace Sys2Proof.Machine

/-! ## WRAP -/

/-- WRAP gives a phase in [0, L) (R122). -/
theorem exactWrap_mem {len : Nat} (h : 1 ≤ len) (x : ℚ) : 0 ≤ exactWrap x len ∧ exactWrap x len < len := by
  have hpos : (0 : ℚ) < len := by exact_mod_cast h
  have hx : exactWrap x len = len * Int.fract (x / len) := by
    rw [exactWrap, Int.fract, mul_sub, mul_div_cancel₀ _ hpos.ne']
  rw [hx]
  exact ⟨mul_nonneg hpos.le (Int.fract_nonneg _), mul_lt_of_lt_one_right hpos (Int.fract_lt_one _)⟩

/-- A phase in [0, L) is not changed. -/
theorem exactWrap_of_mem {len : Nat} {x : ℚ} (h0 : 0 ≤ x) (hlt : x < len) : exactWrap x len = x := by
  have hfloor : ⌊x / len⌋ = 0 := Int.floor_eq_zero_iff.mpr ⟨by positivity, (div_lt_one (h0.trans_lt hlt)).mpr hlt⟩
  rw [exactWrap, hfloor, Int.cast_zero, mul_zero, sub_zero]

/-- WRAP before an addition makes no difference to WRAP after it. -/
theorem exactWrap_exactWrap_add {len : Nat} (h : 1 ≤ len) (x c : ℚ) :
    exactWrap (exactWrap x len + c) len = exactWrap (x + c) len := by
  have hne : (len : ℚ) ≠ 0 := by positivity
  have hdiv : (exactWrap x len + c) / len = (x + c) / len - (⌊x / len⌋ : ℤ) := by
    rw [exactWrap]; field_simp; ring
  rw [exactWrap, hdiv, Int.floor_sub_intCast, exactWrap, exactWrap]
  push_cast
  ring

/-! ## Many ticks -/

/-- k ticks of an exact oscillator advance its phase by k increments, wrapped once (R125). -/
theorem exactOscTicks_phase {o : ExactOsc} (hlen : 1 ≤ o.len) (h0 : 0 ≤ o.phase) (hlt : o.phase < o.len) (k : Nat) :
    (exactOscTicks k o).phase = exactWrap (o.phase + k * o.inc) o.len := by
  induction k generalizing o with
  | zero => simpa [exactOscTicks] using (exactWrap_of_mem h0 hlt).symm
  | succ k ih =>
    obtain ⟨hge, hlt'⟩ := exactWrap_mem hlen (o.phase + o.inc)
    calc (exactOscTicks k (exactOscTick o).2).phase
      _ = exactWrap (exactWrap (o.phase + o.inc) o.len + k * o.inc) o.len := ih (o := (exactOscTick o).2) hlen hge hlt'
      _ = exactWrap (o.phase + o.inc + k * o.inc) o.len := exactWrap_exactWrap_add hlen _ _
      _ = exactWrap (o.phase + (k + 1 : Nat) * o.inc) o.len := by congr 1; push_cast; ring

/-- Settles O49: the increments of the ticks add up under one WRAP, which lies in [0, L). -/
theorem exactTicks : Obligations.ExactTicks := by
  intro o hz k hlen h0 hlt
  have hphase : (exactOscTicks k (exactSetFrequency o hz)).phase =
      exactWrap (o.phase + k * (o.len * hz / o.fs)) o.len :=
    exactOscTicks_phase (o := exactSetFrequency o hz) hlen h0 hlt k
  rw [hphase]
  exact ⟨rfl, exactWrap_mem hlen _⟩

end Sys2Proof.Machine
end

section
/-! PROOFS. The wavetable read and the wavetable voice (41_voice.md R141, R143, R146, R150): an interpolation of weight 0 is
the dequantized entry, and VOICE_TICK replaces the voice in its channel. -/

namespace Sys2Proof.Machine

open F32

/-! ## Arithmetic with a zero -/

/-- The difference of two finite numbers that are not negative does not overflow. -/
theorem isFinite_sub_of_nonneg {x y : Num32} (hx : isFinite x = true) (hy : isFinite y = true) (hx0 : 0 ≤ toInt x)
    (hy0 : 0 ≤ toInt y) : isFinite (sub x y) = true := by
  have hny : isFinite (neg y) = true := (isFinite_neg y).trans hy
  have hsub := (toInt_sub hx hy).1
  refine isFinite_of_between hny hx ?_ ?_ <;> rw [hsub]
  · exact le_roundInt one_pos (not_isNaN_of_isFinite hny) (by rw [toInt_neg]; omega)
  · exact roundInt_le one_pos (not_isNaN_of_isFinite hx) (by omega)

theorem isFinite_of_toInt_eq_zero {x : Num32} (h : toInt x = 0) : isFinite x = true :=
  isFinite_of_between isFinite_posZero isFinite_posZero (by rw [h, toInt_posZero]) (by rw [h, toInt_posZero])

theorem toInt_mul_of_toInt_eq_zero {x z : Num32} (hx : isFinite x = true) (hz : toInt z = 0) : toInt (mul x z) = 0 := by
  rw [(toInt_mul hx (isFinite_of_toInt_eq_zero hz)).1, hz, mul_zero, roundInt]
  simp

/-- A zero of either sign added to a number whose sign bit is clear leaves that number. -/
theorem add_of_toInt_eq_zero {x z : Num32} (hx : isFinite x = true) (hsign : sign x = false) (hz : toInt z = 0) :
    add x z = x := by
  have hzf := isFinite_of_toInt_eq_zero hz
  by_cases h0 : toInt x = 0
  · obtain rfl : x = posZero := eq_posZero h0 (by rintro rfl; exact absurd hsign (by decide))
    simp [add, not_isNaN_of_isFinite hzf, hzf, hz, hsign]
  · have hadd : toInt (add x z) = toInt x := by
      rw [(toInt_add hx hzf).1, hz, add_zero]
      simpa using roundInt_exact (d := 1) one_pos (not_isNaN_of_isFinite hx)
    exact toInt_inj hadd (hadd.trans_ne h0)

/-! ## LERP -/

/-- With weight 0 the interpolation is the first entry, whatever the second (R141). -/
theorem lerpValue_of_weight_zero {a b : Nat} {f : Num32} (ha : a < 256) (hb : b < 256) (hf : toInt f = 0) :
    lerpValue a b f = div (ofNat a) (ofNat Config.dequant) := by
  have haf : isFinite (ofNat a) = true := isFinite_ofNat (by omega)
  have hbf : isFinite (ofNat b) = true := isFinite_ofNat (by omega)
  have hdiff := isFinite_sub_of_nonneg hbf haf (toInt_ofNat_nonneg b) (toInt_ofNat_nonneg a)
  rw [lerpValue, add_of_toInt_eq_zero haf (toInt_ofNat a).2.2 (toInt_mul_of_toInt_eq_zero hdiff hf)]

/-- A whole index leaves no fraction. -/
theorem toInt_emod_of_whole {q : Num32} {i : Nat} (hi : i ≤ 2 ^ 24) (h : toInt q = toInt (ofNat i)) :
    toInt q % 2 ^ 149 = 0 := by
  rw [h, toInt_ofNat_exact hi]
  exact Int.mul_emod_left _ _

theorem exec_lerp (t : List Nat) (q : Num32) (s : State) :
    exec (.lerp t q) s = answer (lerp t q) (fun y => { s with result := .num y }) := rfl

/-- Settles O50: LERP of an index in range answers `lerpValue` of its two entries, whose weight is the fraction of the
index; every other index is refused. -/
theorem lerpReads : Obligations.LerpReads := by
  intro t q s
  rw [exec_lerp]
  refine ⟨fun ht hf h0 hlt => ?_, fun hout => ?_⟩
  · obtain ⟨i, a, b, hi, hta, htb, hlerp, hunit, -, hfrac, ha, hb⟩ := lerp_reads ht hf h0 hlt
    refine ⟨i, a, b, _, hi, hta, htb, rfl, by rw [hlerp]; rfl, hunit, fun hwhole => ?_⟩
    have hi24 : i ≤ 2 ^ 24 :=
      (List.getElem?_eq_some_iff.mp hta).1.le.trans ((tableOk_iff t).mp ht).2.1
    exact lerpValue_of_weight_zero ha hb (hfrac.trans (toInt_emod_of_whole hi24 hwhole))
  · rw [lerp_refuses (Bool.and_eq_false_iff.mpr hout), answer_error]

/-! ## VOICE_TICK -/

theorem waveVoiceOf_of_getElem? {c : Byte} {d : SoundEngineData} {v : WaveVoice} (h : d.ch[c.toNat]? = some (.wt v)) :
    waveVoiceOf c d = some v := by
  rw [waveVoiceOf, channelAt, h]

/-- VOICE_TICK of a channel that holds a wavetable voice is `voiceTick` of it (R146). -/
theorem exec_voiceTick {c : Byte} {s : State} {v : WaveVoice} (h : s.engine.ch[c.toNat]? = some (.wt v)) :
    exec (.voiceTick c) s =
      answer (voiceTick v)
        (fun yv => { s with engine := setChannel s.engine c.toNat (.wt yv.2), result := .num yv.1 }) := by
  simp only [exec, execVoiceTick, waveVoiceOf_of_getElem? h, operand_some]
  rfl

theorem activeAfterTick_eq (a : ActiveState) : activeAfterTick a = if a = .Trigger then .Off else a := by
  cases a <;> rfl

/-- WRAP of a finite value completes (R122). -/
theorem wrap_of_finite {x : Num32} (h : isFinite x = true) (len : Nat) : wrap x len = .ok (wrapFinite x len) :=
  if_pos h

/-- Settles O51: `voiceTick` of a legal voice completes, and its voice is replaced in place. -/
theorem voiceTicks : Obligations.VoiceTicks := by
  intro ch s v hv hlegal
  obtain ⟨y, hlerp, -, htick, hunit⟩ := voiceTick_ok hlegal
  have hwrap := wrap_of_finite (isFinite_phase_add_inc hlegal.1) v.osc.len
  refine ⟨y, _, hlerp, hwrap, hunit, ?_⟩
  rw [exec_voiceTick hv, htick, answer_ok, activeAfterTick_eq]
  rfl

end Sys2Proof.Machine
end

section
/-! PROOFS. The FM voice (42_fm.md R163 to R175): the algorithm table, MODSUM, and FM_TICK operator by operator. The loop of
FM_TICK computes each modulation sum from outputs that are still zero from its own operator on; by R168 that is the sum over
the outputs of the whole tick, so each operator's tick can be stated on its own. -/

namespace Sys2Proof.Machine

open F32

/-! ## Algorithm table and modulation sum -/

/-- Settles O52: the index of a middle entry is neither 0 nor 11, so `algDef` reads the parameter. -/
theorem algorithmTable : Obligations.AlgorithmTable := by
  intro table
  refine ⟨rfl, rfl, fun n => ?_⟩
  have hval : (n.val + 1) % 12 = n.val + 1 := Nat.mod_eq_of_lt (by omega)
  have h11 : n.val + 1 ≠ 11 := by omega
  simp [algDef, hval, h11]

/-- Settles O53: an index below 3 names the component of that number, and only components below the bound are named. -/
theorem modulationSums : Obligations.ModulationSums := by
  refine ⟨fun n out hn => ⟨rfl, fun a b c => ?_⟩, fun n e out out' hn h => modSum_congr (by omega) e h⟩
  have hat := outAt_quadGet (show n ≤ 4 by omega) out
  exact ⟨hat a, congrArg₂ add (hat a) (hat b), congrArg₂ add (congrArg₂ add (hat a) (hat b)) (hat c)⟩

/-! ## One operator -/

/-- `y` is the output of an operator with modulation input `m`: LERP at the offset phase, times the amplitude (R170). -/
def OperatorReads (p : FMOperator) (m : Num32) (active : ActiveState) (y : Num32) : Prop :=
  ∃ q l, wrap (add p.osc.phase (mul p.depth m)) p.osc.len = .ok q ∧ lerp p.table q = .ok l ∧
    y = mul l (envTick p.env active).1

theorem operatorTick_of_reads {p : FMOperator} (h : OscLegal p.osc) {m y : Num32} {active : ActiveState}
    (hr : OperatorReads p m active y) : operatorTick p m active = .ok (y, operatorAfter p active) := by
  obtain ⟨q, l, hq, hl, rfl⟩ := hr
  simp only [operatorTick, (oscTick_ok h).1, hq, hl, operatorAfter]

/-- A tick of a legal operator that completes gives the output that R170 reads, in [0, 1]. -/
theorem operatorTick_reads {p p' : FMOperator} (h : OperatorLegal p) {m y : Num32} {active : ActiveState}
    (ht : operatorTick p m active = .ok (y, p')) : OperatorReads p m active y ∧ InUnit y := by
  cases hm : isFinite (add p.osc.phase (mul p.depth m)) with
  | false => rw [operatorTick_refuses h.1 hm] at ht; cases ht
  | true =>
    obtain ⟨hosc, hlen, htable, -, -⟩ := h
    have hq := wrapFinite_legal hm hosc.1 hosc.2.1
    rw [hlen] at hq
    obtain ⟨l, hl, hunit⟩ := lerp_ok htable hq.1 hq.2.1 hq.2.2.1
    rw [← hlen] at hl
    have hr : OperatorReads p m active (mul l (envTick p.env active).1) := ⟨_, l, wrap_of_finite hm _, hl, rfl⟩
    rw [operatorTick_of_reads hosc hr] at ht
    cases ht
    exact ⟨hr, mul_inUnit hunit (envTick_inUnit _ _)⟩

/-! ## The loop over the operators -/

/-- The modulation input of an operator, over the outputs of a whole tick (R170). -/
def modulation (a : AlgorithmDefinition) (out : Quad Num32) (i : Fin 4) : Num32 :=
  match i with
  | 0 => posZero
  | 1 => modSum a.m1 out
  | 2 => modSum a.m2 out
  | 3 => modSum a.m3 out

/-- The sums of the loop, over the outputs computed so far, are the sums over the whole tick (R168). -/
theorem modSum_computed (a : AlgorithmDefinition) (out : Quad Num32) :
    modSum a.m1 { outZero with o0 := out.o0 } = modulation a out 1 ∧
    modSum a.m2 { outZero with o0 := out.o0, o1 := out.o1 } = modulation a out 2 ∧
    modSum a.m3 { outZero with o0 := out.o0, o1 := out.o1, o2 := out.o2 } = modulation a out 3 := by
  refine ⟨modSum_congr (by decide) _ fun i hi => ?_, modSum_congr (by decide) _ fun i hi => ?_,
    modSum_congr (by decide) _ fun i hi => ?_⟩
  · match i with
    | 0 => rfl
  · match i with
    | 0 | 1 => rfl
  · match i with
    | 0 | 1 | 2 => rfl

/-- The loop, where it completes, ticked every operator with its modulation input over the outputs of the tick. -/
theorem operatorsTick_ok {a : AlgorithmDefinition} {ops ops' : Quad FMOperator} {active : ActiveState} {out : Quad Num32}
    (h : operatorsTick a ops active = .ok (out, ops')) (i : Fin 4) :
    operatorTick (quadGet ops i) (modulation a out i) active = .ok (quadGet out i, quadGet ops' i) := by
  obtain ⟨m1, m2, m3⟩ := modSum_computed a out
  unfold operatorsTick at h
  split at h
  · cases h
  next h0 =>
  split at h
  · cases h
  next h1 =>
  split at h
  · cases h
  next h2 =>
  split at h
  · cases h
  next h3 =>
  cases h
  match i with
  | 0 => exact h0
  | 1 => rw [← m1]; exact h1
  | 2 => rw [← m2]; exact h2
  | 3 => rw [← m3]; exact h3

/-- The first operator whose tick is refused makes the loop refused. -/
theorem operatorsTick_refused {a : AlgorithmDefinition} {ops : Quad FMOperator} {active : ActiveState} {out : Quad Num32}
    {r : Refusal} {i : Fin 4}
    (hbelow : ∀ j < i, operatorTick (quadGet ops j) (modulation a out j) active =
      .ok (quadGet out j, operatorAfter (quadGet ops j) active))
    (hi : operatorTick (quadGet ops i) (modulation a out i) active = .error r) :
    operatorsTick a ops active = .error r := by
  obtain ⟨m1, m2, m3⟩ := modSum_computed a out
  have h0 : 0 < i → operatorTick ops.o0 posZero active = .ok (out.o0, operatorAfter ops.o0 active) := hbelow 0
  have h1 : 1 < i → operatorTick ops.o1 (modulation a out 1) active = .ok (out.o1, operatorAfter ops.o1 active) :=
    hbelow 1
  have h2 : 2 < i → operatorTick ops.o2 (modulation a out 2) active = .ok (out.o2, operatorAfter ops.o2 active) :=
    hbelow 2
  match i with
  | 0 =>
    have hi : operatorTick ops.o0 posZero active = .error r := hi
    simp only [operatorsTick, hi]
  | 1 =>
    have hi : operatorTick ops.o1 (modulation a out 1) active = .error r := hi
    simp only [operatorsTick, h0 (by decide), m1, hi]
  | 2 =>
    have hi : operatorTick ops.o2 (modulation a out 2) active = .error r := hi
    simp only [operatorsTick, h0 (by decide), m1, h1 (by decide), m2, hi]
  | 3 =>
    have hi : operatorTick ops.o3 (modulation a out 3) active = .error r := hi
    simp only [operatorsTick, h0 (by decide), m1, h1 (by decide), m2, h2 (by decide), m3, hi]

/-! ## Carriers -/

/-- The carriers of an algorithm, in ascending order. -/
def carrierList (c : Quad Bool) : List (Fin 4) := ([0, 1, 2, 3] : List (Fin 4)).filter (fun i => quadGet c i)

theorem carrierSum_eq_foldl (c : Quad Bool) (out : Quad Num32) :
    carrierSum c out = (carrierList c).foldl (fun acc i => add acc (quadGet out i)) posZero := by
  rw [carrierList, List.foldl_filter]
  rfl

theorem carrierList_length (c : Quad Bool) : (carrierList c).length = carrierCount c := by
  rw [carrierList, ← List.countP_eq_length_filter]
  simp [List.countP_cons, carrierCount, quadGet, Bool.toNat, Bool.cond_eq_ite, add_comm, add_left_comm]

/-! ## FM_TICK -/

/-- FM_TICK that completes: the loop completed, and the sample is the sum of its carriers (R171, R175). -/
theorem fmTick_cases {table : Vector AlgorithmDefinition 10} {v v' : FMVoice} {y : Num32} (h : fmTick table v = .ok (y, v')) :
    ∃ out ops, operatorsTick (algDef table v.alg) v.op v.active = .ok (out, ops) ∧
      y = carrierSum (algDef table v.alg).carriers out ∧ v' = { v with op := ops, active := activeAfterTick v.active } := by
  unfold fmTick at h
  simp only at h
  split at h
  · cases h
  · next hops =>
    cases h
    exact ⟨_, _, hops, rfl, rfl⟩

theorem quadGet_operatorsAfter (q : Quad FMOperator) (active : ActiveState) (i : Fin 4) :
    quadGet (operatorsAfter q active) i = operatorAfter (quadGet q i) active := by
  match i with
  | 0 | 1 | 2 | 3 => rfl

/-- FM_TICK of a legal voice with tame depths: each operator reads what R170 says of the outputs of this same tick, and
the sample is the sum of the carriers, in [0, number of carriers] (R171, R172). -/
theorem fmTick_reads {v : FMVoice} (h : FMVoiceLegal v) (ht : ChannelTame (.fm v)) (table : Vector AlgorithmDefinition 10) :
    ∃ out, (∀ i, OperatorReads (quadGet v.op i) (modulation (algDef table v.alg) out i) v.active (quadGet out i)) ∧
      fmTick table v = .ok (carrierSum (algDef table v.alg).carriers out,
        { v with op := operatorsAfter v.op v.active, active := activeAfterTick v.active }) ∧
      InRange (carrierCount (algDef table v.alg).carriers) (carrierSum (algDef table v.alg).carriers out) := by
  obtain ⟨_, -, htick⟩ := fmTick_ok h ht table
  obtain ⟨out, ops, hops, hy, -⟩ := fmTick_cases htick
  have hreads := fun i => operatorTick_reads (quadGet_legal h i) (operatorsTick_ok hops i)
  have hout : OutsLegal out := ⟨(hreads 0).2, (hreads 1).2, (hreads 2).2, (hreads 3).2⟩
  exact ⟨out, fun i => (hreads i).1, hy ▸ htick, carrierSum_inRange _ hout⟩

/-- FM_TICK of a legal voice is refused at the first operator whose offset phase is not finite (R170, R290). -/
theorem fmTick_refused {v : FMVoice} (h : FMVoiceLegal v) {table : Vector AlgorithmDefinition 10} {out : Quad Num32} {i : Fin 4}
    (hbelow : ∀ j < i, OperatorReads (quadGet v.op j) (modulation (algDef table v.alg) out j) v.active (quadGet out j))
    (hi : isFinite (add (quadGet v.op i).osc.phase
      (mul (quadGet v.op i).depth (modulation (algDef table v.alg) out i))) = false) :
    fmTick table v = .error .nonfiniteInput := by
  have hops : operatorsTick (algDef table v.alg) v.op v.active = .error .nonfiniteInput :=
    operatorsTick_refused (fun j hj => operatorTick_of_reads (quadGet_legal h j).1 (hbelow j hj))
      (operatorTick_refuses (quadGet_legal h i).1 hi)
  simp only [fmTick, hops]

theorem fmVoiceOf_of_getElem? {c : Byte} {d : SoundEngineData} {v : FMVoice} (h : d.ch[c.toNat]? = some (.fm v)) :
    fmVoiceOf c d = some v := by
  rw [fmVoiceOf, channelAt, h]

/-- FM_TICK of a channel that holds an FM voice is `fmTick` of it (R170). -/
theorem exec_fmTick {c : Byte} {s : State} {v : FMVoice} (h : s.engine.ch[c.toNat]? = some (.fm v)) :
    exec (.fmTick c) s =
      answer (fmTick s.params.algTable v)
        (fun yv => { s with engine := setChannel s.engine c.toNat (.fm yv.2), result := .num yv.1 }) := by
  simp only [exec, execFmTick, fmVoiceOf_of_getElem? h, operand_some]
  rfl

/-- Settles O54: `fmTick` of a legal tame voice completes with each operator's own read, and its voice is replaced in
place; an offset phase that is not finite refuses it. -/
theorem fmTicks : Obligations.FmTicks := by
  intro ch s v hv hlegal alg index reads carriers
  rw [exec_fmTick hv]
  refine ⟨fun htame => ?_, fun out i hbelow hinf => ?_⟩
  · obtain ⟨out, hreads, htick, hrange⟩ := fmTick_reads hlegal htame s.params.algTable
    obtain ⟨hfin, hlo, hhi⟩ := (inRange_iff ((carrierCount_le _).trans (by decide))).mp hrange
    refine ⟨out, { v with op := operatorsAfter v.op v.active, active := activeAfterTick v.active }, _, fun i =>
      ⟨hreads i, _, wrap_of_finite (isFinite_phase_add_inc (quadGet_legal hlegal i).1) _, quadGet_operatorsAfter _ _ i⟩,
      rfl, rfl, activeAfterTick_eq _, carrierSum_eq_foldl _ _, hfin, hlo, ?_, ?_⟩
    · rw [← carrierList_length] at hhi
      exact hhi
    · rw [htick, answer_ok]
      rfl
  · rw [fmTick_refused hlegal hbelow hinf, answer_error]

end Sys2Proof.Machine
end

section
/-! PROOFS. When a ROM is valid (43_envelope.md R190, R191; 44_engine.md R226): every check of ROM_VALIDATE is a
plain bound on the value it reads. -/

namespace Sys2Proof.Machine

/-- What holds of every instrument holds of both kinds. -/
theorem forall_instrument {P : Instrument → Prop} : (∀ e, P e) ↔ (∀ d, P (.wt d)) ∧ ∀ d, P (.fm d) :=
  ⟨fun h => ⟨fun d => h (.wt d), fun d => h (.fm d)⟩, fun ⟨hwt, hfm⟩ e => by
    cases e with
    | wt d => exact hwt d
    | fm d => exact hfm d⟩

/-- Settles O21: a ROM is valid when every entry is, and each check of an entry is a bound on what it reads. -/
theorem romValidity : Obligations.RomValidity := by
  intro n fs rom slot table time env
  have hlMax : Config.lMax = 2 ^ 24 := rfl
  rw [romFault_none]
  refine forall₂_congr fun k _ => ?_
  rw [forall_instrument]
  simp only [InstrumentValid, tableOk_iff, envOk_iff, stageTimeOk_iff, sustainOk_iff, hlMax, table, time, env]

end Sys2Proof.Machine
end

section
/-! PROOFS. ENV_BUILD (43_envelope.md R192): the stage lengths of a definition that ENV_CHECK accepts are those of R192, and
every definition gives legal counters. -/

namespace Sys2Proof.Machine

theorem exec_envBuild (d : EnvelopeDefinition) (fs : Num32) (s : State) :
    exec (.envBuild d fs) s = .next { s with result := .env (envBuild d fs) } := rfl

/-- The stage length of R192, in rationals. -/
theorem stageTicks_eq_max_floor {t fs : Num32} (h : stageTimeOk t fs = true) :
    ((stageTicks t fs).toNat : Int) = max 1 ⌊F32.toRat (F32.mul t fs)⌋ := by
  rw [stageTicks_of_ok h, floor_toRat]
  simp only [Nat.max_def]
  split <;> omega

/-- Settles O55: ENV_BUILD answers `envBuild`, whose lengths are those of R192 where each stage time is accepted. -/
theorem envBuilds : Obligations.EnvBuilds := by
  refine ⟨fun d fs s hok => ?_, fun d fs s => ?_⟩
  · obtain ⟨hattack, hdecay, hrelease, -⟩ := (envOk_iff d fs).mp hok
    exact ⟨envBuild d fs, exec_envBuild d fs s, rfl, rfl, rfl, rfl, rfl, stageTicks_eq_max_floor hattack,
      stageTicks_eq_max_floor hdecay, stageTicks_eq_max_floor hrelease⟩
  · exact ⟨envBuild d fs, exec_envBuild d fs s, envBuild_legal d fs, rfl, rfl, rfl, rfl, rfl⟩

end Sys2Proof.Machine
end

section
/-! PROOFS. ENV_TICK (43_envelope.md R194 to R197): the stage that is entered, the step of that stage, the envelope that is
written, and the range of the amplitude and of the levels. -/

namespace Sys2Proof.Machine

open F32

/-! ## Writing one envelope -/

/-- The envelope of a wavetable voice is replaced in its channel. -/
theorem setEnv_ch_wt {r : UnitRef} {d : SoundEngineData} {e : Env} (he : envOf r d = some e) (e' : Env) {v : WaveVoice}
    (hv : d.ch[r.channel.toNat]? = some (.wt v)) :
    (setEnv r e' d).ch = d.ch.set r.channel.toNat (.wt { v with env := e' }) := by
  have hc : channelAt d r.channel.toNat = some (.wt v) := hv
  cases hop : r.operator with
  | none => simp only [setEnv, hc, hop, setChannel_ch]
  | some i => simp [envOf, hc, hop] at he

/-- The envelope of one FM operator is replaced in its channel. -/
theorem setEnv_ch_fm {r : UnitRef} {d : SoundEngineData} (e' : Env) {v : FMVoice} {i : Fin 4}
    (hv : d.ch[r.channel.toNat]? = some (.fm v)) (hop : r.operator = some i) :
    (setEnv r e' d).ch =
      d.ch.set r.channel.toNat (.fm { v with op := quadSet v.op i { quadGet v.op i with env := e' } }) := by
  have hc : channelAt d r.channel.toNat = some (.fm v) := hv
  simp only [setEnv, hc, hop, setChannel_ch]

/-- ENV_TICK of an envelope that is there is `envTick` of it (R195). -/
theorem exec_envTick {r : UnitRef} {s : State} {e : Env} (he : envOf r s.engine = some e) (a : ActiveState) :
    exec (.envTick r a) s = .next { s with
      engine := setEnv r (envTick e a).2 s.engine, result := .num (clamp01 (envTick e a).2.level) } := by
  simp only [exec, execEnvTick, he, operand_some, answer_ok]
  rfl

/-! ## The stage entered, and its step -/

/-- An envelope at rest, which On brings to Attack (R196). -/
def AtRest (e : Env) : Prop := e.stage = .idle ∨ e.stage = .release

/-- An envelope with a level to release from, which Off brings to Release (R196). -/
def Sounding (e : Env) : Prop := e.stage = .attack ∨ e.stage = .decay ∨ e.stage = .sustain

/-- The envelope at the beginning of Attack (R196). -/
def attackEntry (e : Env) : Env := { e with stage := .attack, k := 0, start := posZero }

/-- The envelope at the beginning of Release, from the level it holds (R196). -/
def releaseEntry (e : Env) : Env := { e with stage := .release, k := 0, start := e.level }

theorem envEnter_on_atRest {e : Env} (h : AtRest e) : envEnter e .On = attackEntry e := by
  rcases h with hs | hs <;> simp only [envEnter, hs, attackEntry]

theorem envEnter_off_sounding {e : Env} (h : Sounding e) : envEnter e .Off = releaseEntry e := by
  rcases h with hs | hs | hs <;> simp only [envEnter, hs, releaseEntry]

theorem envTick_trigger (e : Env) : (envTick e .Trigger).2 = ramp (attackEntry e) one e.na .decay one := rfl

theorem envTick_on_atRest {e : Env} (h : AtRest e) : (envTick e .On).2 = ramp (attackEntry e) one e.na .decay one := by
  rw [envTick_enter, envEnter_on_atRest h]
  rfl

theorem envTick_off_sounding {e : Env} (h : Sounding e) :
    (envTick e .Off).2 = ramp (releaseEntry e) posZero e.nr .idle posZero := by
  rw [envTick_enter, envEnter_off_sounding h]
  rfl

theorem envTick_sustain {e : Env} (hs : e.stage = .sustain) : (envTick e .On).2 = { e with level := e.sus } := by
  simp only [envTick, envEnter, envAdvance, hs]

theorem envTick_idle {e : Env} (hs : e.stage = .idle) : (envTick e .Off).2 = { e with level := posZero } := by
  simp only [envTick, envEnter, envAdvance, hs]

/-- Settles O56: ENV_TICK writes `envTick` of the envelope in place, and each row of R196 is one equation of `envTick`.
The plain name `envTicks` is the model's. -/
theorem envTicks_obligation : Obligations.EnvTicks := by
  intro r a s e he
  refine ⟨setEnv r (envTick e a).2 s.engine, (envTick e a).2, exec_envTick he a, envOf_setEnv he, setEnv_romId _ _ _,
    setEnv_rom _ _ _, setEnv_fs _ _ _, fun _ => setEnv_ch_wt he _, fun _ _ => setEnv_ch_fm _, ?_⟩
  refine ⟨?_, ?_, ?_, ?_, ?_, ?_, ?_, ?_⟩ <;> rintro rfl
  · exact envTick_trigger e
  · exact envTick_on_atRest
  · exact envTick_attack
  · exact envTick_decay
  · exact envTick_sustain
  · exact envTick_off_sounding
  · exact envTick_release
  · exact envTick_idle

/-! ## The amplitude and the levels -/

/-- In [0, 1] the clamp leaves the value, and all of it but the sign of a zero (R197). -/
theorem clamp01_eq_of_inUnit {x : Num32} (h : InUnit x) : eq (clamp01 x) x = true ∧ (x ≠ negZero → clamp01 x = x) := by
  obtain ⟨hval, hsame⟩ := clamp01_of_inUnit h
  exact ⟨(eq_iff (not_isNaN_of_isFinite (clamp01_inUnit x).1) (not_isNaN_of_isFinite h.1)).mpr hval, hsame⟩

/-- Settles O57: the amplitude is the clamp of LEVEL, and a tick keeps the counters and the levels legal. -/
theorem levelRange : Obligations.LevelRange :=
  ⟨fun _ _ => ⟨clamp01_inUnit _, clamp01_eq_of_inUnit, clamp01_of_neg, clamp01_of_one_lt⟩,
    fun _ a hcounters hlevels hnr => ⟨envTick_legal hcounters a, envTick_level hcounters hlevels hnr a⟩⟩

end Sys2Proof.Machine
end

section
/-! PROOFS. The paths of an envelope tick by tick (43_envelope.md R198 to R202): each is a chain of stages, and each stage a
line that ends at its target. -/

namespace Sys2Proof.Machine

open F32

/-! ## One stage -/

/-- The level RAMP gives at tick `k` of `n`, counted in natural numbers (R194). -/
def lineLevel (start target : Num32) (k n : Nat) : Num32 :=
  add start (div (mul (sub target start) (ofNat k)) (ofNat n))

/-- The envelope at tick `k` of `n` of its stage (R194). -/
def onLine (e : Env) (target : Num32) (k n : Nat) : Env :=
  { e with k := BitVec.ofNat 32 k, level := lineLevel e.start target k n }

/-- A run of ticks of one stage, short of its end, is on its line; `H` says that each tick is RAMP. -/
theorem envTicks_onLine {e : Env} {a : ActiveState} {target : Num32} {n : BitVec 32} {next : Stage} {ns : Num32}
    (H : ∀ k l, (envTick { e with k := k, level := l } a).2 = ramp { e with k := k, level := l } target n next ns)
    (h0 : e.k = 0) {k : Nat} (hk : 1 ≤ k) (hkn : k < n.toNat) :
    envTicks (List.replicate k a) e = onLine e target k n.toNat := by
  obtain ⟨j, rfl⟩ : ∃ j, k = j + 1 := ⟨k - 1, by omega⟩
  have hnat : (BitVec.ofNat 32 (j + 1)).toNat = j + 1 := Nat.mod_eq_of_lt (hkn.trans n.isLt)
  rw [envTicks_ramp H h0 j hkn, rampLevel, hnat]
  rfl

/-- Ticks that change nothing change nothing however many there are. -/
theorem envTicks_fixed {e : Env} {a : ActiveState} (h : (envTick e a).2 = e) (k : Nat) :
    envTicks (List.replicate k a) e = e := by
  induction k with
  | zero => rfl
  | succ k ih => rw [List.replicate_succ, envTicks_cons, h, ih]

/-- A run of ticks, cut in two. -/
theorem envTicks_replicate_add (m k : Nat) (a : ActiveState) (e : Env) :
    envTicks (List.replicate (m + k) a) e = envTicks (List.replicate k a) (envTicks (List.replicate m a) e) := by
  rw [← List.replicate_append_replicate, envTicks_append]

/-- A run of at least one tick begins with the entry (R196). -/
theorem envTicks_of_enter {e : Env} {a : ActiveState} (ha : a ≠ .Trigger) {k : Nat} (hk : 1 ≤ k) :
    envTicks (List.replicate k a) e = envTicks (List.replicate k a) (envEnter e a) := by
  obtain ⟨j, rfl⟩ : ∃ j, k = j + 1 := ⟨k - 1, by omega⟩
  exact envTicks_enter e ha j

/-! ## Release (R199) -/

section
variable {e : Env} (h : Sounding e)
include h

theorem envTicks_off_line {k : Nat} (hk : 1 ≤ k) (hkn : k < e.nr.toNat) :
    envTicks (List.replicate k .Off) e = onLine (releaseEntry e) posZero k e.nr.toNat := by
  rw [envTicks_of_enter (by decide) hk, envEnter_off_sounding h]
  exact envTicks_onLine (fun _ _ => envTick_release rfl) rfl hk hkn

/-- After NR ticks the envelope is Idle, and stays so. -/
theorem envTicks_off_idle (hnr : 1 ≤ e.nr.toNat) (k : Nat) :
    envTicks (List.replicate (e.nr.toNat + k) .Off) e =
      { e with stage := .idle, k := 0, start := posZero, level := posZero } := by
  rw [envTicks_replicate_add, envTicks_of_enter (by decide) hnr, envEnter_off_sounding h]
  have hstage := envTicks_stage (e := releaseEntry e) (fun _ _ => envTick_release rfl) rfl hnr
  refine (congrArg (envTicks (List.replicate k .Off)) hstage).trans ?_
  exact envTicks_fixed (envTick_idle rfl) k

end

/-! ## Attack, Decay, Sustain (R198, R201) -/

/-- The envelope at the beginning of Decay (R198). -/
def decayEntry (e : Env) : Env := { e with stage := .decay, k := 0, start := one, level := one }

/-- The envelope at rest in Sustain (R201). -/
def sustained (e : Env) : Env := { e with stage := .sustain, k := 0, start := e.sus, level := e.sus }

section
variable {e : Env} (h : AtRest e)
include h

theorem envTicks_on_attack {k : Nat} (hk : 1 ≤ k) (hkn : k < e.na.toNat) :
    envTicks (List.replicate k .On) e = onLine (attackEntry e) one k e.na.toNat := by
  rw [envTicks_of_enter (by decide) hk, envEnter_on_atRest h]
  exact envTicks_onLine (fun _ _ => envTick_attack rfl) rfl hk hkn

theorem envTicks_on_attack_end (hna : 1 ≤ e.na.toNat) : envTicks (List.replicate e.na.toNat .On) e = decayEntry e := by
  rw [envTicks_of_enter (by decide) hna, envEnter_on_atRest h]
  exact envTicks_stage (e := attackEntry e) (fun _ _ => envTick_attack rfl) rfl hna

theorem envTicks_on_decay (hna : 1 ≤ e.na.toNat) {k : Nat} (hk : 1 ≤ k) (hkn : k < e.nd.toNat) :
    envTicks (List.replicate (e.na.toNat + k) .On) e = onLine (decayEntry e) e.sus k e.nd.toNat := by
  rw [envTicks_replicate_add, envTicks_on_attack_end h hna]
  exact envTicks_onLine (fun _ _ => envTick_decay rfl) rfl hk hkn

theorem envTicks_on_sustain (hna : 1 ≤ e.na.toNat) (hnd : 1 ≤ e.nd.toNat) (k : Nat) :
    envTicks (List.replicate (e.na.toNat + e.nd.toNat + k) .On) e = sustained e := by
  rw [envTicks_replicate_add, envTicks_replicate_add, envTicks_on_attack_end h hna]
  have hstage := envTicks_stage (e := decayEntry e) (fun _ _ => envTick_decay rfl) rfl hnd
  refine (congrArg (envTicks (List.replicate k .On)) hstage).trans ?_
  exact envTicks_fixed (envTick_sustain rfl) k

end

/-- Settles O58: the On path is Attack, Decay and Sustain, each from where the one before ended; a release is one stage. -/
theorem adsrPath : Obligations.AdsrPath := by
  intro e hna hnd hnr line on off
  refine ⟨fun hrest => ⟨?_, ?_, ?_, ?_⟩, fun hsounding => ⟨?_, ?_⟩⟩
  · exact fun k => envTicks_on_attack hrest
  · exact envTicks_on_attack_end hrest hna
  · exact fun k => envTicks_on_decay hrest hna
  · exact envTicks_on_sustain hrest hna hnd
  · exact fun k => envTicks_off_line hsounding
  · exact envTicks_off_idle hsounding hnr

/-! ## Trigger (R200, R202) -/

/-- The level of the Trigger tick. -/
def peakLevel (na : Nat) : Num32 := if na = 1 then one else lineLevel posZero one 1 na

/-- An envelope at the peak of its Trigger tick, in the stage and with the counter and the start that the tick left. -/
def atPeak (e : Env) (stage : Stage) (k : BitVec 32) (start : Num32) : Env :=
  { e with stage := stage, k := k, start := start, level := peakLevel e.na.toNat }

/-- The Trigger tick is one tick of Attack from 0, which ends there where NA is 1. -/
theorem envTick_trigger_atPeak {e : Env} (hna : 1 ≤ e.na.toNat) :
    ∃ stage k start, (stage = .attack ∨ stage = .decay) ∧ (envTick e .Trigger).2 = atPeak e stage k start := by
  rw [envTick_trigger]
  rcases ramp_cases (e := attackEntry e) (target := one) (next := .decay) (ns := one) hna with
    ⟨hlast, he⟩ | ⟨hlt, -, he⟩ <;> rw [he]
  · have h1 : e.na.toNat = 1 := hlast.symm
    exact ⟨_, _, _, .inr rfl, by rw [atPeak, peakLevel, if_pos h1]; rfl⟩
  · have h1 : e.na.toNat ≠ 1 := hlt.ne'
    exact ⟨_, _, _, .inl rfl, by rw [atPeak, peakLevel, if_neg h1]; rfl⟩

/-- Settles O59: the Trigger tick leaves the envelope sounding at the peak, and Off releases it from there. -/
theorem triggerPath : Obligations.TriggerPath := by
  intro e hna hnr line peak run
  obtain ⟨stage, k, start, hstage, htick⟩ := envTick_trigger_atPeak hna
  have hsounding : Sounding (atPeak e stage k start) := hstage.imp_right .inl
  have hrun : ∀ k', run k' = envTicks (List.replicate k' .Off) (atPeak e stage k start) := fun k' =>
    congrArg (envTicks (List.replicate k' .Off)) htick
  exact ⟨congrArg Env.level (hrun 0), fun k' hk hkn => (hrun k').trans (envTicks_off_line hsounding hk hkn),
    fun k' => (hrun _).trans (envTicks_off_idle hsounding hnr k')⟩

end Sys2Proof.Machine
end

section
/-! PROOFS. VOICE_NEW and the two commands that start a note (44_engine.md R228 to R230, R233): what is built where every
frequency fits, the refusal where one does not, and the two checks of a note command before it. -/

namespace Sys2Proof.Machine

/-! ## VOICE_NEW -/

theorem exec_voiceNew (entry : Instrument) (note : Byte) (active : ActiveState) (s : State) :
    exec (.voiceNew entry note active) s =
      answer (voiceNew s.params s.engine.fs entry note active) (fun c => { s with result := .slot c }) := rfl

section
variable {p : Params} {fs : Num32} {note : Byte}

/-- An operator is refused only for its frequency (R121). -/
theorem operatorNew_error {entry : Instrument} {i : Fin 4} {d : FMOperatorDefinition} {r : Refusal}
    (h : operatorNew p fs entry note i d = .error r) : r = .nonfiniteInput := by
  by_cases hfits : OscFits d.table.length fs (noteHz p.noteHz entry (some i) note)
  · rw [operatorNew_ok hfits] at h; cases h
  · rw [operatorNew_refuses hfits] at h; cases h; rfl

theorem voiceNew_of_algorithm_above {d : FMDefinition} (h : 11 < d.algorithm.toNat) (active : ActiveState) :
    voiceNew p fs (.fm d) note active = .error .algorithmRange := by
  have hge : ¬ d.algorithm.toNat < 12 := by omega
  simp only [voiceNew, dif_neg hge]

/-- With an algorithm of R166 the refusal of a voice is that of one of its operators. -/
theorem voiceNew_fm_error {d : FMDefinition} {active : ActiveState} {r : Refusal} (halg : d.algorithm.toNat ≤ 11)
    (h : voiceNew p fs (.fm d) note active = .error r) : r = .nonfiniteInput := by
  have hlt : d.algorithm.toNat < 12 := by omega
  simp only [voiceNew, dif_pos hlt] at h
  split at h
  next h0 => cases h; exact operatorNew_error h0
  split at h
  next h1 => cases h; exact operatorNew_error h1
  split at h
  next h2 => cases h; exact operatorNew_error h2
  split at h
  next h3 => cases h; exact operatorNew_error h3
  cases h

/-- A voice whose frequencies do not all fit is refused for that, where its algorithm is one of R166. -/
theorem voiceNew_nonfinite {entry : Instrument} (active : ActiveState)
    (halg : ∀ d, entry = .fm d → d.algorithm.toNat ≤ 11) (hfits : ¬ VoiceFits p fs entry note) :
    voiceNew p fs entry note active = .error .nonfiniteInput := by
  cases entry with
  | wt d => simp only [voiceNew, oscNew_refuses hfits]
  | fm d =>
    cases hnew : voiceNew p fs (.fm d) note active with
    | ok c => exact absurd (voiceNew_cases hnew).1 hfits
    | error r => rw [voiceNew_fm_error (halg d rfl) hnew]

end

/-- Settles O19: where it completes VOICE_NEW answers `voiceBuilt`, whose oscillators and operators are those of R229. -/
theorem voiceNewBuilds : Obligations.VoiceNewBuilds := by
  intro note active s osc
  simp only [exec_voiceNew]
  refine ⟨fun d hfits => ?_, fun d hfits => ?_, fun entry halg hfits => ?_, fun d halg => ?_⟩
  · rw [voiceNew_ok active hfits, answer_ok]
    rfl
  · refine ⟨_, by rw [voiceNew_ok active hfits, answer_ok]; rfl, rfl, ?_, rfl, fun i => ?_⟩
    · exact Nat.mod_eq_of_lt (Nat.lt_succ_of_le hfits.1)
    · match i with
      | 0 | 1 | 2 | 3 => rfl
  · rw [voiceNew_nonfinite active halg hfits, answer_error]
  · rw [voiceNew_of_algorithm_above halg, answer_error]

/-! ## The note commands -/

theorem instrumentAt_eq_none {s : State} {n : Nat} (h : s.params.numInstruments ≤ n ∨ romEntry s.engine.rom n = none) :
    instrumentAt s n = none := by
  rcases h with hn | hnone
  · exact if_neg (by omega)
  · rw [instrumentAt, hnone, ite_self]

section
variable {note inst ch : Byte} {s : State}

theorem startNote_badChannel (w : Word) (active : ActiveState) (hch : s.params.numChannels ≤ ch.toNat) :
    startNote w note inst ch active s = .ok (raiseFault { cause := .badChannel, info := .word w } s) :=
  if_pos hch

variable (hch : ch.toNat < s.params.numChannels)
include hch

theorem startNote_badInstrument (w : Word) (active : ActiveState)
    (h : s.params.numInstruments ≤ inst.toNat ∨ romEntry s.engine.rom inst.toNat = none) :
    startNote w note inst ch active s = .ok (raiseFault { cause := .badInstrument, info := .word w } s) := by
  simp only [startNote, if_neg (Nat.not_le.mpr hch), instrumentAt_eq_none h]

/-- Past its two checks a note command is VOICE_NEW and the one write of the channel (R228, R283). -/
theorem startNote_of_entry {entry : Instrument} (w : Word) (active : ActiveState)
    (hinst : inst.toNat < s.params.numInstruments) (hentry : romEntry s.engine.rom inst.toNat = some entry) :
    startNote w note inst ch active s = (voiceNew s.params s.engine.fs entry note active).map
      (fun c => { s with engine := setChannel s.engine ch.toNat c }) := by
  have hat : instrumentAt s inst.toNat = some entry := (if_pos hinst).trans hentry
  simp only [startNote, if_neg (Nat.not_le.mpr hch), hat]
  cases voiceNew s.params s.engine.fs entry note active <;> rfl

end

/-- A note command in all its forms, for the word `w` that it records and either kind of voice (R228, R230, R233). -/
theorem noteCommand_forms (w : Word) (active : ActiveState) (note inst ch : Byte) (s : State) :
    let run := answer (startNote w note inst ch active s) (returning .none)
    (s.params.numChannels ≤ ch.toNat →
      run = .next (returning .none (raiseFault { cause := .badChannel, info := .word w } s))) ∧
    (ch.toNat < s.params.numChannels →
      s.params.numInstruments ≤ inst.toNat ∨ romEntry s.engine.rom inst.toNat = none →
      run = .next (returning .none (raiseFault { cause := .badInstrument, info := .word w } s))) ∧
    (∀ entry, ch.toNat < s.params.numChannels → inst.toNat < s.params.numInstruments →
      romEntry s.engine.rom inst.toNat = some entry → VoiceFits s.params s.engine.fs entry note →
      ∃ c, exec (.voiceNew entry note active) s = .next (returning (.slot c) s) ∧
        run = .next (returning .none { s with engine := setChannel s.engine ch.toNat c })) ∧
    (∀ entry, ch.toNat < s.params.numChannels → inst.toNat < s.params.numInstruments →
      romEntry s.engine.rom inst.toNat = some entry → (∀ d, entry = .fm d → d.algorithm.toNat ≤ 11) →
      ¬ VoiceFits s.params s.engine.fs entry note → run = .refused .nonfiniteInput) := by
  intro run
  refine ⟨fun hch => ?_, fun hch hnone => ?_, fun entry hch hinst hentry hfits => ?_,
    fun entry hch hinst hentry halg hfits => ?_⟩ <;> simp only [run]
  · rw [startNote_badChannel w active hch, answer_ok]
  · rw [startNote_badInstrument hch w active hnone, answer_ok]
  · rw [startNote_of_entry hch w active hinst hentry, exec_voiceNew, voiceNew_ok active hfits]
    exact ⟨_, rfl, rfl⟩
  · rw [startNote_of_entry hch w active hinst hentry, voiceNew_nonfinite active halg hfits]
    rfl

/-- Settles O15: PIANO_KEY_PRESSED is the note command with opcode 0x01 and an On voice. -/
theorem keyPressed : Obligations.KeyPressed :=
  fun note inst ch s => noteCommand_forms (encodeCmd (.pressed note inst ch)) .On note inst ch s

/-- Settles O16: TRIGGER_NOTE is the note command with opcode 0x03 and a Trigger voice. -/
theorem noteTriggered : Obligations.NoteTriggered :=
  fun note inst ch s => noteCommand_forms (encodeCmd (.trigger note inst ch)) .Trigger note inst ch s

end Sys2Proof.Machine
end

section
/-! PROOFS. PIANO_KEY_RELEASED and SOUND_ROM_INSTANCE_CHANGED (44_engine.md R231, R232): the fault of each check, else the
one write. -/

namespace Sys2Proof

/-- A release with a reserved bit set is illegal (R94). -/
theorem decodeCmd_of_rsv_ne_zero {ch : Byte} {rsv : BitVec 16} (h : rsv ≠ 0#16) : decodeCmd (0x02#8 ++ ch ++ rsv) = none := by
  obtain ⟨hop, -, hrsv⟩ := fields_of_channel 0x02#8 ch rsv
  simp [decodeCmd, hop, hrsv, h]

end Sys2Proof

namespace Sys2Proof.Machine

/-! ## PIANO_KEY_RELEASED -/

theorem exec_pianoKeyReleased (ch : Byte) (s : State) :
    exec (.pianoKeyReleased ch) s = .next (returning .none (releaseKey (0x02#8 ++ ch ++ 0#16) ch s)) := rfl

theorem releaseKey_badChannel {ch : Byte} {s : State} (w : Word) (hch : s.params.numChannels ≤ ch.toNat) :
    releaseKey w ch s = raiseFault { cause := .badChannel, info := .word w } s :=
  if_pos hch

theorem releaseKey_of_channel {ch : Byte} {s : State} {c : Channel} (w : Word) (hch : ch.toNat < s.params.numChannels)
    (hc : channelAt s.engine ch.toNat = some c) :
    releaseKey w ch s = { s with engine := setChannel s.engine ch.toNat (releaseChannel c) } := by
  simp only [releaseKey, if_neg (Nat.not_le.mpr hch), hc]

/-- Settles O17: the channel is written with the voice released, which leaves an Empty one as it was. -/
theorem keyReleased : Obligations.KeyReleased := by
  intro ch s
  simp only [exec_pianoKeyReleased]
  refine ⟨fun hch => ?_, fun hch hc => ?_, fun v hch hc => ?_, fun v hch hc => ?_, fun rsv hrsv => ?_⟩
  · rw [releaseKey_badChannel _ hch]; rfl
  · have hsame : setChannel s.engine ch.toNat (releaseChannel .empty) = s.engine := setChannel_self hc
    rw [releaseKey_of_channel _ hch hc, hsame]; rfl
  · rw [releaseKey_of_channel _ hch hc]; rfl
  · rw [releaseKey_of_channel _ hch hc]; rfl
  · exact applyWord_of_decodeCmd_none (decodeCmd_of_rsv_ne_zero hrsv) s

/-! ## SOUND_ROM_INSTANCE_CHANGED -/

theorem exec_soundRomInstanceChanged (slot : BitVec 24) (s : State) :
    exec (.soundRomInstanceChanged slot) s = .next (returning .none (changeRom (0x04#8 ++ slot) slot s)) := rfl

section
variable {slot : BitVec 24} {s : State} (w : Word)

theorem changeRom_badSlot (h : romAt s.params.roms slot = none) :
    changeRom w slot s = raiseFault { cause := .badRomSlot, info := .word w } s := by
  simp only [changeRom, h]

theorem changeRom_invalid {rom : RomInstance} {f : FaultRecord} (h : romAt s.params.roms slot = some rom)
    (hf : romFault s.params.numInstruments s.engine.fs rom slot = some f) : changeRom w slot s = raiseFault f s := by
  simp only [changeRom, h, hf]

theorem changeRom_valid {rom : RomInstance} (h : romAt s.params.roms slot = some rom)
    (hf : romFault s.params.numInstruments s.engine.fs rom slot = none) :
    changeRom w slot s = { s with engine := { s.engine with romId := slot, rom := rom } } := by
  simp only [changeRom, h, hf]

end

/-- Settles O18: the slot, then ROM_VALIDATE, then the one write of the pair. -/
theorem romChanged : Obligations.RomChanged := by
  intro slot s
  simp only [exec_soundRomInstanceChanged]
  refine ⟨fun hslot => ?_, fun rom f hslot hf => ?_, fun rom hslot hf => ?_⟩
  · rw [changeRom_badSlot _ hslot]; rfl
  · rw [changeRom_invalid _ hslot hf]; rfl
  · rw [changeRom_valid _ hslot hf]; rfl

end Sys2Proof.Machine
end

section
/-! PROOFS. The order of ROM_VALIDATE's faults (44_engine.md R226, 60_exceptions.md R284): the first check that fails gives
the fault of an operator, the first operator with a fault that of an instrument, the first instrument that of the ROM. -/

namespace Sys2Proof.Machine

/-! ## The ROM -/

theorem exec_romValidate_valid {rom : RomInstance} {slot : BitVec 24} {s : State}
    (h : romFault s.params.numInstruments s.engine.fs rom slot = none) :
    exec (.romValidate rom slot) s = .next (returning .none s) := by
  simp only [exec, execRomValidate, h]
  rfl

theorem exec_romValidate_invalid {rom : RomInstance} {slot : BitVec 24} {s : State} {f : FaultRecord}
    (h : romFault s.params.numInstruments s.engine.fs rom slot = some f) :
    exec (.romValidate rom slot) s = .next (returning .none (raiseFault f s)) := by
  simp only [exec, execRomValidate, h]
  rfl

section
variable {n : Nat} {fs : Num32} {rom : RomInstance} {slot : BitVec 24}

theorem romFault_eq_none_iff :
    romFault n fs rom slot = none ↔ ∀ k < n, instrumentFault fs slot k (romEntry rom k) = none := by
  simp only [romFault, List.findSome?_eq_none_iff, List.mem_range]

/-- The first instrument with a fault is the only one that can be first. -/
theorem romFault_of_first {k : Nat} {f : FaultRecord} (hk : k < n)
    (hbefore : ∀ j < k, instrumentFault fs slot j (romEntry rom j) = none)
    (hf : instrumentFault fs slot k (romEntry rom k) = some f) : romFault n fs rom slot = some f := by
  cases hrom : romFault n fs rom slot with
  | none => rw [romFault_eq_none_iff.mp hrom k hk] at hf; cases hf
  | some g =>
    obtain ⟨j, -, hg, hbefore'⟩ := romFault_some hrom
    rcases lt_trichotomy j k with hlt | rfl | hlt
    · rw [hbefore j hlt] at hg; cases hg
    · exact hg.symm.trans hf
    · rw [hbefore' k hlt] at hf; cases hf

end

/-! ## One instrument -/

section
variable {fs : Num32} {slot : BitVec 24} {n : Nat}

/-- A check that fails hides the checks after it. -/
theorem checkFault_or (ok : Bool) (c : Cause) (info : FaultInfo) (rest : Option FaultRecord) :
    (checkFault ok c info).or rest = if ok = false then some { cause := c, info := info } else rest := by
  cases ok <;> rfl

theorem checkFault_eq (ok : Bool) (c : Cause) (info : FaultInfo) :
    checkFault ok c info = if ok = false then some { cause := c, info := info } else none := by
  cases ok <;> rfl

theorem instrumentFault_wt (d : WavetableDefinition) :
    instrumentFault fs slot n (some (.wt d)) =
      if tableOk d.data = false then some { cause := .badTable, info := .rom slot n 0xFF }
      else if envOk d.envelope fs = false then some { cause := .badEnvelope, info := .rom slot n 0xFF } else none := by
  rw [instrumentFault, checkFault_or, checkFault_eq, Config.noOperator]

theorem instrumentFault_fm_algorithm {d : FMDefinition} (h : 11 < d.algorithm.toNat) :
    instrumentFault fs slot n (some (.fm d)) = some { cause := .badAlgorithm, info := .rom slot n 0xFF } := by
  have hbad : decide (d.algorithm.toNat ≤ 11) = false := decide_eq_false (by omega)
  simp only [instrumentFault, hbad, checkFault_false, Option.some_or, Config.noOperator]

theorem operatorFault_eq (i : Nat) (d : FMOperatorDefinition) :
    operatorFault fs slot n i d =
      if tableOk d.table = false then some { cause := .badTable, info := .rom slot n i }
      else if envOk d.envelope fs = false then some { cause := .badEnvelope, info := .rom slot n i }
      else if F32.isFinite d.modulationDepth = false then some { cause := .badDepth, info := .rom slot n i } else none := by
  rw [operatorFault, checkFault_or, checkFault_or, checkFault_eq]

/-- With a legal algorithm the fault of an FM instrument is the first of its four operators'. -/
theorem instrumentFault_fm {d : FMDefinition} (h : d.algorithm.toNat ≤ 11) :
    instrumentFault fs slot n (some (.fm d)) =
      (operatorFault fs slot n 0 d.op.o0).or ((operatorFault fs slot n 1 d.op.o1).or
        ((operatorFault fs slot n 2 d.op.o2).or (operatorFault fs slot n 3 d.op.o3))) := by
  simp only [instrumentFault, decide_eq_true h, checkFault_true, Option.none_or]

end

/-- The first of four that is there. -/
theorem or_four_of_first {α : Type} {g : Fin 4 → Option α} {i : Fin 4} {a : α} (hbefore : ∀ j < i, g j = none)
    (hi : g i = some a) : (g 0).or ((g 1).or ((g 2).or (g 3))) = some a := by
  match i with
  | 0 => simp [hi]
  | 1 => simp [hbefore 0 (by decide), hi]
  | 2 => simp [hbefore 0 (by decide), hbefore 1 (by decide), hi]
  | 3 => simp [hbefore 0 (by decide), hbefore 1 (by decide), hbefore 2 (by decide), hi]

/-- Settles O22: each level answers the first fault of the level below it. -/
theorem romValidateFirst : Obligations.RomValidateFirst := by
  intro rom slot s fault ofEntry
  refine ⟨fun hnone => ?_, fun k f hk hbefore hf => ?_, fun k hk => ?_, fun k d hk => ?_, fun k d hk halg => ?_,
    fun k d hk halg => ?_⟩
  · exact exec_romValidate_valid (romFault_eq_none_iff.mpr hnone)
  · exact exec_romValidate_invalid (romFault_of_first hk hbefore hf)
  · simp only [ofEntry, hk, instrumentFault]
  · simp only [ofEntry, hk, instrumentFault_wt, fault]
  · simp only [ofEntry, hk, instrumentFault_fm_algorithm halg, fault]
  · intro ofOp
    have hop : ∀ i : Fin 4, ofOp i = operatorFault s.engine.fs slot k i (quadGet d.op i) := fun i =>
      (operatorFault_eq i.val (quadGet d.op i)).symm
    have hentry : ofEntry k = (ofOp 0).or ((ofOp 1).or ((ofOp 2).or (ofOp 3))) := by
      simp only [ofEntry, hk, instrumentFault_fm halg, hop]
      rfl
    rw [hentry]
    refine ⟨fun i f => or_four_of_first, fun hnone => ?_⟩
    rw [hnone 0, hnone 1, hnone 2, hnone 3]
    rfl

end Sys2Proof.Machine
end

section
/-! PROOFS. The queue and the drain (44_engine.md R222, R234, R235): what one applied word does, and that a drain completes
where nothing overflows. -/

namespace Sys2Proof.Machine

/-- Settles O23: ENQUEUE is the one write of CMDQ. -/
theorem enqueueAppends : Obligations.EnqueueAppends := fun _ _ => rfl

theorem applyWord_of_decodeCmd {w : Word} {c : Command} (h : decodeCmd w = some c) (s : State) :
    applyWord w s = applyCommand w c s := by
  simp only [applyWord, h]

/-- A command that is executed records its own word (R228 to R232, R281). -/
theorem exec_command (c : Command) (s : State) :
    exec c.toInstr s = answer (applyCommand (encodeCmd c) c s) (returning .none) := by
  cases c <;> rfl

/-- Settles O25: a word that decodes is the encoding of its command, so both record the same word. -/
theorem appliedWordIsCommand : Obligations.AppliedWordIsCommand := by
  intro w s c hdec
  rw [applyWord_of_decodeCmd hdec, ← encodeCmd_of_decodeCmd hdec]
  exact exec_command c s

/-- Settles O26: every effect of a word but a fault leaves FAULT and LOG alone. -/
theorem faultConfined : Obligations.FaultConfined := by
  intro w ws s t h
  exact ⟨applyWords_cons_ok h ws, (applyWord_effect h).quiet_or_fault⟩

theorem exec_drain (s : State) : exec .drain s = answer (drain s) (returning .none) := rfl

/-- Settles O27: `drain_ok` from the invariants a drain rests on, and the frame of a drain. -/
theorem drainCompletes : Obligations.DrainCompletes := by
  intro s hlegal hrom htame
  obtain ⟨u, hu, -⟩ := drain_ok ⟨hlegal, hrom, htame⟩
  obtain ⟨hparams, hfs, hlen, hstop, hrefused, hcmdq, houtq, hcur, hport, -, htap, hinputs⟩ := drain_frame hu
  refine ⟨returning .none u, by rw [exec_drain, hu, answer_ok], hcmdq, hfs, hlen, ?_⟩
  simp only [returning, ← hparams, ← hstop, ← hrefused, ← hcmdq, ← houtq, ← hcur, ← hport, ← htap, ← hinputs]

end Sys2Proof.Machine
end

section
/-! PROOFS. MIX_TICK (44_engine.md R236, R238, R239): the plain sum of what the channels contribute, its range, and the
refusal of one channel's tick. -/

namespace Sys2Proof.Machine

open F32

theorem exec_mixTick (s : State) :
    exec .mixTick s = answer (mixTick s.params.algTable s.engine.ch)
      (fun yc => { s with engine := { s.engine with ch := yc.2 }, result := .num yc.1 }) := rfl

/-! ## What a channel contributes -/

/-- What a channel's own tick gives the mix, if anything, and leaves in the channel (R236). -/
def TicksTo (table : Vector AlgorithmDefinition 10) (c : Channel) (o : Option Num32 × Channel) : Prop :=
  match c with
  | .empty => o = (none, .empty)
  | .wt v => ∃ y v', voiceTick v = .ok (y, v') ∧ o = (some y, .wt v')
  | .fm v => ∃ y v', fmTick table v = .ok (y, v') ∧ o = (some y, .fm v')

section
variable {table : Vector AlgorithmDefinition 10}

theorem exists_ticksTo {c : Channel} (hlegal : ChannelLegal c) (htame : ChannelTame c) : ∃ o, TicksTo table c o := by
  cases c with
  | empty => exact ⟨_, rfl⟩
  | wt v =>
    obtain ⟨_, -, -, htick, -⟩ := voiceTick_ok hlegal
    exact ⟨_, _, _, htick, rfl⟩
  | fm v =>
    obtain ⟨_, -, htick⟩ := fmTick_ok hlegal htame table
    exact ⟨_, _, _, htick, rfl⟩

theorem exists_forall₂_ticksTo {cs : List Channel} (hlegal : ∀ c ∈ cs, ChannelLegal c) (htame : ∀ c ∈ cs, ChannelTame c) :
    ∃ outs, List.Forall₂ (TicksTo table) cs outs := by
  induction cs with
  | nil => exact ⟨[], .nil⟩
  | cons c cs ih =>
    rw [List.forall_mem_cons] at hlegal htame
    obtain ⟨o, ho⟩ := exists_ticksTo (table := table) hlegal.1 htame.1
    obtain ⟨outs, houts⟩ := ih hlegal.2 htame.2
    exact ⟨o :: outs, .cons ho houts⟩

theorem channelTick_of_ticksTo {c : Channel} {o : Option Num32 × Channel} (h : TicksTo table c o) (y : Num32) :
    channelTick table y c = .ok (o.1.toList.foldl add y, o.2) := by
  cases c with
  | empty => cases h; rfl
  | wt v => obtain ⟨x, v', htick, rfl⟩ := h; simp only [channelTick, htick]; rfl
  | fm v => obtain ⟨x, v', htick, rfl⟩ := h; simp only [channelTick, htick]; rfl

/-- The loop of MIX_TICK adds what each channel contributes, in order (R236). -/
theorem mixChannels_of_ticksTo {cs : List Channel} {outs : List (Option Num32 × Channel)}
    (h : List.Forall₂ (TicksTo table) cs outs) (y : Num32) :
    mixChannels table cs y = .ok ((outs.filterMap (fun o => o.1)).foldl add y, outs.map (fun o => o.2)) := by
  induction h generalizing y with
  | nil => rfl
  | @cons c o cs outs hc _ ih =>
    simp only [mixChannels, channelTick_of_ticksTo hc, ih]
    obtain ⟨x | x, c'⟩ := o <;> rfl

/-- A channel whose tick is refused makes the loop refused, once the channels before it have ticked. -/
theorem mixChannels_refused {pre post : List Channel} {c : Channel} {r : Refusal}
    (hpre : ∀ d ∈ pre, ChannelLegal d ∧ ChannelTame d) (hc : ∀ y, channelTick table y c = .error r) (y : Num32) :
    mixChannels table (pre ++ c :: post) y = .error r := by
  induction pre generalizing y with
  | nil => simp only [List.nil_append, mixChannels, hc]
  | cons d pre ih =>
    rw [List.forall_mem_cons] at hpre
    obtain ⟨y', hd⟩ := channelTick_total (table := table) y hpre.1.1 hpre.1.2
    simp only [List.cons_append, mixChannels, hd, ih hpre.2]

end

/-- Settles O28: the loop adds the contributions of the channels from +0.0; a refused tick refuses it. -/
theorem mixTickSums : Obligations.MixTickSums := by
  refine ⟨fun s hlegal htame => ?_, fun s pre post c r hch hpre hc => ?_⟩
  · obtain ⟨outs, houts⟩ := exists_forall₂_ticksTo (table := s.params.algTable) hlegal.2 htame
    exact ⟨outs, houts, by rw [exec_mixTick, mixTick, mixChannels_of_ticksTo houts, answer_ok]⟩
  · have htick : ∀ y, channelTick s.params.algTable y c = .error r := by
      intro y
      rcases hc with ⟨v, rfl, hv⟩ | ⟨v, rfl, hv⟩ <;> simp only [channelTick, hv]
    rw [exec_mixTick, mixTick, hch, mixChannels_refused hpre htick, answer_error]

/-! ## The range of the mix -/

/-- Settles O29: each of at most 256 channels adds a value of [0, 4], and sums of that size do not round out of the range. -/
theorem mixRange : Obligations.MixRange := by
  intro s t y hlegal htame hshape hwf hexec hresult
  have hslots : s.engine.ch.length = s.params.numChannels := hshape.1
  have hcount : s.params.numChannels ≤ 256 := hwf.2.1
  have hbound : 0 + 4 * s.engine.ch.length ≤ 2 ^ 24 := by omega
  obtain ⟨y', hmix, hrange⟩ := mixChannels_ok (table := s.params.algTable) hbound (inRange_zero 0) hlegal.2 htame
  rw [exec_mixTick, mixTick, hmix, answer_ok] at hexec
  cases hexec
  cases hresult
  rw [zero_add, hslots] at hrange
  exact (inRange_iff (by omega)).mp hrange

end Sys2Proof.Machine
end

section
/-! PROOFS. RENDER_FRAME (44_engine.md R237, R241): a drain and then as many MIX_TICKs as the frame has samples, and the
same for two engines that agree. -/

namespace Sys2Proof.Machine

/-! ## A run of MIX_TICKs -/

theorem answer_refused {α : Type} {r : Except Refusal α} {k : α → State} {e : Refusal} (h : answer r k = .refused e) :
    r = .error e := by
  cases r with
  | ok a => cases h
  | error e' => cases h; rfl

/-- The states `st 0` to `st n` are a run of `n` MIX_TICKs. -/
def MixRun (n : Nat) (st : Nat → State) : Prop := ∀ i < n, exec .mixTick (st i) = .next (st (i + 1))

theorem MixRun.tail {n : Nat} {st : Nat → State} (h : MixRun (n + 1) st) : MixRun n (fun i => st (i + 1)) :=
  fun i hi => h (i + 1) (by omega)

theorem mixTick_of_exec {s t : State} (h : exec .mixTick s = .next t) :
    ∃ y, mixTick s.params.algTable s.engine.ch = .ok (y, t.engine.ch) ∧
      t = { s with engine := { s.engine with ch := t.engine.ch }, result := .num y } := by
  obtain ⟨⟨y, cs⟩, hmix, rfl⟩ := answer_next h
  exact ⟨y, hmix, rfl⟩

theorem renderSamples_succ {table : Vector AlgorithmDefinition 10} {cs cs' : List Channel} {y : Num32}
    (h : mixTick table cs = .ok (y, cs')) (n : Nat) :
    renderSamples table (n + 1) cs = (renderSamples table n cs').map (fun bc => (y :: bc.1, bc.2)) := by
  simp only [renderSamples, h]
  cases renderSamples table n cs' <;> rfl

/-- A run of MIX_TICKs changes CH and the returned value alone. -/
theorem MixRun.frame {n : Nat} {st : Nat → State} (h : MixRun n st) :
    st n = { st 0 with engine := { (st 0).engine with ch := (st n).engine.ch }, result := (st n).result } := by
  induction n with
  | zero => rfl
  | succ n ih =>
    obtain ⟨y, -, ht⟩ := mixTick_of_exec (h n (by omega))
    rw [ht, ih (fun i hi => h i (by omega))]

/-- The sample loop is a run of MIX_TICKs, whose results are its samples (R237). -/
theorem renderSamples_of_mixRun {n : Nat} {st : Nat → State} (h : MixRun n st) :
    ∃ b : Frame, renderSamples (st 0).params.algTable n (st 0).engine.ch = .ok (b, (st n).engine.ch) ∧ b.length = n ∧
      ∀ i < n, ∃ x, b[i]? = some x ∧ (st (i + 1)).result = .num x := by
  induction n generalizing st with
  | zero => exact ⟨[], rfl, rfl, fun i hi => absurd hi (Nat.not_lt_zero i)⟩
  | succ n ih =>
    obtain ⟨y, hmix, ht⟩ := mixTick_of_exec (h 0 (by omega))
    have hparams : (st 1).params = (st 0).params := by rw [ht]
    obtain ⟨b, hb, hlen, hsamples⟩ := ih h.tail
    rw [hparams] at hb
    refine ⟨y :: b, by rw [renderSamples_succ hmix, hb]; rfl, by rw [List.length_cons, hlen], fun i hi => ?_⟩
    cases i with
    | zero => exact ⟨y, rfl, by rw [ht]⟩
    | succ i => exact hsamples i (by omega)

/-- A tick that is refused after a run of ticks makes the sample loop refused. -/
theorem renderSamples_refused {k n : Nat} (hk : k < n) {st : Nat → State} (h : MixRun k st) {r : Refusal}
    (hr : exec .mixTick (st k) = .refused r) : renderSamples (st 0).params.algTable n (st 0).engine.ch = .error r := by
  obtain ⟨n, rfl⟩ : ∃ m, n = m + 1 := ⟨n - 1, by omega⟩
  induction k generalizing n st with
  | zero => simp only [renderSamples, answer_refused hr]
  | succ k ih =>
    obtain ⟨n, rfl⟩ : ∃ m, n = m + 1 := ⟨n - 1, by omega⟩
    obtain ⟨y, hmix, ht⟩ := mixTick_of_exec (h 0 (by omega))
    have hparams : (st 1).params = (st 0).params := by rw [ht]
    have htail := ih h.tail hr n (by omega)
    rw [hparams] at htail
    rw [renderSamples_succ hmix, htail]
    rfl

/-! ## Runs that complete -/

/-- Every channel ticks. -/
def Ticking (s : State) : Prop := ∀ c ∈ s.engine.ch, ChannelLegal c ∧ ChannelTame c

/-- The state that MIX_TICK leaves, where it completes. -/
def afterMixTick (s : State) : State :=
  match exec .mixTick s with
  | .next t => t
  | .fault _ => s
  | .refused _ => s

theorem exec_mixTick_ok {s : State} (h : Ticking s) :
    exec .mixTick s = .next (afterMixTick s) ∧ Ticking (afterMixTick s) := by
  obtain ⟨y, hmix⟩ := mixChannels_total (table := s.params.algTable) F32.posZero (fun c hc => (h c hc).1)
    (fun c hc => (h c hc).2)
  have hexec : exec .mixTick s = .next { s with
      engine := { s.engine with ch := s.engine.ch.map channelAfter }, result := .num y } := by
    rw [exec_mixTick, mixTick, hmix, answer_ok]
  simp only [afterMixTick, hexec]
  refine ⟨trivial, fun c hc => ?_⟩
  obtain ⟨d, hd, rfl⟩ := List.mem_map.mp hc
  exact ⟨channelAfter_legal (h d hd).1, channelAfter_tame (h d hd).2⟩

theorem ticking_iterate {s : State} (h : Ticking s) (i : Nat) : Ticking (afterMixTick^[i] s) := by
  induction i with
  | zero => exact h
  | succ i ih => rw [Function.iterate_succ_apply']; exact (exec_mixTick_ok ih).2

/-- A state in which every channel ticks begins a run of any length. -/
theorem mixRun_iterate {s : State} (h : Ticking s) (n : Nat) : MixRun n (fun i => afterMixTick^[i] s) := by
  intro i _
  show exec .mixTick (afterMixTick^[i] s) = .next (afterMixTick^[i + 1] s)
  rw [Function.iterate_succ_apply']
  exact (exec_mixTick_ok (ticking_iterate h i)).1

/-! ## RENDER_FRAME -/

theorem exec_renderFrame (count : BitVec 24) (s : State) :
    exec (.renderFrame count) s =
      answer (renderFrame count.toNat s) (fun bt => { bt.2 with result := .frame bt.1 }) := rfl

theorem renderFrame_of_drain {s u : State} (h : drain s = .ok u) (n : Nat) :
    renderFrame n s = (renderSamples u.params.algTable n u.engine.ch).map
      (fun bc => (bc.1, { u with engine := { u.engine with ch := bc.2 } })) := by
  simp only [renderFrame, h]
  cases renderSamples u.params.algTable n u.engine.ch <;> rfl

theorem renderFrame_of_drain_refused {s : State} {r : Refusal} (h : drain s = .error r) (n : Nat) :
    renderFrame n s = .error r := by
  simp only [renderFrame, h]

/-- A drain and a run of MIX_TICKs after it make a frame (R237). -/
theorem exec_renderFrame_of_mixRun {s : State} {count : BitVec 24} {st : Nat → State}
    (hdrain : exec .drain s = .next (st 0)) (hrun : MixRun count.toNat st) :
    ∃ b : Frame, exec (.renderFrame count) s = .next { st count.toNat with result := .frame b } ∧
      b.length = count.toNat ∧ ∀ i < count.toNat, ∃ x, b[i]? = some x ∧ (st (i + 1)).result = .num x := by
  obtain ⟨u, hu, hst⟩ := answer_next hdrain
  obtain ⟨b, hb, hlen, hsamples⟩ := renderSamples_of_mixRun hrun
  have hend := hrun.frame
  rw [hst] at hb hend
  refine ⟨b, ?_, hlen, hsamples⟩
  rw [exec_renderFrame, renderFrame_of_drain hu, hb, hend]
  rfl

/-- A tick that is refused after the drain and a run of ticks makes the frame refused (R290). -/
theorem exec_renderFrame_of_refused {s : State} {count : BitVec 24} {k : Nat} {st : Nat → State} {r : Refusal}
    (hk : k < count.toNat) (hdrain : exec .drain s = .next (st 0)) (hrun : MixRun k st)
    (hr : exec .mixTick (st k) = .refused r) : exec (.renderFrame count) s = .refused r := by
  obtain ⟨u, hu, hst⟩ := answer_next hdrain
  have hsamples := renderSamples_refused hk hrun hr
  rw [hst] at hsamples
  rw [exec_renderFrame, renderFrame_of_drain hu, hsamples]
  rfl

/-- Settles O30: after the drain, the sample loop is a run of MIX_TICKs, which ends or is refused as the loop is. -/
theorem renderFrameRuns : Obligations.RenderFrameRuns := by
  refine ⟨fun s count hlegal hrom htame => ?_, fun s count r =>
    ⟨fun hdrain => ?_, fun k st hk hdrain hrun hr => exec_renderFrame_of_refused hk hdrain hrun hr⟩⟩
  · obtain ⟨u, hu, hlegal', -, -, -, -, htame'⟩ := drain_ok ⟨hlegal, hrom, htame⟩
    have hticking : Ticking (returning .none u) := fun c hc => ⟨hlegal'.2 c hc, htame' c hc⟩
    have hrun := mixRun_iterate hticking count.toNat
    have hdrain : exec .drain s = .next (returning .none u) := by rw [exec_drain, hu, answer_ok]
    obtain ⟨b, hexec, hlen, hsamples⟩ := exec_renderFrame_of_mixRun hdrain hrun
    refine ⟨b, fun i => afterMixTick^[i] (returning .none u), hlen, hdrain, fun i hi => ?_, hexec⟩
    obtain ⟨x, hx, hresult⟩ := hsamples i hi
    exact ⟨x, hx, hrun i hi, hresult⟩
  · rw [exec_renderFrame, renderFrame_of_drain_refused (answer_refused hdrain), answer_error]

/-- Two engines that agree render the same frame and agree again, or are refused alike (R241). -/
theorem exec_renderFrame_same {s t : State} (h : SameEngine s t) (count : BitVec 24) :
    (∃ r, exec (.renderFrame count) s = .refused r ∧ exec (.renderFrame count) t = .refused r) ∨
    (∃ b s' t', exec (.renderFrame count) s = .next s' ∧ exec (.renderFrame count) t = .next t' ∧
      s'.result = .frame b ∧ t'.result = .frame b ∧ SameEngine s' t') := by
  simp only [exec_renderFrame]
  rcases renderFrame_same h count.toNat with ⟨r, hs, ht⟩ | ⟨b, s', t', hs, ht, hsame⟩ <;> rw [hs, ht]
  · exact .inl ⟨r, rfl, rfl⟩
  · exact .inr ⟨b, _, _, rfl, rfl, rfl, rfl, hsame⟩

/-- Settles O31: `exec_renderFrame_same`, of which SoundEngineData is a part. -/
theorem frameDeterminism : Obligations.FrameDeterminism := by
  intro s t count hparams hengine hcmdq
  refine (exec_renderFrame_same ⟨hparams, hengine, hcmdq⟩ count).imp_right ?_
  rintro ⟨b, s', t', hs, ht, hb, hb', -, hengine', -⟩
  exact ⟨b, s', t', hs, ht, hb, hb', hengine'⟩

end Sys2Proof.Machine
end

section
/-! PROOFS. The state-save port and STOP (44_engine.md R244 to R247): SNAPSHOT, RESTORE, and the round trip of the two over
any number of frames. -/

namespace Sys2Proof.Machine

/-- Settles O32: SNAPSHOT writes the state-save port alone. -/
theorem snapshotCopies : Obligations.SnapshotCopies := fun _ => rfl

/-- Settles O35: STOP is the one write of STOP, which PRODUCER_STEP asks for first. -/
theorem stopCooperative : Obligations.StopCooperative := fun _ => ⟨rfl, rfl, rfl⟩

/-! ## RESTORE -/

theorem restoreOk_iff {d : SoundEngineData} {s : State} :
    restoreOk d s = true ↔ F32.eq d.fs s.engine.fs = true ∧ d.romId = s.engine.romId ∧ d.rom = s.engine.rom ∧
      d.ch.length = s.params.numChannels := by
  simp only [restoreOk, Bool.and_eq_true, beq_iff_eq, decide_eq_true_eq, and_assoc]

theorem exec_restore (s : State) : exec .restore s = answer (restore s.savePort s) (returning .none) := rfl

theorem restore_of_ok {d : SoundEngineData} {s : State} (h : restoreOk d s = true) :
    restore d s = .ok { s with engine := { s.engine with ch := d.ch } } := by
  obtain ⟨-, hid, hrom, -⟩ := restoreOk_iff.mp h
  rw [restore, if_pos h, hid, hrom]

/-- Settles O33: the four tests of RESTORE pass together, or one of them fails. -/
theorem restoreReplaces : Obligations.RestoreReplaces := by
  intro s
  rw [exec_restore]
  refine ⟨fun hfs hid hrom hlen => ?_, fun hbad => ?_⟩
  · rw [restore_of_ok (restoreOk_iff.mpr ⟨hfs, hid, hrom, hlen⟩)]; rfl
  · have hno : ¬ restoreOk s.savePort s = true := by
      rw [restoreOk_iff]
      rintro ⟨hfs, hid, hrom, hlen⟩
      rcases hbad with h | h | h | h
      · rw [h] at hfs; cases hfs
      · exact h hid
      · exact h hrom
      · exact h hlen
    rw [restore, if_neg hno, answer_error]

/-! ## The round trip -/

/-- A RESTORE that completes, under an FS that is the value's own, leaves the value as SoundEngineData. -/
theorem engine_of_exec_restore {s t : State} (hfs : s.engine.fs = s.savePort.fs) (h : exec .restore s = .next t) :
    t.params = s.params ∧ t.engine = s.savePort := by
  obtain ⟨u, hu, rfl⟩ := answer_next h
  obtain ⟨hok, rfl, -⟩ := restore_cases hu
  obtain ⟨-, hid, hrom, -⟩ := restoreOk_iff.mp hok
  refine ⟨rfl, ?_⟩
  simp only [← hid, ← hrom, hfs]

/-- RESTORE right after SNAPSHOT completes. -/
theorem exec_restore_of_own {s : State} (hshape : ShapeInv s) (hfs : RateLegal s.engine.fs) (hport : s.savePort = s.engine) :
    ∃ t, exec .restore s = .next t := by
  have hnan := F32.not_isNaN_of_isFinite hfs.1
  have hok : restoreOk s.savePort s = true := by
    rw [hport, restoreOk_iff]
    exact ⟨(F32.eq_iff hnan hnan).mpr rfl, rfl, rfl, hshape.1⟩
  exact ⟨_, by rw [exec_restore, restore_of_ok hok, answer_ok]⟩

/-- Two runs of frames from engines that agree agree at every frame, if the same words are queued at each drain and
nothing between two frames touches the parameters and SoundEngineData (R246). -/
theorem frames_agree {n : Nat} {count : Nat → BitVec 24} {a a' b : Nat → State}
    (hparams : (a 0).params = (b 0).params) (hengine : (a 0).engine = (b 0).engine)
    (hcmdq : ∀ i < n, (b i).cmdq = (a i).cmdq)
    (ha : ∀ i < n, exec (.renderFrame (count i)) (a i) = .next (a' i) ∧
      (a (i + 1)).params = (a' i).params ∧ (a (i + 1)).engine = (a' i).engine)
    (hb : ∀ i < n, ∀ g, exec (.renderFrame (count i)) (b i) = .next g →
      (b (i + 1)).params = g.params ∧ (b (i + 1)).engine = g.engine) :
    ∀ i < n, ∃ g, exec (.renderFrame (count i)) (b i) = .next g ∧ g.result = (a' i).result ∧ g.engine = (a' i).engine := by
  have hframe : ∀ i < n, (a i).params = (b i).params ∧ (a i).engine = (b i).engine →
      ∃ g, exec (.renderFrame (count i)) (b i) = .next g ∧ g.result = (a' i).result ∧ SameEngine (a' i) g := by
    rintro i hi ⟨hp, he⟩
    rcases exec_renderFrame_same ⟨hp, he, (hcmdq i hi).symm⟩ (count i) with ⟨r, hr, -⟩ | ⟨x, s', g, hs, hg, hx, hx', hsame⟩
    · rw [(ha i hi).1] at hr; cases hr
    · rw [(ha i hi).1] at hs; cases hs
      exact ⟨g, hg, hx'.trans hx.symm, hsame⟩
  have hstart : ∀ i ≤ n, (a i).params = (b i).params ∧ (a i).engine = (b i).engine := by
    intro i
    induction i with
    | zero => exact fun _ => ⟨hparams, hengine⟩
    | succ i ih =>
      intro hi
      obtain ⟨g, hg, -, hp, he, -⟩ := hframe i hi (ih (by omega))
      obtain ⟨-, hap, hae⟩ := ha i hi
      obtain ⟨hbp, hbe⟩ := hb i hi g hg
      exact ⟨hap.trans (hp.trans hbp.symm), hae.trans (he.trans hbe.symm)⟩
  intro i hi
  obtain ⟨g, hg, hresult, -, he, -⟩ := hframe i hi (hstart i hi.le)
  exact ⟨g, hg, hresult, he.symm⟩

/-- Settles O34: a RESTORE of the snapshot that completes leaves an engine that agrees with the one it was taken of, and
frames of engines that agree agree. -/
theorem snapshotRoundTrip : Obligations.SnapshotRoundTrip := by
  refine ⟨fun s hshape hfs => ?_, ?_⟩
  · obtain ⟨t, ht⟩ := exec_restore_of_own (s := { s with savePort := s.engine, result := .data s.engine }) hshape hfs rfl
    exact ⟨_, t, rfl, ht, (engine_of_exec_restore rfl ht).2⟩
  · intro s s' u v n count a a' b hsnap hport hparams hfs hrestore hap hae hbp hbe hcmdq ha hb
    cases hsnap
    have hport : u.savePort = s.engine := hport
    obtain ⟨hvp, hve⟩ := engine_of_exec_restore (by rw [hport, hfs]) hrestore
    exact frames_agree (hap.trans (hbp.trans (hvp.trans hparams)).symm) (hae.trans (hbe.trans (hve.trans hport)).symm)
      hcmdq ha hb

end Sys2Proof.Machine
end

section
/-! PROOFS. PRODUCER_STEP (45_pipeline.md R261 to R263; 60_exceptions.md R300): its four outcomes, what it delivers to OUTQ
and the tap, and SPF as the floor of FS / 60 (70_reset_and_hazards.md R323). -/

namespace Sys2Proof.Machine

open F32

/-! ## Samples per frame -/

theorem toRat_nonneg_of_rateLegal {fs : Num32} (h : RateLegal fs) : 0 ≤ toRat fs := by
  obtain ⟨hfin, hpos⟩ := h
  have hlt := (lt_iff_toRat isFinite_posZero hfin).mp hpos
  rw [toRat_zero] at hlt
  exact hlt.le

theorem samplesPerFrame_of_multiple {fs : Num32} {k : Nat} (h : RateLegal fs) (hk : toRat fs = 60 * k) :
    samplesPerFrame fs = k := by
  have hfloor := samplesPerFrame_floor h.1 (toRat_nonneg_of_rateLegal h)
  rw [hk, mul_div_cancel_left₀ _ (by norm_num), Int.floor_natCast] at hfloor
  exact_mod_cast hfloor

/-- 60 frames never hold more than FS samples (R323). -/
theorem sixty_samplesPerFrame_le {fs : Num32} (h : RateLegal fs) : (60 * samplesPerFrame fs : ℚ) ≤ toRat fs := by
  have hle : ((samplesPerFrame fs : Int) : ℚ) ≤ toRat fs / 60 := by
    rw [samplesPerFrame_floor h.1 (toRat_nonneg_of_rateLegal h)]
    exact Int.floor_le _
  rw [le_div_iff₀' (by norm_num), Int.cast_natCast] at hle
  exact hle

/-- A whole FS that binary32 holds exactly divides as a natural number. -/
theorem samplesPerFrame_ofNat {n : Nat} (h : n ≤ 2 ^ 24) : samplesPerFrame (ofNat n) = n / 60 := by
  have hfloor := samplesPerFrame_floor (isFinite_ofNat (h.trans (by decide))) (by rw [toRat_ofNat h]; positivity)
  rw [toRat_ofNat h, show (60 : ℚ) = ((60 : Nat) : ℚ) by norm_num, Rat.floor_natCast_div_natCast] at hfloor
  exact_mod_cast hfloor

/-! ## The outcomes -/

theorem exec_producerStep (s : State) :
    exec .producerStep s = answer (producerStep s) (fun tr => { tr.1 with result := .producer tr.2 }) := rfl

section
variable {s : State}

theorem producerStep_of_stop (h : s.stop = true) : producerStep s = .ok (s, .stopped) := if_pos h

/-- Without STOP the room in OUTQ decides (R262). -/
theorem producerStep_of_full (hstop : s.stop = false) (hfull : Config.outqCap ≤ s.outq.length) :
    producerStep s = .ok (s, .deferred) := by
  rw [producerStep, if_neg (by rw [hstop]; decide), if_pos hfull]

variable (hstop : s.stop = false) (hroom : s.outq.length < Config.outqCap)
include hstop hroom

theorem producerStep_of_rendered {b : Frame} {t : State}
    (h : renderFrame (samplesPerFrame s.engine.fs) s = .ok (b, t)) :
    producerStep s = .ok ({ t with outq := t.outq ++ [b], tap := some b }, .produced) := by
  rw [producerStep, if_neg (by rw [hstop]; decide), if_neg (Nat.not_le.mpr hroom), h]

theorem producerStep_of_refused {r : Refusal} (h : renderFrame (samplesPerFrame s.engine.fs) s = .error r) :
    producerStep s = .error r := by
  rw [producerStep, if_neg (by rw [hstop]; decide), if_neg (Nat.not_le.mpr hroom), h]

end

/-- Settles O36: the tests of PRODUCER_STEP in order, with `renderFrame_ok` where it renders; SPF is a floor. -/
theorem producerSteps : Obligations.ProducerSteps := by
  refine ⟨fun s => ⟨fun hstop => ?_, fun hstop hfull => ?_, fun hstop hroom hlegal hrom htame => ?_,
    fun r hstop hroom hr => ?_⟩, fun fs hfs => ⟨?_, fun ⟨k, hk⟩ => ?_, fun hno => ?_⟩, ?_⟩
  · rw [exec_producerStep, producerStep_of_stop hstop, answer_ok]
  · rw [exec_producerStep, producerStep_of_full hstop hfull, answer_ok]
  · obtain ⟨b, t, hrender, hlen⟩ := renderFrame_ok ⟨hlegal, hrom, htame⟩ (samplesPerFrame s.engine.fs)
    obtain ⟨-, -, -, -, -, -, -, houtq, -⟩ := renderFrame_frame hrender
    refine ⟨b, t, hrender, hlen, ?_⟩
    rw [exec_producerStep, producerStep_of_rendered hstop hroom hrender, answer_ok, houtq]
  · rw [exec_producerStep, producerStep_of_refused hstop hroom hr, answer_error]
  · exact samplesPerFrame_floor hfs.1 (toRat_nonneg_of_rateLegal hfs)
  · rw [samplesPerFrame_of_multiple hfs hk, hk]
  · exact (sixty_samplesPerFrame_le hfs).lt_of_ne fun heq => hno ⟨_, heq.symm⟩
  · exact ⟨samplesPerFrame_ofNat (by decide), samplesPerFrame_ofNat (by decide), samplesPerFrame_ofNat (by decide),
      samplesPerFrame_ofNat (by decide)⟩

/-! ## What is delivered -/

/-- Settles O40: a frame is the one outcome that returns Produced, and RENDER_FRAME leaves OUTQ and CUR alone. -/
theorem producerDelivers : Obligations.ProducerDelivers := by
  intro s t hexec hresult
  obtain ⟨⟨u, r⟩, hstep, rfl⟩ := answer_next hexec
  cases hresult
  rcases producerStep_cases hstep with ⟨-, -, hr⟩ | ⟨-, -, -, hr⟩ | ⟨-, -, -, b, v, hrender, rfl⟩
  · cases hr
  · cases hr
  · obtain ⟨hlen, -, -, -, -, -, -, houtq, hcur, -⟩ := renderFrame_frame hrender
    refine ⟨b, v, hrender, rfl, rfl, rfl, rfl, hlen, ?_, rfl, by rw [houtq], hcur⟩
    simp only [pendingSamples_eq, houtq, hcur, List.flatten_append, List.flatten_singleton, List.append_assoc]

end Sys2Proof.Machine
end

section
/-! PROOFS. NEXT_SAMPLE and CALLBACK_PULL (45_pipeline.md R264 to R268): one sample in each of its forms, a pull as a chain
of them, and the samples a pull emits. -/

namespace Sys2Proof.Machine

theorem exec_nextSample (s : State) :
    exec .nextSample s = .next (returning (.num (nextSample s).1) (nextSample s).2) := rfl

theorem exec_callbackPull (count : BitVec 24) (s : State) :
    exec (.callbackPull count) s =
      .next (returning (.samples (pullSamples count.toNat s).1) (pullSamples count.toNat s).2) := rfl

/-! ## One sample -/

theorem curSample_eq_none {cur : Option CurBuffer} (h : ∀ c, cur = some c → c.buf.length ≤ c.rd) :
    curSample cur = none := by
  cases cur with
  | none => rfl
  | some c => exact List.getElem?_eq_none (h c rfl)

/-- The refill skips the empty frames before one that is not (R265, D24). -/
theorem refill_skip_empty (k : Nat) (x : Num32) (b : Frame) (q : List Frame) (cur : Option CurBuffer) :
    refill (List.replicate k [] ++ (x :: b) :: q) cur = (some x, q, some { buf := x :: b, rd := 1 }) := by
  induction k generalizing cur with
  | zero => rfl
  | succ k ih => exact ih _

/-- Where every queued frame is empty, the refill loads the last of them. -/
theorem refill_all_empty (k : Nat) (cur : Option CurBuffer) :
    refill (List.replicate (k + 1) []) cur = (none, [], some { buf := [], rd := 0 }) := by
  induction k generalizing cur with
  | zero => rfl
  | succ k ih => exact ih (some { buf := [], rd := 0 })

section
variable {s : State}

theorem nextSample_of_curSample {x : Num32} (h : curSample s.cur = some x) :
    nextSample s = (x, { s with cur := curAdvance s.cur }) := by
  simp only [nextSample, h]

variable (hcur : curSample s.cur = none)
include hcur

theorem nextSample_of_refill {x : Num32} {q : List Frame} {c : Option CurBuffer}
    (h : refill s.outq s.cur = (some x, q, c)) : nextSample s = (x, { s with outq := q, cur := c }) := by
  simp only [nextSample, hcur, h]

theorem nextSample_of_underrun {q : List Frame} {c : Option CurBuffer} (h : refill s.outq s.cur = (none, q, c)) :
    nextSample s = (F32.posZero, logStatus (underrunStatus c) { s with outq := q, cur := c }) := by
  simp only [nextSample, hcur, h]

/-- With nothing queued, silence changes LOG alone. -/
theorem nextSample_of_outq_nil (h : s.outq = []) :
    nextSample s = (F32.posZero, logStatus (underrunStatus s.cur) s) :=
  nextSample_of_underrun hcur (q := s.outq) (c := s.cur) (by rw [h]; rfl)

end

/-- Settles O38: CUR holds a sample, or the refill finds one behind the empty frames, or there is none. -/
theorem nextSampleForms : Obligations.NextSampleForms := by
  refine fun s => ⟨fun buf rd x hcur hx => ?_, fun k x b q hcur hq => ?_, fun hcur hq => ?_, fun c hcur hrd hq => ?_,
    fun k hcur hq => ?_⟩
  · rw [exec_nextSample, nextSample_of_curSample (x := x) (by rw [hcur]; exact hx), hcur]; rfl
  · rw [exec_nextSample, nextSample_of_refill (curSample_eq_none hcur) (by rw [hq]; exact refill_skip_empty k x b q _)]
    rfl
  · rw [exec_nextSample, nextSample_of_outq_nil (by rw [hcur]; rfl) hq, congrArg underrunStatus hcur]; rfl
  · have hnone : curSample s.cur = none := by rw [hcur]; exact List.getElem?_eq_none hrd
    rw [exec_nextSample, nextSample_of_outq_nil hnone hq, congrArg underrunStatus hcur]; rfl
  · rw [exec_nextSample, nextSample_of_underrun (curSample_eq_none hcur) (by rw [hq]; exact refill_all_empty k _)]
    rfl

/-! ## A pull as a chain of samples -/

/-- The state that NEXT_SAMPLE leaves, with the sample as the value returned. -/
def afterNextSample (s : State) : State := returning (.num (nextSample s).1) (nextSample s).2

/-- NEXT_SAMPLE does not read the value the last operation returned. -/
theorem nextSample_returning (r : StepResult) (s : State) :
    nextSample (returning r s) = ((nextSample s).1, returning r (nextSample s).2) := by
  cases hcur : curSample s.cur with
  | some x =>
    rw [nextSample_of_curSample hcur, nextSample_of_curSample (s := returning r s) hcur]; rfl
  | none =>
    rcases hr : refill s.outq s.cur with ⟨o, q, c⟩
    cases o with
    | some x => rw [nextSample_of_refill hcur hr, nextSample_of_refill (s := returning r s) hcur hr]; rfl
    | none => rw [nextSample_of_underrun hcur hr, nextSample_of_underrun (s := returning r s) hcur hr]; rfl

theorem pullSamples_returning (n : Nat) (r : StepResult) (s : State) :
    pullSamples n (returning r s) = ((pullSamples n s).1, returning r (pullSamples n s).2) := by
  induction n generalizing s with
  | zero => rfl
  | succ n ih => rw [pullSamples_succ, pullSamples_succ, nextSample_returning, ih]

/-- The slots of a pull are the samples of a chain of NEXT_SAMPLEs, and a pull leaves what the chain leaves (R264). -/
theorem pullSamples_chain (n : Nat) (s : State) :
    (∀ i < n, (pullSamples n s).1[i]? = some (nextSample (afterNextSample^[i] s)).1) ∧
      ∀ r, returning r (pullSamples n s).2 = returning r (afterNextSample^[n] s) := by
  induction n generalizing s with
  | zero => exact ⟨fun i hi => absurd hi (Nat.not_lt_zero i), fun r => rfl⟩
  | succ n ih =>
    obtain ⟨hslots, hend⟩ := ih (afterNextSample s)
    rw [afterNextSample, pullSamples_returning, ← afterNextSample] at hslots hend
    rw [pullSamples_succ]
    refine ⟨fun i hi => ?_, hend⟩
    cases i with
    | zero => rfl
    | succ i => exact hslots i (by omega)

/-- Settles O37: the chain is `afterNextSample` iterated. -/
theorem callbackPulls : Obligations.CallbackPulls := by
  intro s count
  obtain ⟨hslots, hend⟩ := pullSamples_chain count.toNat s
  refine ⟨(pullSamples count.toNat s).1, fun i => afterNextSample^[i] s, pullSamples_length _ s, rfl,
    fun i hi => ?_, ?_⟩
  · simp only [Function.iterate_succ_apply']
    exact ⟨_, hslots i hi, rfl, rfl⟩
  · rw [exec_callbackPull, hend]; rfl

/-! ## What a pull emits -/

/-- Settles O39: `pullSamples_pending` and `pullSamples_log`, with what the table `writtenBy` lets a pull write. -/
theorem pullInOrder : Obligations.PullInOrder := by
  intro s count
  obtain ⟨hslots, hrest⟩ := pullSamples_pending count.toNat s
  obtain ⟨es, hlog, hlen⟩ := pullSamples_log count.toNat s
  have hexec := exec_callbackPull count s
  exact ⟨_, es, hexec, congrArg StepResult.samples hslots, hrest, hlog, hlen, exec_writes hexec⟩

end Sys2Proof.Machine
end

section
/-! PROOFS. Every step keeps the pipeline within its capacity (45_pipeline.md R269), and what that bounds. Only the three
operations of the pipeline write OUTQ or CUR, and no operation writes FS. -/

namespace Sys2Proof.Machine

/-- The pipeline's invariant is read from FS, OUTQ and CUR alone. -/
theorem PipelineInv.congr {s t : State} (hs : PipelineInv s) (hfs : t.engine.fs = s.engine.fs) (houtq : t.outq = s.outq)
    (hcur : t.cur = s.cur) : PipelineInv t := by
  rw [pipelineInv_iff, hfs, houtq, hcur]
  exact hs

/-- A frame is pushed only where OUTQ has room for it (R261, R262). -/
theorem producerStep_pipelineInv {s t : State} {r : ProducerResult} (hs : PipelineInv s)
    (h : producerStep s = .ok (t, r)) : PipelineInv t := by
  rcases producerStep_cases h with ⟨-, rfl, -⟩ | ⟨-, -, rfl, -⟩ | ⟨-, hroom, -, b, u, hrender, rfl⟩
  · exact hs
  · exact hs
  · obtain ⟨hlen, -, hfs, -, -, -, -, houtq, hcur, -⟩ := renderFrame_frame hrender
    obtain ⟨-, hframes, hbuf⟩ := hs
    simp only [PipelineInv, hfs, houtq, hcur, List.length_append, List.length_singleton, List.forall_mem_append,
      List.forall_mem_singleton]
    exact ⟨hroom, ⟨hframes, hlen⟩, hbuf⟩

theorem exec_pipelineInv {i : Instr} {s t : State} (hs : PipelineInv s) (h : exec i s = .next t) : PipelineInv t := by
  cases i with
  | producerStep =>
    obtain ⟨⟨u, r⟩, hu, rfl⟩ := answer_next h
    exact (producerStep_pipelineInv hs hu).congr rfl rfl rfl
  | callbackPull n =>
    rw [pipelineInv_iff, exec_writes h, writtenBy_fs]
    cases h
    exact pullSamples_queue n.toNat hs
  | nextSample =>
    rw [pipelineInv_iff, exec_writes h, writtenBy_fs]
    cases h
    exact nextSample_queue hs
  | _ => rw [exec_writes h]; exact hs.congr rfl rfl rfl

theorem length_flatten_of_frames {n : Nat} {q : List Frame} (h : ∀ b ∈ q, b.length = n) :
    q.flatten.length = q.length * n := by
  rw [List.length_flatten, List.map_eq_replicate_iff.mpr h, List.sum_replicate, smul_eq_mul]

theorem length_curRest_le {n : Nat} {cur : Option CurBuffer} (h : ∀ c, cur = some c → c.buf.length = n) :
    (curRest cur).length ≤ n := by
  cases cur with
  | none => exact Nat.zero_le n
  | some c =>
    rw [← h c rfl, curRest, List.length_drop]
    exact Nat.sub_le _ _

/-- Settles O41: the pipeline's own operations keep the invariant, and two queued frames and the rest of CUR are at most
three frames of samples. -/
theorem pipelineKept : Obligations.PipelineKept := by
  refine ⟨fun s t hs hstep => step_keeps (P := PipelineInv) (fun _ _ _ hu => hu) (fun _ _ _ => exec_pipelineInv)
    (fun _ _ hu => hu) hs hstep, fun s ⟨hcap, hframes, hbuf⟩ => ?_⟩
  have hrest := length_curRest_le fun c hc => (hbuf c hc).2
  have hqueued : s.outq.flatten.length ≤ 2 * samplesPerFrame s.engine.fs := by
    rw [length_flatten_of_frames hframes]
    exact Nat.mul_le_mul_right _ hcap
  rw [pendingSamples_eq, List.length_append]
  omega

end Sys2Proof.Machine
end

section
/-! PROOFS. What raising a fault does to FAULT and LOG, that no step takes anything back from them, and that nothing reads
them (60_exceptions.md R281, R282, R286 to R288; 10_state.md R32). -/

namespace Sys2Proof.Machine

/-! ## No step reads the past (R287) -/

theorem withPast_takeInput (f : BitVec 8) (l : List Event) (ev : PortEvent) (rest : List PortEvent) (s : State) :
    takeInput ev rest (withPast f l s) = withPast f l (takeInput ev rest s) := rfl

theorem withPast_rejectWord (f : BitVec 8) (l : List Event) (r : FaultRecord) (s : State) :
    rejectWord r (withPast f l s) = withPast f l (rejectWord r s) := by
  rw [rejectWord, withPast_raiseFault]
  rfl

/-- Settles O12: what the next agent's step resolves to is read from that step alone, and the operation, the rejection
or the refusal it resolves to commutes with a change of the past. -/
theorem pastNotRead : Obligations.PastNotRead := by
  intro f l s
  have hinputs : (withPast f l s).inputs = s.inputs := rfl
  unfold step
  rw [hinputs]
  cases s.inputs with
  | nil => rfl
  | cons ev rest =>
    simp only [withPast_takeInput]
    cases resolve ev with
    | run i => exact exec_past i f l _
    | reject r => exact congrArg Host.Outcome.next (withPast_rejectWord f l r _)
    | refuse r => rfl

/-! ## What a fault writes (R282) -/

/-- The bit of a cause is the one whose number is one below the cause's code (R32). -/
theorem getLsbD_causeBit (c : Cause) {n : Nat} (hn : n < 8) : (causeBit c).getLsbD n = (causeCode c == n + 1) := by
  revert n
  cases c <;> decide

/-- Settles O9: the ORed bit is the cause's own, and the rest of the state is as it was. -/
theorem raiseFaultExact : Obligations.RaiseFaultExact := by
  refine ⟨fun f s => ⟨fun n hn => ?_, raiseFault_log f s, rfl⟩, by decide⟩
  rw [raiseFault_fault, BitVec.getLsbD_or, getLsbD_causeBit f.cause hn]

/-! ## Nothing is taken back (R288) -/

/-- Settles O11: a step ORs bits into FAULT and appends events to LOG. -/
theorem faultSticky : Obligations.FaultSticky := by
  intro s t hstep
  obtain ⟨es, hlog, hfault⟩ := step_logStep hstep
  refine ⟨fun n hn => ?_, es, hlog⟩
  rw [hfault, BitVec.getLsbD_or, hn, Bool.true_or]

end Sys2Proof.Machine
end

section
/-! PROOFS. RESET (70_reset_and_hazards.md R310, R311; 60_exceptions.md R291): which construction inputs are accepted, the
state they give, and the invariants that state meets. -/

namespace Sys2Proof.Machine

/-! ## The checks of RESET (R310, R291) -/

/-- A NaN fails the check of FS as not finite, and either zero as not above 0 (R31). -/
theorem rateTest_iff_not_rateLegal {fs : Num32} :
    (!F32.isFinite fs || F32.le fs F32.posZero) = true ↔ ¬ RateLegal fs := by
  cases hfin : F32.isFinite fs with
  | false => simp [RateLegal, hfin]
  | true =>
    have hn := F32.not_isNaN_of_isFinite hfin
    have hle : F32.le fs F32.posZero = true ↔ ¬ F32.lt F32.posZero fs = true := by
      rw [F32.le_iff hn F32.isNaN_posZero, F32.lt_iff F32.isNaN_posZero hn, not_lt]
    simp [RateLegal, hfin, hle]

section
variable {p : Params} {fs : Num32} {rom : RomInstance}

theorem construct_of_not_rateLegal (h : ¬ RateLegal fs) : construct p fs = .refused .badConstruction :=
  if_pos (rateTest_iff_not_rateLegal.mpr h)

theorem construct_of_absent_rom (h : romAt p.roms p.rom0 = none) : construct p fs = .refused .badConstruction := by
  simp only [construct, h, ite_self]

theorem construct_of_invalid_rom (hat : romAt p.roms p.rom0 = some rom)
    (hinvalid : romFault p.numInstruments fs rom p.rom0 ≠ none) : construct p fs = .refused .badConstruction := by
  obtain ⟨f, hf⟩ := Option.ne_none_iff_exists'.mp hinvalid
  simp only [construct, hat, hf, ite_self]

theorem construct_of_valid (hfs : RateLegal fs) (hat : romAt p.roms p.rom0 = some rom)
    (hvalid : romFault p.numInstruments fs rom p.rom0 = none) : construct p fs = .next (State.initial p fs rom) := by
  simp only [construct, if_neg (mt rateTest_iff_not_rateLegal.mp (not_not.mpr hfs)), hat, hvalid]

end

/-- Settles O13: the checks pass together and give `State.initial`, or one of them refuses. -/
theorem constructionState : Obligations.ConstructionState := by
  intro p fs
  refine ⟨fun rom hfs hat hvalid => ⟨State.initial p fs rom, construct_of_valid hfs hat hvalid, ?_⟩, ?_⟩
  · exact ⟨rfl, rfl, rfl, rfl, rfl, rfl, rfl, rfl, rfl, rfl, rfl, rfl⟩
  · rintro (hfs | hat | ⟨rom, hat, hinvalid⟩)
    · exact construct_of_not_rateLegal hfs
    · exact construct_of_absent_rom hat
    · exact construct_of_invalid_rom hat hinvalid

/-! ## The state after RESET meets the invariants (R311) -/

section
variable (p : Params) (fs : Num32) (rom : RomInstance)

theorem initial_faultLogInv : FaultLogInv (State.initial p fs rom) := rfl

/-- OUTQ is empty and CUR is None. -/
theorem initial_pipelineInv : PipelineInv (State.initial p fs rom) :=
  ⟨Nat.zero_le _, fun _ hb => absurd hb List.not_mem_nil, fun _ hc => nomatch hc⟩

theorem initial_shapeInv : ShapeInv (State.initial p fs rom) := ⟨List.length_replicate, rfl⟩

theorem initial_channel_empty {c : Channel} (hc : c ∈ (State.initial p fs rom).engine.ch) : c = .empty :=
  List.eq_of_mem_replicate hc

variable {p fs rom}

theorem initial_engineLegal (hfs : RateLegal fs) : EngineLegal (State.initial p fs rom).engine :=
  ⟨hfs, fun _ hc => initial_channel_empty p fs rom hc ▸ trivial⟩

theorem initial_romInv (hat : romAt p.roms p.rom0 = some rom)
    (hvalid : romFault p.numInstruments fs rom p.rom0 = none) : RomInv (State.initial p fs rom) := ⟨hat, hvalid⟩

/-- The state-save port holds the engine itself (log 11), and no step is pending. -/
theorem initial_voiceInv (hfs : RateLegal fs) (hrom : RomInv (State.initial p fs rom)) :
    VoiceInv (State.initial p fs rom) :=
  ⟨initial_engineLegal hfs, hrom, initial_engineLegal hfs, fun _ _ hin => absurd hin List.not_mem_nil⟩

theorem initial_tameInv (hnotes : NotesTame (State.initial p fs rom)) (hbound : RomTame rom)
    (hroms : ∀ e ∈ p.roms, RomTame e.2) : TameInv (State.initial p fs rom) :=
  ⟨hnotes, hbound, hroms, fun _ hc => initial_channel_empty p fs rom hc ▸ trivial⟩

end

/-! ## The model's own inputs (log 4) -/

theorem resetFs_legal : RateLegal Config.resetFs := by decide

theorem params_wf : Config.params.wf := by decide

theorem params_rom0 : romAt Config.params.roms Config.params.rom0 = some Config.resetRom := rfl

/-- The reset ROM holds no instrument. -/
theorem not_some_mem_resetRom (i : Instrument) : some i ∉ Config.resetRom := by simp [Config.resetRom]

theorem resetRom_valid : romFault Config.params.numInstruments Config.resetFs Config.resetRom Config.params.rom0 = none := by
  decide

theorem resetRom_tame : RomTame Config.resetRom := fun i hi => absurd hi (not_some_mem_resetRom i)

theorem params_roms_tame : ∀ e ∈ Config.params.roms, RomTame e.2 :=
  List.forall_mem_singleton.mpr resetRom_tame

/-- The note table has no row, its default is +0.0, and FS is above 1. -/
theorem reset_notesTame : NotesTame State.reset :=
  ⟨fun _ hr => absurd hr List.not_mem_nil, by decide, by decide⟩

/-- Settles O14: the inputs pass the checks of RESET, and their ROM holds no instrument and their note table no row. -/
theorem resetState : Obligations.ResetState := by
  have hrom : RomInv State.reset := initial_romInv params_rom0 resetRom_valid
  exact ⟨construct_of_valid resetFs_legal params_rom0 resetRom_valid, params_wf, initial_faultLogInv _ _ _,
    initial_pipelineInv _ _ _, initial_shapeInv _ _ _, hrom, initial_voiceInv resetFs_legal hrom,
    initial_tameInv reset_notesTame resetRom_tame params_roms_tame⟩

end Sys2Proof.Machine
end

section
/-! PROOFS. The order of a drain (70_reset_and_hazards.md R317; 44_engine.md R234). -/

namespace Sys2Proof.Machine

/-- Whether a word is of the first pass is read from its opcode field (R91, R234). -/
theorem isRomChange_eq_decide : isRomChange = fun w => decide (w.extractLsb' 24 8 = 0x04#8) := rfl

theorem not_isRomChange_eq_decide : (fun w => !isRomChange w) = fun w => decide (w.extractLsb' 24 8 ≠ 0x04#8) :=
  funext fun w => (decide_not (p := w.extractLsb' 24 8 = 0x04#8)).symm

/-- Settles O24: `drain_eq` runs the two passes as one list, and the opcode decides the pass of a word. -/
theorem drainTwoPass : Obligations.DrainTwoPass := by
  refine ⟨fun _ => rfl, fun w ws s => ⟨fun _ h => applyWords_cons_ok h ws, fun _ h => applyWords_cons_error h ws⟩, ?_⟩
  intro s rom rest hrom hrest
  have hpasses : drain s = applyWords (rom ++ rest) { s with cmdq := [] } := by
    rw [drain_eq, not_isRomChange_eq_decide, isRomChange_eq_decide, hrom, hrest]
  rw [exec_drain, hpasses]
  refine ⟨fun t h => ?_, fun r h => ?_⟩
  · rw [h, answer_ok, returning]
  · rw [h, answer_error]

end Sys2Proof.Machine
end
